-- ==== Sys2Proof/Word.lean ====
section
/-! DEFINITION. The word types of KPCF-CORE (spec/00_scope.md R8, R9). -/

namespace Sys2Proof

/-- A 32-bit word: a register, an operand or result word, one delay-RAM word (R8, R71, R73).
Read as `u32` or as an IEEE 754 binary32 number, `b32` (R9). -/
abbrev Word := BitVec 32

/-- Eight bits: the `OPC` and `ARG` fields (R91), a response code (R93), one byte of a bus (R73). -/
abbrev Byte := BitVec 8

end Sys2Proof
end

