-- ==== Sys2Proof/Syntax.lean ====
section
/-! DEFINITION. The commands of KPCF-CORE (spec/30_encoding.md R90 to R94) and the transaction that carries one. -/

namespace Sys2Proof

/-- A delay-line channel (R8): 0 = left, 1 = right. -/
inductive Channel where
  | left
  | right
  deriving DecidableEq, Repr

/-- What the command word alone says (R95): the command and its `ARG`. -/
inductive Command where
  | nop
  | configure
  | writeReg (index : Byte)
  | readReg (index : Byte)
  | processFrame
  | dlWrite (ch : Channel)
  | dlRead (ch : Channel)
  deriving DecidableEq, Repr

/-- One command with the operand words its rule reads (R92); one constructor per row of
spec/opcode_table.json. An operand word marked "ignored" by R92 is no field. -/
inductive Instr where
  /-- NOP, R200. -/
  | nop
  /-- CONFIGURE, R201: `OP0` the sample rate in Hz. -/
  | configure (sampleRate : Word)
  /-- WRITE_REG, R213: `ARG` any register index, `OP0` the value. -/
  | writeReg (index : Byte) (value : Word)
  /-- READ_REG, R210: `ARG` any register index. -/
  | readReg (index : Byte)
  /-- PROCESS_FRAME, R150: `OP0`, `OP1` the left and right input sample. -/
  | processFrame (inL inR : Word)
  /-- DL_WRITE, R125: `ARG` the channel, `OP0` the sample. -/
  | dlWrite (ch : Channel) (sample : Word)
  /-- DL_READ, R126: `ARG` the channel, `OP0` the delay in samples. -/
  | dlRead (ch : Channel) (delay : Word)
  deriving DecidableEq, Repr

/-- The three words of a request (R90). -/
structure Request where
  cmd : Word
  op0 : Word
  op1 : Word
  deriving DecidableEq, Repr

/-- The response codes (R93); codes 0x04 to 0xFF are never returned. -/
inductive RespCode where
  | ok
  | illegalCommand
  | allocError
  | notPrepared
  deriving DecidableEq, Repr

/-- A response: the code `RESP` and the result words `RES0`, `RES1` (R90). -/
structure Response where
  code : RespCode
  res0 : Word
  res1 : Word
  deriving DecidableEq, Repr

/-- What the host does at the block's boundary: issue a request (R90), or assert the reset input (R260). -/
inductive HostEvent where
  | request (r : Request)
  | reset
  deriving DecidableEq, Repr

/-- The stored value of TYPE (R34): 0 Chorus, 1 Flanger. -/
inductive EffectType where
  | chorus
  | flanger
  deriving DecidableEq, Repr

end Sys2Proof
end

