-- ==== Sys2Proof/Decode.lean ====
section
/-! DEFINITION. From the words of a request to a command and back (spec/30_encoding.md R90 to R96), and the byte order
of a byte-serial transport (spec/20_memory.md R73). -/

namespace Sys2Proof

/-- Why a command word is ILLEGAL (R96): a reserved opcode, a nonzero `RSV`, a nonzero `ARG` where it must be 0,
or a channel above 1. -/
inductive Illegal where
  | reservedOpcode
  | nonzeroRsv
  | nonzeroArg
  | channelOutOfRange
  deriving DecidableEq, Repr

/-- What decoding answers (R95): a value, or ILLEGAL with its cause. -/
inductive Decoded (α : Type) where
  | command (c : α)
  | illegal (why : Illegal)
  deriving DecidableEq, Repr

/-- The field `OPC`, bits 31:24 (R91). -/
def opcField (cmd : Word) : Byte := cmd.extractLsb' 24 8
/-- The field `ARG`, bits 23:16 (R91). -/
def argField (cmd : Word) : Byte := cmd.extractLsb' 16 8
/-- The field `RSV`, bits 15:0 (R91). -/
def rsvField (cmd : Word) : BitVec 16 := cmd.extractLsb' 0 16

/-- A command that takes no `ARG` (R95): `ARG` must be 0. -/
def withZeroArg (arg : Byte) (c : Command) : Decoded Command :=
  if arg = 0#8 then .command c else .illegal .nonzeroArg

/-- A command on a channel (R95): `ARG` must be 0 (left) or 1 (right). -/
def withChannel (arg : Byte) (c : Channel → Command) : Decoded Command :=
  if arg = 0#8 then .command (c .left)
  else if arg = 1#8 then .command (c .right)
  else .illegal .channelOutOfRange

/-- `decode(CMD)` of R95: a function of the command word alone, total on all 2^32 of them. -/
def decodeCmd (cmd : Word) : Decoded Command :=
  if rsvField cmd ≠ 0#16 then .illegal .nonzeroRsv
  else if opcField cmd = 0x00#8 then withZeroArg (argField cmd) .nop
  else if opcField cmd = 0x01#8 then withZeroArg (argField cmd) .configure
  else if opcField cmd = 0x02#8 then .command (.writeReg (argField cmd))
  else if opcField cmd = 0x03#8 then .command (.readReg (argField cmd))
  else if opcField cmd = 0x10#8 then withZeroArg (argField cmd) .processFrame
  else if opcField cmd = 0x20#8 then withChannel (argField cmd) .dlWrite
  else if opcField cmd = 0x21#8 then withChannel (argField cmd) .dlRead
  else .illegal .reservedOpcode

/-- The command with its operand words, as they stand (R92). -/
def Command.withOperands (c : Command) (op0 op1 : Word) : Instr :=
  match c with
  | .nop => .nop
  | .configure => .configure op0
  | .writeReg index => .writeReg index op0
  | .readReg index => .readReg index
  | .processFrame => .processFrame op0 op1
  | .dlWrite ch => .dlWrite ch op0
  | .dlRead ch => .dlRead ch op0

/-- The instruction that a request spells, or ILLEGAL. -/
def decode (r : Request) : Decoded Instr :=
  match decodeCmd r.cmd with
  | .command c => .command (c.withOperands r.op0 r.op1)
  | .illegal why => .illegal why

/-- `ARG` of a channel (R91). -/
def Channel.arg (ch : Channel) : Byte :=
  match ch with
  | .left => 0#8
  | .right => 1#8

/-- `{OPC, ARG, RSV}` with `RSV = 0x0000` (R91). -/
def cmdWord (opc arg : Byte) : Word := opc ++ arg ++ 0#16

/-- The request words of an instruction (R92, R94); an ignored operand word is 0, as R98 writes it. -/
def encode (i : Instr) : Request :=
  match i with
  | .nop => ⟨cmdWord 0x00#8 0#8, 0#32, 0#32⟩
  | .configure sampleRate => ⟨cmdWord 0x01#8 0#8, sampleRate, 0#32⟩
  | .writeReg index value => ⟨cmdWord 0x02#8 index, value, 0#32⟩
  | .readReg index => ⟨cmdWord 0x03#8 index, 0#32, 0#32⟩
  | .processFrame inL inR => ⟨cmdWord 0x10#8 0#8, inL, inR⟩
  | .dlWrite ch sample => ⟨cmdWord 0x20#8 ch.arg, sample, 0#32⟩
  | .dlRead ch delay => ⟨cmdWord 0x21#8 ch.arg, delay, 0#32⟩

/-- A response code's eight bits (R93). -/
def RespCode.byte (c : RespCode) : Byte :=
  match c with
  | .ok => 0x00#8
  | .illegalCommand => 0x01#8
  | .allocError => 0x02#8
  | .notPrepared => 0x03#8

/-- A word as four bus bytes: byte 0 is bits 7:0 and byte 3 is bits 31:24 (R73). -/
def wordBytes (w : Word) : List Byte :=
  [w.extractLsb' 0 8, w.extractLsb' 8 8, w.extractLsb' 16 8, w.extractLsb' 24 8]

/-- The word that four bus bytes carry (R73). -/
def bytesWord (b0 b1 b2 b3 : Byte) : Word := b3 ++ b2 ++ b1 ++ b0

/-- The twelve bus bytes of a request, word by word (R73; the order of the words: notes/assumptions/19.md). -/
def Request.toBytes (r : Request) : List Byte := wordBytes r.cmd ++ wordBytes r.op0 ++ wordBytes r.op1

/-- The request that twelve bus bytes carry; no other number of bytes is a request. -/
def Request.ofBytes (bytes : List Byte) : Option Request :=
  match bytes with
  | [a0, a1, a2, a3, b0, b1, b2, b3, c0, c1, c2, c3] =>
    some ⟨bytesWord a0 a1 a2 a3, bytesWord b0 b1 b2 b3, bytesWord c0 c1 c2 c3⟩
  | _ => none

/-- The request held in the number `w`: CMD in bits 31:0, OP0 in bits 63:32, OP1 in bits 95:64, and every bit
from `nbits` on 0. -/
def requestOfNat (nbits w : Nat) : Request :=
  ⟨BitVec.ofNat 32 (w % 2 ^ nbits), BitVec.ofNat 32 (w % 2 ^ nbits / 2 ^ 32), BitVec.ofNat 32 (w % 2 ^ nbits / 2 ^ 64)⟩

/-- The instruction the decoder reads from the opcode-table word `w` of `nbits` bits; none where it refuses. -/
def decodeTableWord (nbits w : Nat) : Option Instr :=
  match decode (requestOfNat nbits w) with
  | .command i => some i
  | .illegal _ => none

end Sys2Proof
end

