-- ==== Sys2Proof/Machine/Binary32.lean ====
section
/-! DEFINITION. IEEE 754 binary32 arithmetic as spec/00_scope.md R11 fixes it: round to nearest, ties to even,
subnormals kept, no fused multiply-add, every NaN result `QNAN`. Every finite binary32 number is a whole number of
UNITS of 2^-149, so each operation is computed exactly on natural numbers and rounded once. Bit layout: R73.
A large literal stands on the left of a sum or product: with an unknown `x`, Lean's kernel unfolds `x * 2^149` and
`x + 2^31` literal by literal. -/

namespace Sys2Proof.Machine

/-- `ZERO` of R12: +0. -/
def ZERO : Word := 0x00000000#32
/-- `ONE` of R12. -/
def ONE : Word := 0x3F800000#32
/-- `TWO` of R12. -/
def TWO : Word := 0x40000000#32
/-- `QNAN` of R12: the canonical quiet NaN. -/
def QNAN : Word := 0x7FC00000#32

/-- How many units make 1: `real x = units x / unitsPerOne`. -/
def unitsPerOne : Nat := 2 ^ 149

/-- Bit 31, the sign (R73). -/
def signBit (a : Word) : Bool := a.getLsbD 31

/-- Bits 30:23, the biased exponent (R73). -/
def expField (a : Word) : Nat := a.toNat / 2 ^ 23 % 2 ^ 8

/-- Bits 22:0, the fraction (R73). -/
def fracField (a : Word) : Nat := a.toNat % 2 ^ 23

/-- R11 `isNaN`. -/
def isNaN (a : Word) : Bool := expField a == 255 && fracField a != 0

/-- R11 `isInf`. -/
def isInf (a : Word) : Bool := expField a == 255 && fracField a == 0

/-- `|real a|` in units, for finite `a`. For an infinity it is larger than for any finite number. -/
def magUnits (a : Word) : Nat :=
  if expField a = 0 then fracField a else (2 ^ 23 + fracField a) * 2 ^ (expField a - 1)

/-- `real a` in units, for finite `a`. -/
def units (a : Word) : Int := if signBit a then -(magUnits a : Int) else (magUnits a : Int)

/-- A word with the given sign and 31 magnitude bits. -/
def packSign (neg : Bool) (magBits : Nat) : Word :=
  BitVec.ofNat 32 ((if neg then 2 ^ 31 else 0) + magBits)

/-- The infinity of the given sign. -/
def infinity (neg : Bool) : Word := packSign neg 0x7F800000

/-- The zero of the given sign. -/
def zeroOf (neg : Bool) : Word := packSign neg 0

/-- `n / d` rounded to the nearest natural number, ties to even. -/
def roundDiv (n d : Nat) : Nat :=
  if 2 * (n % d) < d then n / d
  else if 2 * (n % d) = d then n / d + n / d % 2
  else n / d + 1

/-- The magnitude bits of `n / d` units rounded to binary32, `d > 0` (R11 `rnd`). With `e` the least exponent for
which `n / d < 2^(24+e)`, the rounded value is `q * 2^e` units and its bits are `2^23 * e + q`: a carry out of the
fraction raises the exponent by itself, and from `0x7F800000` on the result is infinity (R11). -/
def rndBits (n d : Nat) : Nat :=
  min (2 ^ 23 * ((n / d).log2 - 23) + roundDiv n (d * 2 ^ ((n / d).log2 - 23))) 0x7F800000

/-- R11 `rnd` of the real number `± n / d` units. -/
def rnd (neg : Bool) (n d : Nat) : Word := packSign neg (rndBits n d)

/-- R11 `fadd`. An exact zero sum is +0.0 unless both operands are -0.0. -/
def fadd (a b : Word) : Word :=
  if isNaN a || isNaN b then QNAN
  else if isInf a then (if isInf b && signBit a != signBit b then QNAN else a)
  else if isInf b then b
  else if units a + units b = 0 then zeroOf (signBit a && signBit b)
  else rnd (decide (units a + units b < 0)) (units a + units b).natAbs 1

/-- The operand with its sign bit flipped. -/
def fneg (a : Word) : Word := a ^^^ 0x80000000#32

/-- R11 `fsub`: `a - b` is `a + (-b)`, with the same special cases. -/
def fsub (a b : Word) : Word := fadd a (fneg b)

/-- R11 `fmul`. -/
def fmul (a b : Word) : Word :=
  if isNaN a || isNaN b then QNAN
  else if isInf a || isInf b then
    (if magUnits a = 0 || magUnits b = 0 then QNAN else infinity (signBit a != signBit b))
  else rnd (signBit a != signBit b) (magUnits a * magUnits b) unitsPerOne

/-- R11 `fdiv`. -/
def fdiv (a b : Word) : Word :=
  if isNaN a || isNaN b then QNAN
  else if isInf a then (if isInf b then QNAN else infinity (signBit a != signBit b))
  else if isInf b then zeroOf (signBit a != signBit b)
  else if magUnits b = 0 then (if magUnits a = 0 then QNAN else infinity (signBit a != signBit b))
  else rnd (signBit a != signBit b) (unitsPerOne * magUnits a) (magUnits b)

/-- R11 `flt`. -/
def flt (a b : Word) : Bool := !isNaN a && !isNaN b && decide (units a < units b)

/-- R11 `fge`. -/
def fge (a b : Word) : Bool := !isNaN a && !isNaN b && decide (units b ≤ units a)

/-- R11 `i2f`. Exact for `n ≤ 2^24`; no rule uses it beyond (notes/assumptions/16.md). -/
def i2f (n : Nat) : Word := rnd false (unitsPerOne * n) 1

/-- `floor(real a)` of R9, for finite `a`. -/
def floorReal (a : Word) : Int := units a / (unitsPerOne : Int)

end Sys2Proof.Machine
end

