-- ==== Sys2Proof/Machine/Constants.lean ====
section
/-! DEFINITION. The named constants of spec/00_scope.md R12 and the constant registers of spec/10_state.md R36. -/

namespace Sys2Proof.Machine

/-- `CHORUS_LO`: the binary32 nearest 0.005 s. -/
def CHORUS_LO : Word := 0x3BA3D70A#32
/-- `CHORUS_HI`: the binary32 nearest 0.03 s. -/
def CHORUS_HI : Word := 0x3CF5C28F#32
/-- `FLANGER_LO`: the binary32 nearest 0.001 s. -/
def FLANGER_LO : Word := 0x3A83126F#32
/-- `FLANGER_HI`: the binary32 nearest 0.005 s. -/
def FLANGER_HI : Word := 0x3BA3D70A#32

/-- Register ID (R36, R2): "KPCF" in ASCII, most significant byte first. -/
def idValue : Word := 0x4B504346#32
/-- Register VERSION (R36, R2): major 1, minor 0. -/
def versionValue : Word := 0x00010000#32

end Sys2Proof.Machine
end

