-- ==== Sys2Proof/Config.lean ====
section
/-! DEFINITION. The parameters of an implementation (spec/00_scope.md R6, R7) and the free values. -/

namespace Sys2Proof

/-- The choice of `LFO_SINE` (R6, R7). `correctlyRounded` is the default of R7; `implementation n`
is any other total function of the phase, the `n`-th of `Config.lfoSineOf`. -/
inductive SineUnit where
  | correctlyRounded
  | implementation (n : Nat)
  deriving DecidableEq, Repr

/-- The parameters of R6. They are fixed for a whole run and are not state of the block (R44);
State carries them so that a statement about every state is about every value of them
(notes/assumptions/4.md). -/
structure Params where
  /-- `BUF_CAPACITY`, in words per channel; register CAPACITY reads it as u32 (R36). -/
  bufCapacity     : Word
  /-- `MAX_DELAY_SECONDS`, b32. -/
  maxDelaySeconds : Word
  /-- `SMOOTH_COEF`, b32. -/
  smoothCoef      : Word
  /-- `LFO_SINE`. -/
  lfoSine         : SineUnit
  deriving DecidableEq, Repr

/-- The default values of R6. -/
def Params.default : Params where
  bufCapacity     := 524288#32
  maxDelaySeconds := 0x40000000#32
  smoothCoef      := 0x38D1B717#32
  lfoSine         := .correctlyRounded

/-- FREE VALUE: every implementation's own `LFO_SINE`. R7: a model "assumes only that it is a total
function of its argument alone" (notes/assumptions/5.md). -/
opaque Config.lfoSineOf : Nat → Word → Word

end Sys2Proof
end

