-- ==== Sys2Proof/Machine/State.lean ====
section
/-! DEFINITION. The state of KPCF-CORE (spec/10_state.md R33 to R45) as plain data, its value after reset
(spec/70_reset_and_hazards.md R260), and the reasons a step can stop. -/

namespace Sys2Proof.Machine

/-- The fields of STATUS that are storage (R35); bits 31:4 are hard-wired to 0. -/
structure Status where
  /-- bit 0: the last CONFIGURE since reset succeeded. -/
  ready    : Bool
  /-- bit 1, sticky: some CONFIGURE answered ALLOC_ERROR. -/
  allocErr : Bool
  /-- bit 2, sticky: some command answered NOT_PREPARED. -/
  npErr    : Bool
  /-- bit 3, sticky: some command answered ILLEGAL_COMMAND. -/
  illErr   : Bool
  deriving DecidableEq, Repr

/-- The machine. Registers are those of R33 under their own names; ID, VERSION, CAPACITY and MAX_DELAY are constants
(R36) and hold no storage. -/
structure State where
  /-- DRYWET, index 0x00. -/
  dryWet            : Word
  /-- DEPTH, 0x01. -/
  depth             : Word
  /-- RATE, 0x02. -/
  rate              : Word
  /-- PHASE_OFFSET, 0x03. -/
  phaseOffset       : Word
  /-- FEEDBACK, 0x04. -/
  feedback          : Word
  /-- TYPE, 0x05: the two values it can store. -/
  effectType        : EffectType
  /-- SAMPLE_RATE, 0x08. -/
  sampleRate        : Word
  /-- LENGTH, 0x09. -/
  length            : Word
  /-- STATUS, 0x0A. -/
  status            : Status
  /-- LFO_PHASE, 0x10. -/
  lfoPhase          : Word
  /-- SMOOTH_RATE, 0x11. -/
  smoothRate        : Word
  /-- SMOOTH_DEPTH, 0x12. -/
  smoothDepth       : Word
  /-- SMOOTH_PHASE_OFFSET, 0x13. -/
  smoothPhaseOffset : Word
  /-- FB_L, 0x14. -/
  fbL               : Word
  /-- FB_R, 0x15. -/
  fbR               : Word
  /-- WH_L, 0x16. -/
  whL               : Word
  /-- WH_R, 0x17. -/
  whR               : Word
  /-- BUF_0, the left delay RAM (R41): word `i` is bytes `4i` to `4i+3` (notes/assumptions/6.md). -/
  ramL              : List Host.Cell
  /-- BUF_1, the right delay RAM (R41). -/
  ramR              : List Host.Cell
  /-- The MODEL's own: what the host does from here on, the next event first (notes/assumptions/1.md). -/
  port              : List HostEvent
  /-- The MODEL's own: the responses given, the last one first (notes/assumptions/2.md). -/
  answers           : List Response
  /-- The MODEL's own: the parameters of the implementation (notes/assumptions/4.md). -/
  cfg               : Params
  deriving DecidableEq, Repr

/-- Why the model stops with a fault. -/
inductive Fault where
  /-- A delay-RAM access at an index not below LENGTH, which R71 says no access makes. Raised by `memRead` and
  `memWrite`; SAFE: no state that meets the invariant of R41 reaches it (notes/assumptions/7.md). -/
  | delayRamIndex
  deriving DecidableEq, Repr

/-- Why the model refuses. -/
inductive Refusal where
  /-- An instruction without a meaning. Raised by no arm: every instruction has its meaning. SAFE. -/
  | notModelled (mnemonic : String)
  deriving DecidableEq, Repr

/-- The machine right after reset (R45, R260): every register at the value the spec gives it. The delay RAMs are
unspecified and unreachable while LENGTH is 0, so nothing is listed (notes/assumptions/7.md). -/
def State.reset : State where
  dryWet            := 0#32
  depth             := 0#32
  rate              := 0#32
  phaseOffset       := 0#32
  feedback          := 0#32
  effectType        := .chorus
  sampleRate        := 0#32
  length            := 0#32
  status            := ⟨false, false, false, false⟩
  lfoPhase          := 0#32
  smoothRate        := 0#32
  smoothDepth       := 0#32
  smoothPhaseOffset := 0#32
  fbL               := 0#32
  fbR               := 0#32
  whL               := 0#32
  whR               := 0#32
  ramL              := []
  ramR              := []
  port              := []
  answers           := []
  cfg               := Params.default

end Sys2Proof.Machine
end

