-- ==== Sys2Proof/Machine/Flags.lean ====
section
/-! DEFINITION. The fields of STATUS (spec/10_state.md R35): how the register reads, which bit an error sets, and what a
write clears. KPCF-CORE has no condition-code flags (R32) and records no IEEE 754 exception flag (R235). -/

namespace Sys2Proof.Machine

/-- STATUS as READ_REG returns it (R211): `{28'b0, ILL_ERR, NP_ERR, ALLOC_ERR, READY}`. -/
def Status.word (st : Status) : Word :=
  0#28 ++ BitVec.ofBool st.illErr ++ BitVec.ofBool st.npErr ++ BitVec.ofBool st.allocErr ++ BitVec.ofBool st.ready

/-- The sticky bit that goes with a response code (R230, error table); OK has none. -/
def Status.record (st : Status) (code : RespCode) : Status :=
  match code with
  | .ok => st
  | .illegalCommand => { st with illErr := true }
  | .allocError => { st with allocErr := true }
  | .notPrepared => { st with npErr := true }

/-- WRITE_REG of STATUS (R35, R215): each of bits 1, 2, 3 that `v` has set is cleared; bit 0 and bits 31:4 of
`v` are ignored. -/
def Status.clear (st : Status) (v : Word) : Status :=
  { st with
    allocErr := st.allocErr && !v.getLsbD 1
    npErr := st.npErr && !v.getLsbD 2
    illErr := st.illErr && !v.getLsbD 3 }

end Sys2Proof.Machine
end

