-- ==== Sys2Proof/Machine/Ram.lean ====
section
/-! DEFINITION. One delay RAM as a list of (byte address, byte) cells in canonical form (spec/20_memory.md R70 to R74):
addresses strictly rising, no cell that holds what an unlisted address reads as. notes/assumptions/6.md. -/

namespace Sys2Proof.Machine

/-- What an unlisted byte reads as: a byte of `+0.0`, which CONFIGURE fills every active word with (R43). -/
def unlistedByte : Byte := 0#8

/-- The byte at address `a`. -/
def readByte (m : List Host.Cell) (a : Nat) : Byte :=
  match m with
  | [] => unlistedByte
  | (k, v) :: rest => if k = a then v else readByte rest a

/-- `rest` with the byte `b` at address `a` in front, where `a` lies below every address of `rest`. -/
def consByte (a : Nat) (b : Byte) (rest : List Host.Cell) : List Host.Cell :=
  if b = unlistedByte then rest else (a, b) :: rest

/-- Store the byte `b` at address `a`, keeping the canonical form. -/
def writeByte (m : List Host.Cell) (a : Nat) (b : Byte) : List Host.Cell :=
  match m with
  | [] => consByte a b []
  | (k, v) :: rest =>
    if a < k then consByte a b ((k, v) :: rest)
    else if a = k then consByte a b rest
    else (k, v) :: writeByte rest a b

/-- The canonical form. -/
def ramWf (m : List Host.Cell) : Bool :=
  match m with
  | [] => true
  | (k, v) :: rest => v != unlistedByte && rest.all (fun c => decide (k < c.1)) && ramWf rest

/-- Every listed byte belongs to a word with index below `n`. -/
def ramBelow (n : Nat) (m : List Host.Cell) : Bool := m.all (fun c => decide (c.1 < 4 * n))

/-- The word at index `i` (R71): bytes `4i` (bits 7:0) to `4i+3` (bits 31:24). -/
def readWord (m : List Host.Cell) (i : Nat) : Word :=
  readByte m (4 * i + 3) ++ readByte m (4 * i + 2) ++ readByte m (4 * i + 1) ++ readByte m (4 * i)

/-- Store the word `w` at index `i`: all 32 bits, and nothing else (R71, R74). -/
def writeWord (m : List Host.Cell) (i : Nat) (w : Word) : List Host.Cell :=
  writeByte (writeByte (writeByte (writeByte m (4 * i) (w.extractLsb' 0 8)) (4 * i + 1) (w.extractLsb' 8 8))
    (4 * i + 2) (w.extractLsb' 16 8)) (4 * i + 3) (w.extractLsb' 24 8)

/-- A RAM whose active words are all +0.0 and that holds nothing else (R43, R201). -/
def zeroFilled : List Host.Cell := []

end Sys2Proof.Machine
end

