-- ==== Sys2Proof/Machine/Ops.lean ====
section
/-! DEFINITION. The named operations that the commands share: responses and errors (spec/60_exceptions.md R230 to R234),
per-channel access (spec/10_state.md R41, R42), delay-RAM access (spec/00_scope.md R10), and reset (spec/70_reset_and_hazards.md R260). -/

namespace Sys2Proof.Machine

/-- End the command with a response (R90, R93). -/
def respond (s : State) (code : RespCode) (res0 res1 : Word) : State :=
  { s with answers := ⟨code, res0, res1⟩ :: s.answers }

/-- End the command with OK (R10 `resp <- OK`). -/
def respondOk (s : State) (res0 res1 : Word) : State := respond s .ok res0 res1

/-- The block's one form of taking an error (R10 `raise`, R230): the sticky STATUS bit of the code is set and the
response carries the code; nothing is saved and control goes nowhere (R238). -/
def raiseWith (s : State) (code : RespCode) (res0 res1 : Word) : State :=
  respond { s with status := s.status.record code } code res0 res1

/-- `raise` with both result words 0 (R92). -/
def raise (s : State) (code : RespCode) : State := raiseWith s code 0#32 0#32

/-- A request that spells no command (R96, R231): ILLEGAL_COMMAND, whatever the cause. -/
def rejectRequest (s : State) : State := raise s .illegalCommand

/-- The write head `WH_c` (R41). -/
def State.wh (s : State) (ch : Channel) : Word :=
  match ch with
  | .left => s.whL
  | .right => s.whR

/-- `R[WH_c] <- v`. -/
def State.setWh (s : State) (ch : Channel) (v : Word) : State :=
  match ch with
  | .left => { s with whL := v }
  | .right => { s with whR := v }

/-- The delay RAM `BUF_c` (R41). -/
def State.ram (s : State) (ch : Channel) : List Host.Cell :=
  match ch with
  | .left => s.ramL
  | .right => s.ramR

/-- The delay RAM of the channel replaced. -/
def State.setRam (s : State) (ch : Channel) (m : List Host.Cell) : State :=
  match ch with
  | .left => { s with ramL := m }
  | .right => { s with ramR := m }

/-- The feedback carry `FB_c` (R39). -/
def State.fb (s : State) (ch : Channel) : Word :=
  match ch with
  | .left => s.fbL
  | .right => s.fbR

/-- `MemRead(c, i)` of R10: only words below LENGTH are ever read (R71). -/
def memRead (s : State) (ch : Channel) (i : Nat) : Option Word :=
  if i < s.length.toNat then some (readWord (s.ram ch) i) else none

/-- `MemWrite(c, i, v)` of R10: only words below LENGTH are ever written (R71). -/
def memWrite (s : State) (ch : Channel) (i : Nat) (v : Word) : Option State :=
  if i < s.length.toNat then some (s.setRam ch (writeWord (s.ram ch) i v)) else none

/-- A command whose delay-RAM accesses all lie below LENGTH goes on; one that leaves it faults
(notes/assumptions/7.md). -/
def orRamFault (r : Option State) : Host.Outcome State Fault Refusal :=
  match r with
  | some t => .next t
  | none => .fault .delayRamIndex

/-- A command that needs a prepared block (R233): with READY = 0 it answers NOT_PREPARED with the given result words,
else it goes on as `go`. -/
def ifPrepared (s : State) (res0 res1 : Word) (go : Option State) : Host.Outcome State Fault Refusal :=
  if s.status.ready then orRamFault go else .next (raiseWith s .notPrepared res0 res1)

/-- The reset event (R260): every register at its reset value, no response, the delay RAMs unspecified. What the host
does next, the responses it has had and the parameters are no state of the block (notes/assumptions/12.md). -/
def resetBlock (s : State) : State :=
  { State.reset with port := s.port, answers := s.answers, cfg := s.cfg }

end Sys2Proof.Machine
end

