-- ==== Sys2Proof/Machine/Operands.lean ====
section
/-! DEFINITION. The register map (spec/10_state.md R33) and what an access to a register reads and writes
(spec/42_host_interface.md R211, R215). -/

namespace Sys2Proof.Machine

/-- The defined registers, in the order of R33. -/
inductive Reg where
  | dryWet | depth | rate | phaseOffset | feedback | effectType
  | sampleRate | length | status | id | version | capacity | maxDelay
  | lfoPhase | smoothRate | smoothDepth | smoothPhaseOffset | fbL | fbR | whL | whR
  deriving DecidableEq, Repr

/-- The access column of R33. -/
inductive Access where
  | rw
  | ro
  | roConstant
  deriving DecidableEq, Repr

/-- The register at an index, none where R33 reserves the index. -/
def Reg.ofIndex (index : Byte) : Option Reg :=
  match index.toNat with
  | 0x00 => some .dryWet
  | 0x01 => some .depth
  | 0x02 => some .rate
  | 0x03 => some .phaseOffset
  | 0x04 => some .feedback
  | 0x05 => some .effectType
  | 0x08 => some .sampleRate
  | 0x09 => some .length
  | 0x0A => some .status
  | 0x0B => some .id
  | 0x0C => some .version
  | 0x0D => some .capacity
  | 0x0E => some .maxDelay
  | 0x10 => some .lfoPhase
  | 0x11 => some .smoothRate
  | 0x12 => some .smoothDepth
  | 0x13 => some .smoothPhaseOffset
  | 0x14 => some .fbL
  | 0x15 => some .fbR
  | 0x16 => some .whL
  | 0x17 => some .whR
  | _ => none

/-- The index of a register (R33). -/
def Reg.index (r : Reg) : Byte :=
  match r with
  | .dryWet => 0x00#8
  | .depth => 0x01#8
  | .rate => 0x02#8
  | .phaseOffset => 0x03#8
  | .feedback => 0x04#8
  | .effectType => 0x05#8
  | .sampleRate => 0x08#8
  | .length => 0x09#8
  | .status => 0x0A#8
  | .id => 0x0B#8
  | .version => 0x0C#8
  | .capacity => 0x0D#8
  | .maxDelay => 0x0E#8
  | .lfoPhase => 0x10#8
  | .smoothRate => 0x11#8
  | .smoothDepth => 0x12#8
  | .smoothPhaseOffset => 0x13#8
  | .fbL => 0x14#8
  | .fbR => 0x15#8
  | .whL => 0x16#8
  | .whR => 0x17#8

/-- The access right of a register (R33). -/
def Reg.access (r : Reg) : Access :=
  match r with
  | .dryWet | .depth | .rate | .phaseOffset | .feedback | .effectType | .status => .rw
  | .id | .version | .capacity | .maxDelay => .roConstant
  | .sampleRate | .length | .lfoPhase | .smoothRate | .smoothDepth | .smoothPhaseOffset | .fbL | .fbR | .whL | .whR => .ro

/-- TYPE as u32 (R34). -/
def typeWord (t : EffectType) : Word :=
  match t with
  | .chorus => 0#32
  | .flanger => 1#32

/-- What a write of `v` to TYPE stores (R34, R215): `(v != 0) ? 1 : 0`. -/
def typeOfWord (v : Word) : EffectType := if v = 0#32 then .chorus else .flanger

/-- `RegValue` of R211. -/
def regValue (s : State) (r : Reg) : Word :=
  match r with
  | .dryWet => s.dryWet
  | .depth => s.depth
  | .rate => s.rate
  | .phaseOffset => s.phaseOffset
  | .feedback => s.feedback
  | .effectType => typeWord s.effectType
  | .sampleRate => s.sampleRate
  | .length => s.length
  | .status => s.status.word
  | .id => idValue
  | .version => versionValue
  | .capacity => s.cfg.bufCapacity
  | .maxDelay => s.cfg.maxDelaySeconds
  | .lfoPhase => s.lfoPhase
  | .smoothRate => s.smoothRate
  | .smoothDepth => s.smoothDepth
  | .smoothPhaseOffset => s.smoothPhaseOffset
  | .fbL => s.fbL
  | .fbR => s.fbR
  | .whL => s.whL
  | .whR => s.whR

/-- `RegWrite` of R215; a register that is not RW is not written (R213, R214: the command answers ILLEGAL_COMMAND). -/
def regWrite (s : State) (r : Reg) (v : Word) : State :=
  match r with
  | .dryWet => { s with dryWet := v }
  | .depth => { s with depth := v }
  | .rate => { s with rate := v }
  | .phaseOffset => { s with phaseOffset := v }
  | .feedback => { s with feedback := v }
  | .effectType => { s with effectType := typeOfWord v }
  | .status => { s with status := s.status.clear v }
  | .sampleRate | .length | .id | .version | .capacity | .maxDelay | .lfoPhase | .smoothRate | .smoothDepth
  | .smoothPhaseOffset | .fbL | .fbR | .whL | .whR => s

end Sys2Proof.Machine
end

