-- ==== Sys2Proof/Machine/HostInterface.lean ====
section
/-! DEFINITION. The host interface commands (spec/42_host_interface.md R200 to R215): NOP, CONFIGURE, READ_REG and
WRITE_REG. -/

namespace Sys2Proof.Machine

/-- NOP (R200). -/
def execNop (s : State) : Host.Outcome State Fault Refusal := .next (respondOk s 0#32 0#32)

/-- The sample rate is one CONFIGURE accepts (R201 `ok`, R203): finite, above zero, its product with
MAX_DELAY_SECONDS not infinite. -/
def rateAccepted (p : Params) (sr : Word) : Bool :=
  !isNaN sr && !isInf sr && flt ZERO sr && !isInf (fmul sr p.maxDelaySeconds)

/-- The length in words that CONFIGURE asks for (R201 `n`, R202): the product rounded once, then its floor; 0 for a
rate that is not accepted. -/
def requestedLength (p : Params) (sr : Word) : Nat :=
  if rateAccepted p sr then (floorReal (fmul sr p.maxDelaySeconds)).toNat else 0

/-- The engine state and the write heads reinitialised, the delay RAMs released, whatever the outcome (R204, R205). -/
def releaseEngine (s : State) : State :=
  { s with
    lfoPhase := ZERO
    smoothRate := ZERO
    smoothDepth := ZERO
    smoothPhaseOffset := ZERO
    fbL := ZERO
    fbR := ZERO
    whL := 0#32
    whR := 0#32
    ramL := zeroFilled
    ramR := zeroFilled }

/-- The delay lines could not be set up (R204). -/
def configureFailed (s : State) : State :=
  raise
    { releaseEngine s with length := 0#32, sampleRate := ZERO, status := { s.status with ready := false } }
    .allocError

/-- The delay lines are set up with `n` zero-filled words each (R205). -/
def configureDone (s : State) (sr : Word) (n : Nat) : State :=
  respondOk
    { releaseEngine s with length := BitVec.ofNat 32 n, sampleRate := sr, status := { s.status with ready := true } }
    0#32 0#32

/-- CONFIGURE (R201). -/
def execConfigure (sampleRate : Word) (s : State) : Host.Outcome State Fault Refusal :=
  if requestedLength s.cfg sampleRate < 1 ∨ s.cfg.bufCapacity.toNat < requestedLength s.cfg sampleRate then
    .next (configureFailed s)
  else .next (configureDone s sampleRate (requestedLength s.cfg sampleRate))

/-- READ_REG (R210, R212). -/
def execReadReg (index : Byte) (s : State) : Host.Outcome State Fault Refusal :=
  match Reg.ofIndex index with
  | some r => .next (respondOk s (regValue s r) 0#32)
  | none => .next (raise s .illegalCommand)

/-- WRITE_REG (R213, R214). -/
def execWriteReg (index : Byte) (value : Word) (s : State) : Host.Outcome State Fault Refusal :=
  match Reg.ofIndex index with
  | some r => if r.access = .rw then .next (respondOk (regWrite s r value) 0#32 0#32) else .next (raise s .illegalCommand)
  | none => .next (raise s .illegalCommand)

end Sys2Proof.Machine
end

