-- ==== Sys2Proof/Machine/DelayLine.lean ====
section
/-! DEFINITION. The delay line (spec/40_delay_line.md R120 to R126): the primitives WriteAndAdvance and ReadInterpolated,
and the commands DL_WRITE and DL_READ. -/

namespace Sys2Proof.Machine

/-- The head after a write at `w` with length `len` (R120). -/
def nextHead (len w : Word) : Word := if w.toNat + 1 = len.toNat then 0#32 else w + 1#32

/-- `WriteAndAdvance(c, v)` of R120. -/
def writeAndAdvance (s : State) (ch : Channel) (v : Word) : Option State :=
  match memWrite s ch (s.wh ch).toNat v with
  | some t => some (t.setWh ch (nextHead s.length (s.wh ch)))
  | none => none

/-- The read position of R121: `w - d`, wrapped once by `+ L` when it is negative. -/
def readPosition (len w d : Word) : Word :=
  if flt (fsub (i2f w.toNat) d) ZERO then fadd (fsub (i2f w.toNat) d) (i2f len.toNat) else fsub (i2f w.toNat) d

/-- The fraction `f` of R122 before the guard: `rnd(real(rp) - floor(real(rp)))`. -/
def rawFraction (rp : Word) : Word := rnd false (units rp - (unitsPerOne : Int) * floorReal rp).toNat 1

/-- The index split of R122: the index `x`, and the fraction `f`. -/
def splitPosition (len rp : Word) : Nat × Word :=
  if isNaN rp || isInf rp then (0, ZERO)
  else if rawFraction rp = ONE then (((floorReal rp + 1) % (len.toNat : Int)).toNat, ZERO)
  else ((floorReal rp % (len.toNat : Int)).toNat, rawFraction rp)

/-- The interpolation of R123: `(1 - f) * b0 + f * b1` with its four roundings. -/
def interpolate (f b0 b1 : Word) : Word := fadd (fmul (fsub ONE f) b0) (fmul f b1)

/-- The two words at `x` and `x + 1`, wrapped modulo the length (R122), interpolated. -/
def readBetween (s : State) (ch : Channel) (x : Nat) (f : Word) : Option Word :=
  match memRead s ch x, memRead s ch ((x + 1) % s.length.toNat) with
  | some b0, some b1 => some (interpolate f b0 b1)
  | _, _ => none

/-- Where `ReadInterpolated(c, d)` reads: the index split of its read position (R121, R122). -/
def readPoint (s : State) (ch : Channel) (d : Word) : Nat × Word :=
  splitPosition s.length (readPosition s.length (s.wh ch) d)

/-- `ReadInterpolated(c, d)` of R121 to R123. -/
def readInterpolated (s : State) (ch : Channel) (d : Word) : Option Word :=
  readBetween s ch (readPoint s ch d).1 (readPoint s ch d).2

/-- DL_WRITE (R125). -/
def execDlWrite (ch : Channel) (sample : Word) (s : State) : Host.Outcome State Fault Refusal :=
  ifPrepared s 0#32 0#32 ((writeAndAdvance s ch sample).map (fun t => respondOk t 0#32 0#32))

/-- DL_READ (R126). -/
def execDlRead (ch : Channel) (delay : Word) (s : State) : Host.Outcome State Fault Refusal :=
  ifPrepared s 0#32 0#32 ((readInterpolated s ch delay).map (fun y => respondOk s y 0#32))

end Sys2Proof.Machine
end

