-- ==== Sys2Proof/Machine/Sine.lean ====
section
/-! DEFINITION. `LFO_SINE` (spec/00_scope.md R6, R7): the correctly rounded sine of a phase in cycles, computed from
exact rational bounds that are refined until both round alike, and the choice of another function.
notes/assumptions/5.md. -/

namespace Sys2Proof.Machine

/-- The sum of the first `2 * pairs` terms of the alternating series `a 0 - a 1 + a 2 - …`. -/
def alternating (a : Nat → ℚ) (pairs : Nat) : ℚ :=
  match pairs with
  | 0 => 0
  | n + 1 => alternating a n + (a (2 * n) - a (2 * n + 1))

/-- The terms of the series of `arctan (1/q)`. -/
def arctanTerm (q k : Nat) : ℚ := 1 / ((2 * k + 1) * q ^ (2 * k + 1) : Nat)

/-- A rational below π: `16 arctan(1/5) - 4 arctan(1/239)`, each series cut where that lowers the difference. -/
def piBelow (pairs : Nat) : ℚ :=
  16 * alternating (arctanTerm 5) pairs - 4 * (alternating (arctanTerm 239) pairs + arctanTerm 239 (2 * pairs))

/-- A rational above π. -/
def piAbove (pairs : Nat) : ℚ :=
  16 * (alternating (arctanTerm 5) pairs + arctanTerm 5 (2 * pairs)) - 4 * alternating (arctanTerm 239) pairs

/-- The terms of the series of `sin x`. -/
def sinTerm (x : ℚ) (k : Nat) : ℚ := x ^ (2 * k + 1) / (2 * k + 1).factorial

/-- `2 t / 2^149`: the angle of `t` units of a cycle is this many times π. -/
def halfTurns (t : Nat) : ℚ := t / (2 ^ 148 : Nat)

/-- The angle of `t` units of a cycle, with a rational below π in its place. -/
def angleBelow (n t : Nat) : ℚ := piBelow (2 * n) * halfTurns t

/-- A rational below the sine of `t` units of a cycle, for `t` up to a quarter: the sharper, the larger `n`. -/
def sinBelow (n t : Nat) : ℚ := alternating (sinTerm (angleBelow n t)) n

/-- A rational above the sine of `t` units of a cycle: one more term, and the most that the sine can grow from the
angle's lower bound to the angle. -/
def sinAbove (n t : Nat) : ℚ :=
  sinBelow n t + sinTerm (angleBelow n t) (2 * n) + (piAbove (2 * n) - piBelow (2 * n)) * halfTurns t

/-- `|v|` rounded to binary32 with the given sign (R11 `rnd`). -/
def rndRat (neg : Bool) (v : ℚ) : Word := rnd neg (unitsPerOne * v.num.natAbs) v.den

/-- The sine of `t` units of a cycle rounded to binary32: the bounds are refined until they round alike. The fuel is no
limit: by `sinBounds_round_alike` of Laws/SineSeparation.lean, bounds as sharp as the last that enclose the sine round
alike for every `t`. -/
def sinRefine (neg : Bool) (t fuel n : Nat) : Word :=
  match fuel with
  | 0 => rndRat neg (sinBelow n t)
  | fuel + 1 =>
    if rndRat neg (sinBelow n t) = rndRat neg (sinAbove n t) then rndRat neg (sinBelow n t)
    else sinRefine neg t fuel (2 * n)

/-- `rnd(sin(2π t))` for `t` units strictly between 0 and a quarter, with the given sign. -/
def sinQuarter (neg : Bool) (t : Nat) : Word := sinRefine neg t 160 8

/-- The phase in units folded into the first quarter cycle: `sin` of it is `|sin|` of the phase. -/
def foldQuarter (m : Nat) : Nat :=
  if m % 2 ^ 148 ≤ 2 ^ 147 then m % 2 ^ 148 else 2 ^ 148 - m % 2 ^ 148

/-- Whether `m` units of phase lie in the second half of a cycle, where the sine is negative. -/
def secondHalf (m : Nat) : Bool := m / 2 ^ 148 % 2 == 1

/-- The default `LFO_SINE` of R7. -/
def sinCycles (p : Word) : Word :=
  if isNaN p || isInf p then QNAN
  else if magUnits p = 0 then p
  else if foldQuarter (magUnits p) = 0 then ZERO
  else if foldQuarter (magUnits p) = 2 ^ 147 then packSign (signBit p != secondHalf (magUnits p)) 0x3F800000
  else sinQuarter (signBit p != secondHalf (magUnits p)) (foldQuarter (magUnits p))

/-- `LFO_SINE` (R6): the function that the parameters choose. -/
def lfoSine (u : SineUnit) (p : Word) : Word :=
  match u with
  | .correctlyRounded => sinCycles p
  | .implementation n => Config.lfoSineOf n p

end Sys2Proof.Machine
end

