-- ==== Sys2Proof/Machine/Modulation.lean ====
section
/-! DEFINITION. The modulation engine (spec/41_modulation.md R150 to R172): the primitives Smooth and MapDelay, and the
command PROCESS_FRAME. Local names are those of the pseudocode of R150. -/

namespace Sys2Proof.Machine

/-- `Smooth(s, t)` of R153. -/
def smooth (coef s t : Word) : Word := fadd s (fmul coef (fsub t s))

/-- The one conditional subtraction of a phase (R155, R156). -/
def wrapPhase (p : Word) : Word := if fge p ONE then fsub p ONE else p

/-- `MapDelay(v, lo, hi)` of R158. -/
def mapDelay (v lo hi : Word) : Word := fadd lo (fdiv (fmul (fsub hi lo) (fadd v ONE)) TWO)

/-- The delay range that TYPE selects, in seconds (R158, R164). -/
def delayRange (ty : EffectType) : Word × Word :=
  match ty with
  | .chorus => (CHORUS_LO, CHORUS_HI)
  | .flanger => (FLANGER_LO, FLANGER_HI)

/-- The delay in samples of one depth-scaled LFO output (S6, R158). -/
def delaySamples (ty : EffectType) (sr v : Word) : Word :=
  fmul (mapDelay v (delayRange ty).1 (delayRange ty).2) sr

/-- The dry/wet mix of one channel (S9, R161). -/
def mix (dw input wet : Word) : Word := fadd (fmul input (fsub ONE dw)) (fmul wet dw)

/-- What steps S2 to S6 of a frame compute from the state before the frame. -/
structure Modulation where
  /-- SMOOTH_PHASE_OFFSET after the frame (S3). -/
  spo   : Word
  /-- SMOOTH_RATE after the frame (S4). -/
  srate : Word
  /-- LFO_PHASE after the frame (S4). -/
  phase : Word
  /-- SMOOTH_DEPTH after the frame (S5). -/
  sdep  : Word
  /-- The left delay in samples (S6). -/
  dL    : Word
  /-- The right delay in samples (S6). -/
  dR    : Word
  deriving DecidableEq, Repr

/-- Steps S2 to S6 of R150. The LFO outputs use the phase before its advance (R154, R155); each smoothed value is used
after its update (R264). -/
def modulate (s : State) : Modulation :=
  let lfoL := lfoSine s.cfg.lfoSine s.lfoPhase
  let spo := smooth s.cfg.smoothCoef s.smoothPhaseOffset s.phaseOffset
  let lfoR := lfoSine s.cfg.lfoSine (wrapPhase (fadd s.lfoPhase spo))
  let srate := smooth s.cfg.smoothCoef s.smoothRate s.rate
  let phase := wrapPhase (fadd s.lfoPhase (fdiv srate s.sampleRate))
  let sdep := smooth s.cfg.smoothCoef s.smoothDepth s.depth
  let dL := delaySamples s.effectType s.sampleRate (fmul lfoL sdep)
  let dR := delaySamples s.effectType s.sampleRate (fmul lfoR sdep)
  ⟨spo, srate, phase, sdep, dL, dR⟩

/-- Step S1 of R150 (R152): input plus carry into both delay lines, left before right. -/
def frameWrite (s : State) (inL inR : Word) : Option State :=
  match writeAndAdvance s .left (fadd inL s.fbL) with
  | some t => writeAndAdvance t .right (fadd inR s.fbR)
  | none => none

/-- The registers that steps S3 to S5 and S8 leave (R155 to R157, R160), given the wet samples of S7. -/
def frameRegisters (t : State) (m : Modulation) (yL yR : Word) : State :=
  { t with
    smoothPhaseOffset := m.spo
    smoothRate := m.srate
    lfoPhase := m.phase
    smoothDepth := m.sdep
    fbL := fmul yL t.feedback
    fbR := fmul yR t.feedback }

/-- The end of a frame: the registers of S3 to S5 and S8, and the two mixed outputs of S9. The mix uses the operand,
not the word written in S1, and DRYWET as it stood before the frame (R161, R163). -/
def frameFinish (s t : State) (inL inR yL yR : Word) : State :=
  respondOk (frameRegisters t (modulate s) yL yR) (mix s.dryWet inL yL) (mix s.dryWet inR yR)

/-- S7 and what follows it, with `t` the state that S1 left: the reads follow the frame's own write (R159, R264). -/
def frameRead (s t : State) (inL inR : Word) : Option State :=
  match readInterpolated t .left (modulate s).dL, readInterpolated t .right (modulate s).dR with
  | some yL, some yR => some (frameFinish s t inL inR yL yR)
  | _, _ => none

/-- A frame of a prepared block: S1 to S9 of R150. -/
def frame (s : State) (inL inR : Word) : Option State :=
  match frameWrite s inL inR with
  | some t => frameRead s t inL inR
  | none => none

/-- PROCESS_FRAME (R150, R151): unprepared, it passes its inputs through with NOT_PREPARED. -/
def execProcessFrame (inL inR : Word) (s : State) : Host.Outcome State Fault Refusal :=
  ifPrepared s inL inR (frame s inL inR)

end Sys2Proof.Machine
end

