-- ==== Sys2Proof/Machine/Dispatch.lean ====
section
/-! DEFINITION. Which meaning each instruction has (spec/30_encoding.md R94). -/

namespace Sys2Proof.Machine

def exec (i : Instr) (s : State) : Host.Outcome State Fault Refusal :=
  match i with
  | .nop => Sys2Proof.Machine.execNop s
  | .configure sampleRate => Sys2Proof.Machine.execConfigure sampleRate s
  | .writeReg index value => Sys2Proof.Machine.execWriteReg index value s
  | .readReg index => Sys2Proof.Machine.execReadReg index s
  | .processFrame inL inR => Sys2Proof.Machine.execProcessFrame inL inR s
  | .dlWrite ch sample => Sys2Proof.Machine.execDlWrite ch sample s
  | .dlRead ch delay => Sys2Proof.Machine.execDlRead ch delay s

end Sys2Proof.Machine
end

