-- ==== Sys2Proof/Machine/Step.lean ====
section
/-! DEFINITION. One step of the machine: the host's next event (spec/70_reset_and_hazards.md R260, R263, R270). -/

namespace Sys2Proof.Machine

/-- The host's first event is taken: nothing while it issues none (R246, R261); reset (R260); a request, which is
decoded first (R234) and then executed, or answered ILLEGAL_COMMAND (R96). -/
def step (s : State) : Host.Outcome State Fault Refusal :=
  match s.port with
  | [] => .next s
  | .reset :: rest => .next (resetBlock { s with port := rest })
  | .request r :: rest =>
    match decode r with
    | .command i => exec i { s with port := rest }
    | .illegal _ => .next (rejectRequest { s with port := rest })

/-- The state in which the host issues the instruction word `w` next (notes/assumptions/1.md). -/
def State.withFetchWord (s : State) (nbits w : Nat) : State :=
  { s with port := .request (requestOfNat nbits w) :: s.port }

end Sys2Proof.Machine
end

