-- ==== Sys2Proof/Machine/Instances.lean ====
section
/-! DEFINITION. Several instances of the block (spec/20_memory.md R86, spec/60_exceptions.md R244): the product of
independent machines. -/

namespace Sys2Proof.Machine

/-- One step of instance `n`: every other instance keeps its state. -/
def stepInstance (n : Nat) (all : List State) : Host.Outcome (List State) Fault Refusal :=
  match all[n]? with
  | none => .next all
  | some s =>
    match step s with
    | .next t => .next (all.set n t)
    | .fault r => .fault r
    | .refused r => .refused r

end Sys2Proof.Machine
end

