-- ==== Sys2Proof/WellFormed.lean ====
section
/-! DEFINITION. What is well formed: a request whose command word matches a row of the opcode table (spec/30_encoding.md
R94, spec/opcode_table.json), and parameters inside the legal values of spec/00_scope.md R6. A term of Instr needs no
check: its fields' types hold exactly the values its encoding admits (8-bit register index, two channels, 32-bit
operands). -/

namespace Sys2Proof

/-- One row of the opcode table: a command word `w` is the row's when `w &&& mask = pattern`. -/
structure OpcodeRow where
  mnemonic : String
  pattern  : Word
  mask     : Word
  deriving DecidableEq, Repr

/-- The opcode table, R94. -/
def opcodeRows : List OpcodeRow := [
  ⟨"NOP", 0x00000000#32, 0xFFFFFFFF#32⟩,
  ⟨"CONFIGURE", 0x01000000#32, 0xFFFFFFFF#32⟩,
  ⟨"WRITE_REG", 0x02000000#32, 0xFF00FFFF#32⟩,
  ⟨"READ_REG", 0x03000000#32, 0xFF00FFFF#32⟩,
  ⟨"PROCESS_FRAME", 0x10000000#32, 0xFFFFFFFF#32⟩,
  ⟨"DL_WRITE", 0x20000000#32, 0xFFFEFFFF#32⟩,
  ⟨"DL_READ", 0x21000000#32, 0xFFFEFFFF#32⟩]

/-- The command word `w` has the row's fixed bits. -/
def OpcodeRow.covers (row : OpcodeRow) (w : Word) : Bool := w &&& row.mask == row.pattern

/-- A request spells a command (R94 to R96): its command word matches a row; operand words are free. -/
def Request.wellFormed (r : Request) : Bool := opcodeRows.any (fun row => row.covers r.cmd)

open Machine in
/-- The legal values of the parameters (R6): 1 ≤ BUF_CAPACITY ≤ 2^24, MAX_DELAY_SECONDS finite and above 0,
SMOOTH_COEF finite and in (0, 1]. -/
def Params.legal (p : Params) : Bool :=
  decide (1 ≤ p.bufCapacity.toNat) && decide (p.bufCapacity.toNat ≤ 2 ^ 24)
    && (flt ZERO p.maxDelaySeconds && !isInf p.maxDelaySeconds)
    && (flt ZERO p.smoothCoef && fge ONE p.smoothCoef)

end Sys2Proof
end

