-- ==== Sys2Proof/Safety.lean ====
section
/-! DEFINITION. What a good state and a safe step are (spec/10_state.md R41, R43, R45; spec/60_exceptions.md R235, R236). -/

namespace Sys2Proof.Machine

/-- A ready block (R41, R202, R203): LENGTH is the length that the configured rate asks for, it fits the RAM, and both
write heads lie below it. -/
abbrev State.Prepared (s : State) : Prop :=
  s.length.toNat = requestedLength s.cfg s.sampleRate
    ∧ 1 ≤ s.length.toNat ∧ s.length.toNat ≤ s.cfg.bufCapacity.toNat
    ∧ s.whL.toNat < s.length.toNat ∧ s.whR.toNat < s.length.toNat

/-- A block that is not ready holds what reset or a failing CONFIGURE left (R45, R204). -/
abbrev State.Released (s : State) : Prop :=
  s.length = 0#32 ∧ s.sampleRate = ZERO ∧ s.lfoPhase = ZERO ∧ s.smoothRate = ZERO ∧ s.smoothDepth = ZERO
    ∧ s.smoothPhaseOffset = ZERO ∧ s.fbL = ZERO ∧ s.fbR = ZERO ∧ s.whL = 0#32 ∧ s.whR = 0#32

/-- Both delay RAMs are in canonical form and list only words below LENGTH. -/
abbrev State.RamGood (s : State) : Prop :=
  ramWf s.ramL = true ∧ ramWf s.ramR = true
    ∧ ramBelow s.length.toNat s.ramL = true ∧ ramBelow s.length.toNat s.ramR = true

/-- The invariant of the machine. -/
abbrev State.Inv (s : State) : Prop :=
  s.cfg.legal = true ∧ s.RamGood ∧ (s.status.ready = true → s.Prepared) ∧ (s.status.ready = false → s.Released)

/-- The step neither faults nor refuses (R235, R236). -/
abbrev State.Safe (s : State) : Prop := ∃ t, step s = .next t

end Sys2Proof.Machine
end

