-- ==== Sys2Proof/Certificates/Slice0/Obligations.lean ====
section
/-! DEFINITION. The statements about KPCF-CORE that the provers are asked to settle. Response words, register updates and
the formulas of a rule are written out here, not taken from the meaning that is stated about. -/

open Sys2Proof Sys2Proof.Machine

/-! ### Encoding -/

/-- R92, R94, R95: decoding the words of any instruction gives the instruction back, with every operand at every value. -/
def Obligations.DecodeOfEncodeIsIdentity : Prop :=
  ∀ i : Instr, decode (encode i) = .command i

/-- R95: the positive and the negative half of `decode(CMD)`, on the fields of R91 written as bit extractions. -/
def Obligations.DecodeFollowsTheOpcodeMap : Prop :=
  ∀ cmd op0 op1 : Word,
    let opc := cmd.extractLsb' 24 8
    let arg := cmd.extractLsb' 16 8
    let answer := decode ⟨cmd, op0, op1⟩
    (cmd.extractLsb' 0 16 = 0#16 →
      (opc = 0x00#8 → arg = 0#8 → answer = .command .nop)
      ∧ (opc = 0x01#8 → arg = 0#8 → answer = .command (.configure op0))
      ∧ (opc = 0x02#8 → answer = .command (.writeReg arg op0))
      ∧ (opc = 0x03#8 → answer = .command (.readReg arg))
      ∧ (opc = 0x10#8 → arg = 0#8 → answer = .command (.processFrame op0 op1))
      ∧ (opc = 0x20#8 → arg = 0#8 → answer = .command (.dlWrite .left op0))
      ∧ (opc = 0x20#8 → arg = 1#8 → answer = .command (.dlWrite .right op0))
      ∧ (opc = 0x21#8 → arg = 0#8 → answer = .command (.dlRead .left op0))
      ∧ (opc = 0x21#8 → arg = 1#8 → answer = .command (.dlRead .right op0)))
    ∧ (cmd.extractLsb' 0 16 ≠ 0#16
        ∨ opc ∉ [0x00#8, 0x01#8, 0x02#8, 0x03#8, 0x10#8, 0x20#8, 0x21#8]
        ∨ (opc ∈ [0x00#8, 0x01#8, 0x10#8] ∧ arg ≠ 0#8)
        ∨ (opc ∈ [0x20#8, 0x21#8] ∧ 2 ≤ arg.toNat) →
      ∃ why, answer = .illegal why)

/-- R94: a request decodes to a command exactly when its command word matches a row of the opcode table. -/
def Obligations.DecodesExactlyTheTableRows : Prop :=
  ∀ r : Request, (∃ i, decode r = .command i) ↔ r.wellFormed = true

/-- R94, R95: no bit of the command word is dropped: what decodes encodes to the same command word. -/
def Obligations.EncodeRecoversTheCommandWord : Prop :=
  ∀ (r : Request) (i : Instr), decode r = .command i → (encode i).cmd = r.cmd

/-- A few command words written out from R94 and R100 decode to their commands. -/
def Obligations.SampleWordsDecode : Prop :=
  decode ⟨0x01000000#32, 0x473B8000#32, 0#32⟩ = .command (.configure 0x473B8000#32)
    ∧ decode ⟨0x02050000#32, 1#32, 0#32⟩ = .command (.writeReg 0x05#8 1#32)
    ∧ decode ⟨0x030A0000#32, 0#32, 0#32⟩ = .command (.readReg 0x0A#8)
    ∧ decode ⟨0x10000000#32, 0x3F800000#32, 0xBF800000#32⟩ = .command (.processFrame 0x3F800000#32 0xBF800000#32)
    ∧ decode ⟨0x20010000#32, 0x3E800000#32, 0#32⟩ = .command (.dlWrite .right 0x3E800000#32)
    ∧ decode ⟨0x21000000#32, 0x40200000#32, 0#32⟩ = .command (.dlRead .left 0x40200000#32)

/-- R73: byte 0 on the bus is bits 7:0 of a word; the order of the three words is the model's choice
(notes/assumptions/19.md). -/
def Obligations.TransportBytesRoundTrip : Prop :=
  ∀ r : Request, r.toBytes.length = 12 ∧ Request.ofBytes r.toBytes = some r
    ∧ r.toBytes[0]? = some (r.cmd.extractLsb' 0 8) ∧ r.toBytes[3]? = some (r.cmd.extractLsb' 24 8)

/-! ### The step -/

/-- R90, R263: the first request of the host, when it decodes, is executed with the rest of the host's events kept;
where the host's sequence stands is the model's choice (notes/assumptions/1.md). -/
def Obligations.StepRunsTheDecodedCommand : Prop :=
  ∀ (s : State) (r : Request) (rest : List HostEvent) (i : Instr),
    s.port = .request r :: rest → decode r = .command i → step s = exec i { s with port := rest }

/-- R96: an illegal command word is answered ILLEGAL_COMMAND, whether or not the block is ready. -/
def Obligations.IllegalCommandWordIsAnswered : Prop :=
  ∀ (s : State) (r : Request) (rest : List HostEvent), s.port = .request r :: rest →
    let opc := r.cmd.extractLsb' 24 8
    let arg := r.cmd.extractLsb' 16 8
    (r.cmd.extractLsb' 0 16 ≠ 0#16
        ∨ opc ∉ [0x00#8, 0x01#8, 0x02#8, 0x03#8, 0x10#8, 0x20#8, 0x21#8]
        ∨ (opc ∈ [0x00#8, 0x01#8, 0x10#8] ∧ arg ≠ 0#8)
        ∨ (opc ∈ [0x20#8, 0x21#8] ∧ 2 ≤ arg.toNat)) →
      step s = .next { s with
        port := rest
        status := { s.status with illErr := true }
        answers := ⟨.illegalCommand, 0#32, 0#32⟩ :: s.answers }

/-- R246, R261: with no request the block holds all of its state (log 3: the model's reading of an idle step). -/
def Obligations.IdleStepHoldsTheState : Prop :=
  ∀ s : State, s.port = [] → step s = .next s

/-- R260: the reset event sets every register to its reset value, answers nothing, and leaves the block not ready. That
the host's events, the record of responses and the parameters stand is the model's choice (notes/assumptions/12.md). -/
def Obligations.ResetEventResetsTheBlock : Prop :=
  ∀ (s : State) (rest : List HostEvent), s.port = .reset :: rest →
    ∃ t, step s = .next t ∧ t.answers = s.answers ∧ t.port = rest ∧ t.cfg = s.cfg
      ∧ (∀ r : Reg, r ≠ .id → r ≠ .version → r ≠ .capacity → r ≠ .maxDelay → regValue t r = 0#32)
      ∧ regValue t .id = 0x4B504346#32 ∧ regValue t .version = 0x00010000#32
      ∧ regValue t .capacity = s.cfg.bufCapacity ∧ regValue t .maxDelay = s.cfg.maxDelaySeconds
      ∧ (∀ ch i, memRead t ch i = none)

/-- R33, R36, R45: READ_REG of every defined index right after reset, with the default parameters of R6. -/
def Obligations.ResetRegisterValues : Prop :=
  (∀ index : Byte, index ∈ [0x00#8, 0x01#8, 0x02#8, 0x03#8, 0x04#8, 0x05#8, 0x08#8, 0x09#8, 0x0A#8, 0x10#8, 0x11#8,
      0x12#8, 0x13#8, 0x14#8, 0x15#8, 0x16#8, 0x17#8] →
    exec (.readReg index) State.reset = .next { State.reset with answers := [⟨.ok, 0#32, 0#32⟩] })
  ∧ exec (.readReg 0x0B#8) State.reset = .next { State.reset with answers := [⟨.ok, 0x4B504346#32, 0#32⟩] }
  ∧ exec (.readReg 0x0C#8) State.reset = .next { State.reset with answers := [⟨.ok, 0x00010000#32, 0#32⟩] }
  ∧ exec (.readReg 0x0D#8) State.reset = .next { State.reset with answers := [⟨.ok, 0x00080000#32, 0#32⟩] }
  ∧ exec (.readReg 0x0E#8) State.reset = .next { State.reset with answers := [⟨.ok, 0x40000000#32, 0#32⟩] }

/-! ### The host interface commands -/

/-- R200: NOP answers OK 0 0 in every state and reads and writes nothing else. -/
def Obligations.NopAnswersOk : Prop :=
  ∀ s : State, exec .nop s = .next { s with answers := ⟨.ok, 0#32, 0#32⟩ :: s.answers }

/-- R211: what READ_REG returns for each defined index, in every state, changing nothing else. -/
def Obligations.ReadRegReturnsRegValue : Prop :=
  ∀ s : State,
    let reads := fun (index : Byte) (v : Word) =>
      exec (.readReg index) s = .next { s with answers := ⟨.ok, v, 0#32⟩ :: s.answers }
    reads 0x00#8 s.dryWet ∧ reads 0x01#8 s.depth ∧ reads 0x02#8 s.rate ∧ reads 0x03#8 s.phaseOffset
      ∧ reads 0x04#8 s.feedback ∧ reads 0x05#8 (if s.effectType = .chorus then 0#32 else 1#32)
      ∧ reads 0x08#8 s.sampleRate ∧ reads 0x09#8 s.length
      ∧ reads 0x0A#8 (0#28 ++ BitVec.ofBool s.status.illErr ++ BitVec.ofBool s.status.npErr
          ++ BitVec.ofBool s.status.allocErr ++ BitVec.ofBool s.status.ready)
      ∧ reads 0x0B#8 0x4B504346#32 ∧ reads 0x0C#8 0x00010000#32 ∧ reads 0x0D#8 s.cfg.bufCapacity
      ∧ reads 0x0E#8 s.cfg.maxDelaySeconds ∧ reads 0x10#8 s.lfoPhase ∧ reads 0x11#8 s.smoothRate
      ∧ reads 0x12#8 s.smoothDepth ∧ reads 0x13#8 s.smoothPhaseOffset ∧ reads 0x14#8 s.fbL ∧ reads 0x15#8 s.fbR
      ∧ reads 0x16#8 s.whL ∧ reads 0x17#8 s.whR

/-- R212: READ_REG of a reserved index. -/
def Obligations.ReadRegOfReservedIndexIsIllegal : Prop :=
  ∀ (s : State) (index : Byte), index = 0x06#8 ∨ index = 0x07#8 ∨ index = 0x0F#8 ∨ 0x18 ≤ index.toNat →
    exec (.readReg index) s = .next { s with
      status := { s.status with illErr := true }
      answers := ⟨.illegalCommand, 0#32, 0#32⟩ :: s.answers }

/-- R215: what WRITE_REG writes to each register that it may write, in every state, changing nothing else. -/
def Obligations.WriteRegWritesTheRegister : Prop :=
  ∀ (s : State) (v : Word),
    let writes := fun (index : Byte) (t : State) =>
      exec (.writeReg index v) s = .next { t with answers := ⟨.ok, 0#32, 0#32⟩ :: s.answers }
    writes 0x00#8 { s with dryWet := v } ∧ writes 0x01#8 { s with depth := v } ∧ writes 0x02#8 { s with rate := v }
      ∧ writes 0x03#8 { s with phaseOffset := v } ∧ writes 0x04#8 { s with feedback := v }
      ∧ writes 0x05#8 { s with effectType := if v ≠ 0#32 then .flanger else .chorus }
      ∧ writes 0x0A#8 { s with status :=
          { ready := s.status.ready
            allocErr := if v.getLsbD 1 then false else s.status.allocErr
            npErr := if v.getLsbD 2 then false else s.status.npErr
            illErr := if v.getLsbD 3 then false else s.status.illErr } }

/-- R214: WRITE_REG of a reserved index or of a register that is not RW. -/
def Obligations.WriteRegElsewhereIsIllegal : Prop :=
  ∀ (s : State) (index : Byte) (v : Word), 0x06 ≤ index.toNat → index ≠ 0x0A#8 →
    exec (.writeReg index v) s = .next { s with
      status := { s.status with illErr := true }
      answers := ⟨.illegalCommand, 0#32, 0#32⟩ :: s.answers }

/-- R216: restoring the six persisted values by WRITE_REG changes those six registers and nothing else of the block. -/
def Obligations.RestoreParametersChangesOnlyThem : Prop :=
  ∀ (s : State) (dw dp rt po fb : Word) (ty : EffectType),
    let ok : Response := ⟨.ok, 0#32, 0#32⟩
    core.run 6 { s with port :=
        [(0x00#8, dw), (0x01#8, dp), (0x02#8, rt), (0x03#8, po), (0x04#8, fb),
          (0x05#8, if ty = .chorus then 0#32 else 1#32)].map (fun e => .request (encode (.writeReg e.1 e.2))) }
      = .next { s with
          dryWet := dw, depth := dp, rate := rt, phaseOffset := po, feedback := fb, effectType := ty
          port := [], answers := ok :: ok :: ok :: ok :: ok :: ok :: s.answers }

/-- R201, R202, R205: a CONFIGURE that succeeds, with the whole state it leaves and the zero-filled delay lines. -/
def Obligations.ConfigureSucceeds : Prop :=
  ∀ (s : State) (sr : Word),
    let n := (floorReal (fmul sr s.cfg.maxDelaySeconds)).toNat
    isNaN sr = false → isInf sr = false → flt ZERO sr = true → isInf (fmul sr s.cfg.maxDelaySeconds) = false →
    1 ≤ n → n ≤ s.cfg.bufCapacity.toNat →
      ∃ t, exec (.configure sr) s = .next t
        ∧ (∃ mL mR, t = { s with
            length := BitVec.ofNat 32 n, sampleRate := sr, status := { s.status with ready := true }
            lfoPhase := 0#32, smoothRate := 0#32, smoothDepth := 0#32, smoothPhaseOffset := 0#32
            fbL := 0#32, fbR := 0#32, whL := 0#32, whR := 0#32, ramL := mL, ramR := mR
            answers := ⟨.ok, 0#32, 0#32⟩ :: s.answers })
        ∧ t.length.toNat = n
        ∧ ∀ ch i, i < n → memRead t ch i = some 0#32

/-- R203: CONFIGURE answers ALLOC_ERROR exactly under the four conditions of the rule. -/
def Obligations.ConfigureFailsExactlyWhen : Prop :=
  ∀ (s : State) (sr : Word),
    let prod := fmul sr s.cfg.maxDelaySeconds
    (∃ t, exec (.configure sr) s = .next t ∧ t.answers = ⟨.allocError, 0#32, 0#32⟩ :: s.answers) ↔
      ¬ (isNaN sr = false ∧ isInf sr = false ∧ flt ZERO sr = true) ∨ isInf prod = true
        ∨ (floorReal prod).toNat = 0 ∨ s.cfg.bufCapacity.toNat < (floorReal prod).toNat

/-- R204: the state that a failing CONFIGURE leaves; no delay-RAM word is reachable in it. -/
def Obligations.ConfigureFailureLeaves : Prop :=
  ∀ (s : State) (sr : Word),
    let prod := fmul sr s.cfg.maxDelaySeconds
    ¬ (isNaN sr = false ∧ isInf sr = false ∧ flt ZERO sr = true) ∨ isInf prod = true
        ∨ (floorReal prod).toNat = 0 ∨ s.cfg.bufCapacity.toNat < (floorReal prod).toNat →
      ∃ t, exec (.configure sr) s = .next t
        ∧ (∃ mL mR, t = { s with
            length := 0#32, sampleRate := 0#32, status := { s.status with ready := false, allocErr := true }
            lfoPhase := 0#32, smoothRate := 0#32, smoothDepth := 0#32, smoothPhaseOffset := 0#32
            fbL := 0#32, fbR := 0#32, whL := 0#32, whR := 0#32, ramL := mL, ramR := mR
            answers := ⟨.allocError, 0#32, 0#32⟩ :: s.answers })
        ∧ ∀ ch i, memRead t ch i = none

/-- R206: after any CONFIGURE a second one leaves what it alone would have left, but for the sticky STATUS bits (which
only accumulate) and the record of responses; with the same operand, that is what the first one left. -/
def Obligations.ConfigureIsIdempotent : Prop :=
  ∀ (s : State) (sr1 sr2 : Word), ∃ t1 t2 u,
    exec (.configure sr1) s = .next t1 ∧ exec (.configure sr2) t1 = .next t2 ∧ exec (.configure sr2) s = .next u
      ∧ t2 = { u with status := t2.status, answers := t2.answers }
      ∧ t2.status.ready = u.status.ready
      ∧ (u.status.allocErr = true → t2.status.allocErr = true)
      ∧ t2.status.npErr = s.status.npErr ∧ t2.status.illErr = s.status.illErr

/-- R207: no other command sets LENGTH, SAMPLE_RATE or READY. -/
def Obligations.OnlyConfigureSetsUp : Prop :=
  ∀ (i : Instr) (s t : State), (∀ sr, i ≠ .configure sr) → exec i s = .next t →
    t.length = s.length ∧ t.sampleRate = s.sampleRate ∧ t.status.ready = s.status.ready

/-! ### The delay line -/

/-- R120, R125: DL_WRITE of a ready block whose head lies below LENGTH, for each channel: the word is stored at the
head, the head advances by one and wraps at LENGTH, and nothing else changes. -/
def Obligations.DlWriteStoresAndAdvances : Prop :=
  ∀ (s : State) (v : Word), s.status.ready = true →
    (s.whL.toNat < s.length.toNat →
      exec (.dlWrite .left v) s = .next { s with
        ramL := writeWord s.ramL s.whL.toNat v
        whL := if s.whL.toNat + 1 = s.length.toNat then 0#32 else s.whL + 1#32
        answers := ⟨.ok, 0#32, 0#32⟩ :: s.answers })
    ∧ (s.whR.toNat < s.length.toNat →
      exec (.dlWrite .right v) s = .next { s with
        ramR := writeWord s.ramR s.whR.toNat v
        whR := if s.whR.toNat + 1 = s.length.toNat then 0#32 else s.whR + 1#32
        answers := ⟨.ok, 0#32, 0#32⟩ :: s.answers })

/-- R71, R77, R120: the bytes that DL_WRITE changes are the four of the word at the channel's head, `WH_c` before the
command, and that word reads as the operand; the other channel's delay line and every register but the head stay. -/
def Obligations.DlWriteChangesOneWord : Prop :=
  ∀ (s t : State) (ch : Channel) (v : Word), s.Inv → s.status.ready = true →
    exec (.dlWrite ch v) s = .next t →
      memRead t ch (s.wh ch).toNat = some v
      ∧ (∀ i, i ≠ (s.wh ch).toNat → memRead t ch i = memRead s ch i)
      ∧ (∀ a, a < 4 * (s.wh ch).toNat ∨ 4 * (s.wh ch).toNat + 4 ≤ a → readByte (t.ram ch) a = readByte (s.ram ch) a)
      ∧ (∀ c, c ≠ ch → t.ram c = s.ram c ∧ t.wh c = s.wh c)
      ∧ t = { s with ramL := t.ramL, ramR := t.ramR, whL := t.whL, whR := t.whR, answers := t.answers }

/-- R121 to R123, R126: DL_READ of a ready block: the read position, its split and the interpolation, written out, for
every delay; the answer is the only change. -/
def Obligations.DlReadInterpolates : Prop :=
  ∀ (s : State) (ch : Channel) (d : Word), s.status.ready = true → 0 < s.length.toNat →
    let len := s.length.toNat
    let p := fsub (i2f (s.wh ch).toNat) d
    let rp := if flt p ZERO then fadd p (i2f len) else p
    let k := floorReal rp
    let f0 := rnd false (units rp - (unitsPerOne : Int) * k).toNat 1
    let x := if isNaN rp || isInf rp then 0
      else ((if f0 = ONE then k + 1 else k) % (len : Int)).toNat
    let f := if (isNaN rp || isInf rp) || f0 == ONE then ZERO else f0
    x < len ∧
    exec (.dlRead ch d) s = .next { s with
      answers := ⟨.ok, fadd (fmul (fsub ONE f) (readWord (s.ram ch) x))
        (fmul f (readWord (s.ram ch) ((x + 1) % len))), 0#32⟩ :: s.answers }

/-- R122, R124: for every length above 0 and every read position, both indexes lie in `[0, L)` and the fraction is a
number in `[0, 1)` without a sign. -/
def Obligations.ReadIndexAndFractionInRange : Prop :=
  ∀ len rp : Word, 0 < len.toNat →
    (splitPosition len rp).1 < len.toNat ∧ ((splitPosition len rp).1 + 1) % len.toNat < len.toNat
      ∧ flt (splitPosition len rp).2 ONE = true ∧ fge (splitPosition len rp).2 ZERO = true
      ∧ signBit (splitPosition len rp).2 = false

/-- R131: a delay of +0.0 or -0.0 reads at the write head, with fraction +0.0: the read is that of the word at the head
(with the exceptions of R128 in the interpolation), and that word is the one the next write overwrites. -/
def Obligations.ZeroDelayReadsAtTheHead : Prop :=
  ∀ (s : State) (ch : Channel) (d : Word), (s.wh ch).toNat < s.length.toNat → s.length.toNat ≤ 2 ^ 24 →
    d = 0x00000000#32 ∨ d = 0x80000000#32 →
    let w := (s.wh ch).toNat
    let b0 := readWord (s.ram ch) w
    let b1 := readWord (s.ram ch) ((w + 1) % s.length.toNat)
    readPosition s.length (s.wh ch) d = i2f w ∧ readPoint s ch d = (w, ZERO)
      ∧ readInterpolated s ch d = some
          (if isNaN b0 || isNaN b1 || isInf b1 then 0x7FC00000#32
          else if b0 = 0x80000000#32 ∧ signBit b1 = false then 0x00000000#32
          else b0)
      ∧ (ramWf (s.ram ch) = true → ∀ v, ∃ t, writeAndAdvance s ch v = some t ∧ memRead t ch w = some v)

/-- R128: an integral delay `z` with `w - z` inside `(-L, L)` has index `(w - z) mod L`, fraction +0.0 and `a = 1.0`,
and the read then gives the word at that index bit for bit, but for the three exceptions. -/
def Obligations.IntegralDelayReadsTheWord : Prop :=
  ∀ (s : State) (ch : Channel) (d : Word) (z : Int), (s.wh ch).toNat < s.length.toNat → s.length.toNat ≤ 2 ^ 24 →
    isNaN d = false → isInf d = false → units d = (unitsPerOne : Int) * z →
    -(s.length.toNat : Int) < ((s.wh ch).toNat : Int) - z → ((s.wh ch).toNat : Int) - z < (s.length.toNat : Int) →
    let x := ((((s.wh ch).toNat : Int) - z) % (s.length.toNat : Int)).toNat
    let b0 := readWord (s.ram ch) x
    let b1 := readWord (s.ram ch) ((x + 1) % s.length.toNat)
    let y := fadd (fmul ONE b0) (fmul ZERO b1)
    readPoint s ch d = (x, ZERO) ∧ fsub ONE (readPoint s ch d).2 = ONE ∧ readInterpolated s ch d = some y
      ∧ y = if isNaN b0 || isNaN b1 || isInf b1 then 0x7FC00000#32
        else if b0 = 0x80000000#32 ∧ signBit b1 = false then 0x00000000#32
        else b0

/-- R127, R128: after CONFIGURE and any number of DL_WRITE commands of any samples to one channel, a delay `d` with
`1 ≤ d ≤ L` reads, with fraction +0.0, the word that write number `N - d` stored, or a word +0.0 if there was none; the
read then returns that word when every sample written is finite and not -0.0 (the exceptions of R128); and delay 0 reads
what delay `L` reads. The commands are run from the host's sequence by `step`. -/
def Obligations.DelayLineWrapsAround : Prop :=
  ∀ (s s0 : State) (sr : Word) (ch : Channel) (vs : List Word), s.cfg.legal = true →
    exec (.configure sr) s = .next s0 → s0.status.ready = true → vs ≠ [] →
      ∃ t, core.run vs.length { s0 with port := vs.map (fun v => .request (encode (.dlWrite ch v))) } = .next t
        ∧ (t.wh ch).toNat = vs.length % s0.length.toNat
        ∧ (∀ d, 1 ≤ d → d ≤ s0.length.toNat →
            let word : Word := if vs.length < d then 0x00000000#32 else vs.getD (vs.length - d) 0x00000000#32
            (readPoint t ch (i2f d)).2 = ZERO ∧ memRead t ch (readPoint t ch (i2f d)).1 = some word
              ∧ ((∀ v ∈ vs, isNaN v = false ∧ isInf v = false ∧ v ≠ 0x80000000#32) →
                  readInterpolated t ch (i2f d) = some word))
        ∧ readPoint t ch (i2f 0) = readPoint t ch (i2f s0.length.toNat)
        ∧ readInterpolated t ch (i2f 0) = readInterpolated t ch (i2f s0.length.toNat)

/-! ### The modulation engine -/

/-- R150, with R152 to R161: the whole effect of PROCESS_FRAME on a ready block whose heads lie below LENGTH, its
formulas written out. The wet samples are ReadInterpolated after both writes. -/
def Obligations.ProcessFrameComputesTheFrame : Prop :=
  ∀ (s : State) (inL inR : Word), s.status.ready = true →
    s.whL.toNat < s.length.toNat → s.whR.toNat < s.length.toNat →
    let c := s.cfg.smoothCoef
    let lfoL := lfoSine s.cfg.lfoSine s.lfoPhase
    let spo := fadd s.smoothPhaseOffset (fmul c (fsub s.phaseOffset s.smoothPhaseOffset))
    let rph := fadd s.lfoPhase spo
    let lfoR := lfoSine s.cfg.lfoSine (if fge rph ONE then fsub rph ONE else rph)
    let srate := fadd s.smoothRate (fmul c (fsub s.rate s.smoothRate))
    let p := fadd s.lfoPhase (fdiv srate s.sampleRate)
    let sdep := fadd s.smoothDepth (fmul c (fsub s.depth s.smoothDepth))
    let lo : Word := if s.effectType = .chorus then 0x3BA3D70A#32 else 0x3A83126F#32
    let hi : Word := if s.effectType = .chorus then 0x3CF5C28F#32 else 0x3BA3D70A#32
    let dL := fmul (fadd lo (fdiv (fmul (fsub hi lo) (fadd (fmul lfoL sdep) ONE)) TWO)) s.sampleRate
    let dR := fmul (fadd lo (fdiv (fmul (fsub hi lo) (fadd (fmul lfoR sdep) ONE)) TWO)) s.sampleRate
    let t1 : State := { s with
      ramL := writeWord s.ramL s.whL.toNat (fadd inL s.fbL)
      whL := if s.whL.toNat + 1 = s.length.toNat then 0#32 else s.whL + 1#32
      ramR := writeWord s.ramR s.whR.toNat (fadd inR s.fbR)
      whR := if s.whR.toNat + 1 = s.length.toNat then 0#32 else s.whR + 1#32 }
    ∃ yL yR, readInterpolated t1 .left dL = some yL ∧ readInterpolated t1 .right dR = some yR
      ∧ exec (.processFrame inL inR) s = .next { t1 with
          smoothPhaseOffset := spo
          smoothRate := srate
          lfoPhase := if fge p ONE then fsub p ONE else p
          smoothDepth := sdep
          fbL := fmul yL s.feedback
          fbR := fmul yR s.feedback
          answers := ⟨.ok, fadd (fmul inL (fsub ONE s.dryWet)) (fmul yL s.dryWet),
            fadd (fmul inR (fsub ONE s.dryWet)) (fmul yR s.dryWet)⟩ :: s.answers }

/-- R150, R152: the frame of PROCESS_FRAME: the stored words and the registers of the rule change, nothing else. -/
def Obligations.ProcessFrameFrame : Prop :=
  ∀ (s t : State) (inL inR : Word), s.Inv → s.status.ready = true → exec (.processFrame inL inR) s = .next t →
    memRead t .left s.whL.toNat = some (fadd inL s.fbL) ∧ memRead t .right s.whR.toNat = some (fadd inR s.fbR)
    ∧ (∀ ch a, a < 4 * (s.wh ch).toNat ∨ 4 * (s.wh ch).toNat + 4 ≤ a →
        readByte (t.ram ch) a = readByte (s.ram ch) a)
    ∧ t = { s with
        ramL := t.ramL, ramR := t.ramR, whL := t.whL, whR := t.whR
        lfoPhase := t.lfoPhase, smoothRate := t.smoothRate, smoothDepth := t.smoothDepth
        smoothPhaseOffset := t.smoothPhaseOffset, fbL := t.fbL, fbR := t.fbR, answers := t.answers }

/-- R165: no value flows from one lane's delay RAM, head, carry or sample to the other lane, and the shared registers
depend on neither. -/
def Obligations.LanesDoNotMix : Prop :=
  (∀ (s1 s2 t1 t2 : State) (inL a b : Word), s1.status.ready = true →
    s2 = { s1 with fbR := s2.fbR, whR := s2.whR, ramR := s2.ramR, port := s2.port, answers := s2.answers } →
    exec (.processFrame inL a) s1 = .next t1 → exec (.processFrame inL b) s2 = .next t2 →
      t1.ramL = t2.ramL ∧ t1.whL = t2.whL ∧ t1.fbL = t2.fbL ∧ t1.lfoPhase = t2.lfoPhase
        ∧ t1.smoothRate = t2.smoothRate ∧ t1.smoothDepth = t2.smoothDepth
        ∧ t1.smoothPhaseOffset = t2.smoothPhaseOffset
        ∧ t1.answers.head?.map Response.res0 = t2.answers.head?.map Response.res0)
  ∧ (∀ (s1 s2 t1 t2 : State) (inR a b : Word), s1.status.ready = true →
    s2 = { s1 with fbL := s2.fbL, whL := s2.whL, ramL := s2.ramL, port := s2.port, answers := s2.answers } →
    exec (.processFrame a inR) s1 = .next t1 → exec (.processFrame b inR) s2 = .next t2 →
      t1.ramR = t2.ramR ∧ t1.whR = t2.whR ∧ t1.fbR = t2.fbR ∧ t1.lfoPhase = t2.lfoPhase
        ∧ t1.smoothRate = t2.smoothRate ∧ t1.smoothDepth = t2.smoothDepth
        ∧ t1.smoothPhaseOffset = t2.smoothPhaseOffset
        ∧ t1.answers.head?.map Response.res1 = t2.answers.head?.map Response.res1)

/-- R168: the dry/wet boundary of one channel, for every input and wet word, exceptions included. -/
def Obligations.DryWetBoundary : Prop :=
  fsub ONE 0x00000000#32 = ONE ∧ fsub ONE ONE = 0x00000000#32
  ∧ (∀ x y : Word,
      mix 0x00000000#32 x y = fadd x (fmul y 0x00000000#32)
      ∧ mix 0x00000000#32 x y =
        if isNaN x || isNaN y || isInf y then 0x7FC00000#32
        else if x = 0x80000000#32 ∧ signBit y = false then 0x00000000#32
        else x)
  ∧ (∀ x y : Word,
      mix ONE x y = fadd (fmul x 0x00000000#32) y
      ∧ mix ONE x y =
        if isNaN x || isInf x || isNaN y then 0x7FC00000#32
        else if y = 0x80000000#32 ∧ signBit x = false then 0x00000000#32
        else y)

/-- R156: while RATE stays in [0, 20] and SAMPLE_RATE is at least 40, every command keeps SMOOTH_RATE in [0, 20] and
LFO_PHASE in [0, 1). The bounds are binary32 comparisons; 20.0 is 0x41A00000 and 40.0 is 0x42200000. -/
def Obligations.PhaseStaysInTheUnitInterval : Prop :=
  ∀ (i : Instr) (s t : State),
    let inRange := fun u : State =>
      fge u.rate ZERO = true ∧ fge 0x41A00000#32 u.rate = true ∧ fge u.sampleRate 0x42200000#32 = true
    let good := fun u : State =>
      fge u.smoothRate ZERO = true ∧ fge 0x41A00000#32 u.smoothRate = true
        ∧ fge u.lfoPhase ZERO = true ∧ flt u.lfoPhase ONE = true
    s.cfg.legal = true → inRange s → good s → exec i s = .next t → inRange t → good t

/-- R153, R167: a NaN in a smoothed register or in its raw parameter makes the smoothed register the canonical NaN, and
a NaN SMOOTH_RATE makes LFO_PHASE the canonical NaN in the same frame. -/
def Obligations.NanParametersStayNan : Prop :=
  ∀ (s t : State) (inL inR : Word), s.status.ready = true → exec (.processFrame inL inR) s = .next t →
    (isNaN s.rate = true ∨ isNaN s.smoothRate = true → t.smoothRate = QNAN ∧ t.lfoPhase = QNAN)
    ∧ (isNaN s.depth = true ∨ isNaN s.smoothDepth = true → t.smoothDepth = QNAN)
    ∧ (isNaN s.phaseOffset = true ∨ isNaN s.smoothPhaseOffset = true → t.smoothPhaseOffset = QNAN)

/-! ### Arithmetic -/

/-- R11 `rnd`: the rounded magnitude is a nearest one among all finite binary32 magnitudes, with an even last bit when
another is as near; it is infinity exactly from half a unit above the largest finite number on. -/
def Obligations.RoundingIsNearestEven : Prop :=
  ∀ n d : Nat, 0 < d →
    (rndBits n d = 0x7F800000 ↔ (2 ^ 25 - 1) * 2 ^ 252 * d ≤ n)
    ∧ (rndBits n d < 0x7F800000 → ∀ m < 0x7F800000,
        let exact : ℚ := (n : ℚ) / d
        let near : ℚ := |exact - (magUnits (BitVec.ofNat 32 (rndBits n d)) : ℚ)|
        let other : ℚ := |exact - (magUnits (BitVec.ofNat 32 m) : ℚ)|
        near ≤ other ∧ (near = other → m ≠ rndBits n d → rndBits n d % 2 = 0))

/-- R11 `i2f`: a natural number up to 2^24 converts exactly, to the finite binary32 of that value, and two of them in
range add, subtract and compare exactly. -/
def Obligations.SmallIntegersAreExact : Prop :=
  ∀ a b : Nat, a ≤ 2 ^ 24 → b ≤ 2 ^ 24 →
    isNaN (i2f a) = false ∧ isInf (i2f a) = false ∧ units (i2f a) = (unitsPerOne : Int) * a
    ∧ (b ≤ a → fsub (i2f a) (i2f b) = i2f (a - b))
    ∧ (a + b ≤ 2 ^ 24 → fadd (i2f a) (i2f b) = i2f (a + b))
    ∧ flt (i2f a) (i2f b) = decide (a < b)

/-- R7: the exact values of the default sine at the quarter cycles and at what is no number. -/
def Obligations.SineAtQuarterCycles : Prop :=
  sinCycles 0x00000000#32 = 0x00000000#32 ∧ sinCycles 0x80000000#32 = 0x80000000#32
    ∧ sinCycles 0x3E800000#32 = 0x3F800000#32 ∧ sinCycles 0x3F000000#32 = 0x00000000#32
    ∧ sinCycles 0x3F400000#32 = 0xBF800000#32
    ∧ ∀ p, isNaN p = true ∨ isInf p = true → sinCycles p = 0x7FC00000#32

/-- R7: the rational bounds that the default sine rounds (the model's own means, notes/assumptions/5.md) enclose the real
sine of `2π t / 2^149`, for `t` units of a cycle up to a quarter, at every level of refinement. -/
def Obligations.SineBoundsEncloseTheSine : Prop :=
  ∀ n t : Nat, 0 < n → t ≤ 2 ^ 147 →
    let x : ℝ := 2 * Real.pi * (t : ℝ) / 2 ^ 149
    (sinBelow n t : ℝ) ≤ Real.sin x ∧ Real.sin x ≤ (sinAbove n t : ℝ)

/-- The model's fold of a finite phase to the first quarter cycle keeps the sine of R7 but for its sign; the folded phase
is the quarter itself or lies at least 2^122 units below it. R7 speaks of no fold: `foldQuarter`, `secondHalf` and the
margin are the model's own means (notes/assumptions/5.md, DESIGN CHOICE). -/
def Obligations.SineFoldsToAQuarterCycle : Prop :=
  ∀ p : Word, isNaN p = false → isInf p = false →
    let t := foldQuarter (magUnits p)
    (t = 2 ^ 147 ∨ t + 2 ^ 122 ≤ 2 ^ 147)
      ∧ Real.sin (2 * Real.pi * (units p : ℝ) / 2 ^ 149)
        = (if (signBit p != secondHalf (magUnits p)) then -1 else 1) * Real.sin (2 * Real.pi * (t : ℝ) / 2 ^ 149)

/-- R7: the default LFO_SINE at every finite phase: a finite binary32 nearest to the real sine of `2π p`, with an even
last bit where another is as near; the phases +0.0 and -0.0 give themselves, and every other phase whose sine is 0 gives
+0.0. How the model computes it is its own means (notes/assumptions/5.md). -/
def Obligations.SineIsCorrectlyRounded : Prop :=
  ∀ p : Word, isNaN p = false → isInf p = false →
    let real := fun v : Word => (units v : ℝ) / 2 ^ 149
    let x : ℝ := Real.sin (2 * Real.pi * real p)
    let w := sinCycles p
    isNaN w = false ∧ isInf w = false
      ∧ (∀ v : Word, isNaN v = false → isInf v = false →
          |x - real w| ≤ |x - real v| ∧ (|x - real w| = |x - real v| → real v ≠ real w → w.getLsbD 0 = false))
      ∧ (units p = 0 → w = p) ∧ (x = 0 → units p ≠ 0 → w = 0x00000000#32)

/-! ### Errors and the whole machine -/

/-- R151, R233: the NOT_PREPARED policy of the three commands, and that no other command answers so. -/
def Obligations.NotPreparedPolicy : Prop :=
  (∀ (s : State) (a b : Word) (ch : Channel), s.status.ready = false →
    let np : State := { s with status := { s.status with npErr := true } }
    exec (.processFrame a b) s = .next { np with answers := ⟨.notPrepared, a, b⟩ :: s.answers }
      ∧ exec (.dlWrite ch a) s = .next { np with answers := ⟨.notPrepared, 0#32, 0#32⟩ :: s.answers }
      ∧ exec (.dlRead ch a) s = .next { np with answers := ⟨.notPrepared, 0#32, 0#32⟩ :: s.answers })
  ∧ (∀ (i : Instr) (s t : State), exec i s = .next t → (∀ a b, i ≠ .processFrame a b) → (∀ ch a, i ≠ .dlWrite ch a) →
      (∀ ch a, i ≠ .dlRead ch a) → ∀ a b, t.answers ≠ ⟨.notPrepared, a, b⟩ :: s.answers)

/-- R230: every command ends with exactly one response; it takes nothing from the host's sequence and leaves the
parameters of the implementation (the three fields are the model's own, notes/assumptions/1.md, 2.md, 4.md). -/
def Obligations.OneResponsePerCommand : Prop :=
  ∀ (i : Instr) (s t : State), exec i s = .next t →
    ∃ a, t.answers = a :: s.answers ∧ t.port = s.port ∧ t.cfg = s.cfg

/-- R78, R230: a command other than CONFIGURE that does not answer OK changes its sticky STATUS bit and nothing else. -/
def Obligations.ErrorsChangeOnlyTheirStickyBit : Prop :=
  ∀ (i : Instr) (s t : State) (code : RespCode) (a b : Word), (∀ sr, i ≠ .configure sr) → exec i s = .next t →
    t.answers = ⟨code, a, b⟩ :: s.answers → code ≠ .ok →
      (code = .illegalCommand ∧ t = { s with status := { s.status with illErr := true }, answers := t.answers })
      ∨ (code = .notPrepared ∧ t = { s with status := { s.status with npErr := true }, answers := t.answers })

/-- R77 for READ_REG and DL_READ, R200 for NOP: answering OK, they have no side effect on any state. -/
def Obligations.ReadsHaveNoSideEffect : Prop :=
  ∀ (i : Instr) (s t : State) (a b : Word),
    i = .nop ∨ (∃ r, i = .readReg r) ∨ (∃ ch d, i = .dlRead ch d) → exec i s = .next t →
    t.answers = ⟨.ok, a, b⟩ :: s.answers → t = { s with answers := t.answers }

/-- R35: a sticky bit that is set stays set under every command but a WRITE_REG of STATUS that has a 1 in its place. -/
def Obligations.StickyBitsStay : Prop :=
  ∀ (i : Instr) (s t : State), exec i s = .next t →
    ((∀ v, i = .writeReg 0x0A#8 v → v.getLsbD 1 = false) → s.status.allocErr = true → t.status.allocErr = true)
    ∧ ((∀ v, i = .writeReg 0x0A#8 v → v.getLsbD 2 = false) → s.status.npErr = true → t.status.npErr = true)
    ∧ ((∀ v, i = .writeReg 0x0A#8 v → v.getLsbD 3 = false) → s.status.illErr = true → t.status.illErr = true)

/-- R34: the parameter registers are written by WRITE_REG only. R37 for LFO_PHASE, R38 for the smoothed registers, R39
for the carries: they are written by PROCESS_FRAME and CONFIGURE only. -/
def Obligations.WhoWritesWhichRegister : Prop :=
  ∀ (i : Instr) (s t : State), exec i s = .next t →
    ((∀ r v, i ≠ .writeReg r v) → t.dryWet = s.dryWet ∧ t.depth = s.depth ∧ t.rate = s.rate
      ∧ t.phaseOffset = s.phaseOffset ∧ t.feedback = s.feedback ∧ t.effectType = s.effectType)
    ∧ ((∀ a b, i ≠ .processFrame a b) → (∀ sr, i ≠ .configure sr) → t.lfoPhase = s.lfoPhase
      ∧ t.smoothRate = s.smoothRate ∧ t.smoothDepth = s.smoothDepth ∧ t.smoothPhaseOffset = s.smoothPhaseOffset
      ∧ t.fbL = s.fbL ∧ t.fbR = s.fbR)

/-- R41, R43, R45: the invariant holds right after reset. Its clause on the RAM lists, and the default parameters, are
the model's choices (notes/assumptions/4.md, 6.md, 7.md). -/
def Obligations.InvariantHoldsAtReset : Prop := State.reset.Inv

/-- R41, R42, R45, R202: every step keeps the invariant: while READY the length is the one that the configured rate asks
for and fits, both heads lie below it; while not READY the block holds its reset or post-failure values; the delay RAMs
stay in canonical form below LENGTH (the model's choice, notes/assumptions/6.md, 7.md). -/
def Obligations.StepKeepsTheInvariant : Prop :=
  ∀ s t : State, s.Inv → step s = .next t → t.Inv

/-- R71, R235, R236: from a state with the invariant no step faults and none refuses. The fault itself is the model's own
(notes/assumptions/7.md). -/
def Obligations.InvariantStatesNeverStop : Prop :=
  ∀ s : State, s.Inv → s.Safe

/-- R41, R45, R71: whatever the host does after reset, for any number of steps and any implementation parameters in
their legal ranges, the machine never faults and never refuses. Where the host's events stand, that State carries the
parameters, and the fault itself are the model's choices (notes/assumptions/1.md, 4.md, 7.md). -/
def Obligations.EveryRunFromResetIsSafe : Prop :=
  ∀ (cfg : Params) (events : List HostEvent) (n : Nat), cfg.legal = true →
    ∃ t, core.run n { State.reset with cfg := cfg, port := events } = .next t ∧ t.cfg = cfg

/-- R86: a step of one instance leaves every other instance as it was. That one instance steps at a time is the model's
choice (notes/assumptions/20.md). -/
def Obligations.InstancesShareNothing : Prop :=
  ∀ (n m : Nat) (all all' : List State), stepInstance n all = .next all' → m ≠ n → all'[m]? = all[m]?
end

