-- ==== Sys2Proof/Laws/Binary32.lean ====
section
/-! SUPPORT. Binary32: the value of a bit pattern, what rounding answers, and the special cases of the operations. -/

namespace Sys2Proof.Machine

/-- The value in units of 31 magnitude bits. -/
def magOfBits (m : Nat) : Nat := if m / 2 ^ 23 = 0 then m else (2 ^ 23 + m % 2 ^ 23) * 2 ^ (m / 2 ^ 23 - 1)

theorem magUnits_eq (a : Word) : magUnits a = magOfBits (a.toNat % 2 ^ 31) := by
  have h1 : expField a = a.toNat % 2 ^ 31 / 2 ^ 23 := by unfold expField; omega
  have h2 : fracField a = a.toNat % 2 ^ 31 % 2 ^ 23 := by unfold fracField; omega
  unfold magUnits magOfBits
  rw [h1, h2]
  split
  · omega
  · rfl

/-- Bits built from an exponent and a significand that carries its hidden bit. -/
theorem magOfBits_build (k q : Nat) (hq : q ≤ 2 ^ 24) (hk : k = 0 ∨ 2 ^ 23 ≤ q) :
    magOfBits (2 ^ 23 * k + q) = q * 2 ^ k := by
  unfold magOfBits
  by_cases h0 : q < 2 ^ 23
  · have : k = 0 := by omega
    subst this
    have : (2 ^ 23 * 0 + q) / 2 ^ 23 = 0 := by omega
    rw [if_pos this]
    omega
  · by_cases h1 : q = 2 ^ 24
    · subst h1
      have hd : (2 ^ 23 * k + 2 ^ 24) / 2 ^ 23 = k + 2 := by omega
      have hm : (2 ^ 23 * k + 2 ^ 24) % 2 ^ 23 = 0 := by omega
      rw [hd, hm, if_neg (by omega), show k + 2 - 1 = k + 1 by omega, pow_succ]
      ring
    · have hd : (2 ^ 23 * k + q) / 2 ^ 23 = k + 1 := by omega
      have hm : (2 ^ 23 * k + q) % 2 ^ 23 = q - 2 ^ 23 := by omega
      rw [hd, hm, if_neg (by omega), show k + 1 - 1 = k by omega, show 2 ^ 23 + (q - 2 ^ 23) = q by omega]

/-- Every bit pattern is so built. -/
theorem magBits_split (m : Nat) :
    ∃ k q, m = 2 ^ 23 * k + q ∧ q < 2 ^ 24 ∧ (k = 0 ∨ 2 ^ 23 ≤ q) := by
  by_cases h : m < 2 ^ 23
  · exact ⟨0, m, by omega, by omega, .inl rfl⟩
  · exact ⟨m / 2 ^ 23 - 1, m % 2 ^ 23 + 2 ^ 23, by omega, by omega, .inr (by omega)⟩

theorem magOfBits_succ (m : Nat) : magOfBits m < magOfBits (m + 1) := by
  obtain ⟨k, q, rfl, hq, hk⟩ := magBits_split m
  rw [magOfBits_build k q (by omega) hk, show 2 ^ 23 * k + q + 1 = 2 ^ 23 * k + (q + 1) by omega,
    magOfBits_build k (q + 1) (by omega) (by omega)]
  exact Nat.mul_lt_mul_of_pos_right (by omega) (Nat.two_pow_pos k)

/-- A larger pattern is a larger number. -/
theorem magOfBits_strictMono : StrictMono magOfBits := strictMono_nat_of_lt_succ magOfBits_succ

theorem magOfBits_zero : magOfBits 0 = 0 := by decide

theorem roundDiv_exact (n d : Nat) (hd : 0 < d) : roundDiv (n * d) d = n := by
  unfold roundDiv
  rw [Nat.mul_mod_left, Nat.mul_div_cancel n hd, if_pos (by omega)]

/-- The rounded quotient lies within half of the exact one. -/
theorem roundDiv_near (n d : Nat) (hd : 0 < d) :
    2 * (roundDiv n d * d) ≤ 2 * n + d ∧ 2 * n ≤ 2 * (roundDiv n d * d) + d := by
  have h := Nat.div_add_mod n d
  have hm := Nat.mod_lt n hd
  rw [Nat.mul_comm] at h
  unfold roundDiv
  split
  · constructor <;> omega
  · split
    · rcases Nat.mod_two_eq_zero_or_one (n / d) with h2 | h2
      · rw [h2, Nat.add_zero]; constructor <;> omega
      · rw [h2, Nat.add_mul]; constructor <;> omega
    · rw [Nat.add_mul]; constructor <;> omega

theorem roundDiv_le (n d c : Nat) (hd : 0 < d) (h : n ≤ c * d) : roundDiv n d ≤ c := by
  by_contra hc
  have hc : c + 1 ≤ roundDiv n d := by omega
  have h1 := (roundDiv_near n d hd).1
  have h2 : (c + 1) * d ≤ roundDiv n d * d := Nat.mul_le_mul_right d hc
  rw [Nat.add_mul] at h2
  omega

theorem roundDiv_ge (n d c : Nat) (hd : 0 < d) (h : c * d ≤ n) : c ≤ roundDiv n d := by
  by_contra hc
  have hc : roundDiv n d + 1 ≤ c := by omega
  have h1 := (roundDiv_near n d hd).2
  have h2 : (roundDiv n d + 1) * d ≤ c * d := Nat.mul_le_mul_right d hc
  rw [Nat.add_mul] at h2
  omega

/-- The exponent that `rndBits` uses. -/
def rndExp (n d : Nat) : Nat := (n / d).log2 - 23

theorem rndBits_def (n d : Nat) :
    rndBits n d = min (2 ^ 23 * rndExp n d + roundDiv n (d * 2 ^ rndExp n d)) 0x7F800000 := rfl

/-- The quotient fits the exponent: below `2^(24+e)`, and from `2^(23+e)` on when `e` is not the least exponent. -/
theorem rndExp_spec (n d : Nat) (hd : 0 < d) :
    n < 2 ^ 24 * (d * 2 ^ rndExp n d) ∧ (rndExp n d = 0 ∨ 2 ^ 23 * (d * 2 ^ rndExp n d) ≤ n) := by
  have hup : n / d < 2 ^ ((n / d).log2 + 1) := Nat.lt_log2_self
  constructor
  · have h1 : n / d < 2 ^ (24 + rndExp n d) :=
      Nat.lt_of_lt_of_le hup (Nat.pow_le_pow_right (by omega) (by unfold rndExp; omega))
    have h2 := (Nat.div_lt_iff_lt_mul hd).1 h1
    rw [pow_add] at h2
    calc n < 2 ^ 24 * 2 ^ rndExp n d * d := h2
      _ = _ := by ring
  · by_cases h0 : rndExp n d = 0
    · exact .inl h0
    · right
      have hne : n / d ≠ 0 := by
        intro h
        apply h0
        unfold rndExp
        rw [h]
        decide
      have h1 : 2 ^ (23 + rndExp n d) ≤ n / d := by
        have : 23 + rndExp n d = (n / d).log2 := by unfold rndExp at h0 ⊢; omega
        rw [this]
        exact Nat.log2_self_le hne
      have h2 := (Nat.le_div_iff_mul_le hd).1 h1
      rw [pow_add] at h2
      calc 2 ^ 23 * (d * 2 ^ rndExp n d) = 2 ^ 23 * 2 ^ rndExp n d * d := by ring
        _ ≤ n := h2

/-- The rounded significand, before the cap: at most `2^24`, at least `2^23` off the least exponent. -/
theorem rndSig_spec (n d : Nat) (hd : 0 < d) :
    roundDiv n (d * 2 ^ rndExp n d) ≤ 2 ^ 24
      ∧ (rndExp n d = 0 ∨ 2 ^ 23 ≤ roundDiv n (d * 2 ^ rndExp n d)) := by
  have hp : 0 < d * 2 ^ rndExp n d := Nat.mul_pos hd (Nat.two_pow_pos _)
  obtain ⟨h1, h2⟩ := rndExp_spec n d hd
  exact ⟨roundDiv_le _ _ _ hp h1.le, h2.imp id (roundDiv_ge _ _ _ hp)⟩

/-- The value of the rounded pattern, while it is no overflow. -/
theorem magOfBits_rnd (n d : Nat) (hd : 0 < d) :
    magOfBits (2 ^ 23 * rndExp n d + roundDiv n (d * 2 ^ rndExp n d))
      = roundDiv n (d * 2 ^ rndExp n d) * 2 ^ rndExp n d :=
  magOfBits_build _ _ (rndSig_spec n d hd).1 (rndSig_spec n d hd).2

theorem rndBits_le_inf (n d : Nat) : rndBits n d ≤ 0x7F800000 := Nat.min_le_right _ _

/-- A real not above a representable number does not round above it. -/
theorem rndBits_le (n d m : Nat) (hd : 0 < d) (h : n ≤ magOfBits m * d) : rndBits n d ≤ m := by
  rw [rndBits_def]
  refine Nat.le_trans (Nat.min_le_left _ _) ?_
  obtain ⟨hlt, hge⟩ := rndExp_spec n d hd
  obtain ⟨k, q, rfl, hq, hk⟩ := magBits_split m
  rw [magOfBits_build k q hq.le hk] at h
  generalize he : rndExp n d = e at *
  have hp : 0 < d * 2 ^ e := Nat.mul_pos hd (Nat.two_pow_pos _)
  rcases Nat.lt_trichotomy e k with hek | hek | hek
  · have h1 : roundDiv n (d * 2 ^ e) ≤ 2 ^ 24 := roundDiv_le _ _ _ hp hlt.le
    have h2 : 2 ^ 23 * (e + 1) ≤ 2 ^ 23 * k := Nat.mul_le_mul_left _ hek
    omega
  · subst hek
    have h1 : roundDiv n (d * 2 ^ e) ≤ q := roundDiv_le _ _ _ hp (by rw [← Nat.mul_assoc, Nat.mul_right_comm]; exact h)
    omega
  · exfalso
    have h1 := hge.resolve_left (by omega)
    have h2 : q * 2 ^ k * d < 2 ^ 24 * 2 ^ k * d :=
      Nat.mul_lt_mul_of_pos_right (Nat.mul_lt_mul_of_pos_right hq (Nat.two_pow_pos _)) hd
    have h3 : 2 ^ 24 * 2 ^ k * d ≤ 2 ^ 23 * (d * 2 ^ e) := by
      have : 2 ^ (k + 1) ≤ 2 ^ e := Nat.pow_le_pow_right (by omega) hek
      calc 2 ^ 24 * 2 ^ k * d = 2 ^ 23 * d * 2 ^ (k + 1) := by rw [pow_succ]; ring
        _ ≤ 2 ^ 23 * d * 2 ^ e := Nat.mul_le_mul_left _ this
        _ = _ := by ring
    omega

/-- A real not below a representable number does not round below it. -/
theorem rndBits_ge (n d m : Nat) (hd : 0 < d) (hm : m ≤ 0x7F800000) (h : magOfBits m * d ≤ n) : m ≤ rndBits n d := by
  rw [rndBits_def]
  refine Nat.le_min.2 ⟨?_, hm⟩
  obtain ⟨hlt, hge⟩ := rndExp_spec n d hd
  have hs := rndSig_spec n d hd
  obtain ⟨k, q, rfl, hq, hk⟩ := magBits_split m
  rw [magOfBits_build k q hq.le hk] at h
  generalize he : rndExp n d = e at *
  have hp : 0 < d * 2 ^ e := Nat.mul_pos hd (Nat.two_pow_pos _)
  rcases Nat.lt_trichotomy k e with hek | hek | hek
  · have h1 := hs.2.resolve_left (by omega)
    have h2 : 2 ^ 23 * (k + 1) ≤ 2 ^ 23 * e := Nat.mul_le_mul_left _ hek
    omega
  · subst hek
    have h1 : q ≤ roundDiv n (d * 2 ^ k) := roundDiv_ge _ _ _ hp (by rw [← Nat.mul_assoc, Nat.mul_right_comm]; exact h)
    omega
  · exfalso
    have h1 := hk.resolve_left (by omega)
    have h3 : 2 ^ 24 * (d * 2 ^ e) ≤ q * 2 ^ k * d := by
      have : 2 ^ (e + 1) ≤ 2 ^ k := Nat.pow_le_pow_right (by omega) hek
      calc 2 ^ 24 * (d * 2 ^ e) = 2 ^ 23 * d * 2 ^ (e + 1) := by rw [pow_succ]; ring
        _ ≤ q * d * 2 ^ k := Nat.mul_le_mul (Nat.mul_le_mul_right d h1) this
        _ = _ := by ring
    omega

/-- A real below the midpoint of two neighbours does not round to the upper one. -/
theorem rndBits_le_of_lt_mid (n d m : Nat) (hd : 0 < d) (h : 2 * n < (magOfBits m + magOfBits (m + 1)) * d) :
    rndBits n d ≤ m := by
  rw [rndBits_def]
  refine Nat.le_trans (Nat.min_le_left _ _) ?_
  obtain ⟨hlt, hge⟩ := rndExp_spec n d hd
  obtain ⟨k, q, rfl, hq, hk⟩ := magBits_split m
  rw [magOfBits_build k q hq.le hk, show 2 ^ 23 * k + q + 1 = 2 ^ 23 * k + (q + 1) by omega,
    magOfBits_build k (q + 1) (by omega) (by omega)] at h
  have h' : 2 * n < (2 * q + 1) * (d * 2 ^ k) := by
    calc 2 * n < (q * 2 ^ k + (q + 1) * 2 ^ k) * d := h
      _ = _ := by ring
  generalize he : rndExp n d = e at *
  have hp : 0 < d * 2 ^ e := Nat.mul_pos hd (Nat.two_pow_pos _)
  rcases Nat.lt_trichotomy e k with hek | hek | hek
  · have h1 : roundDiv n (d * 2 ^ e) ≤ 2 ^ 24 := roundDiv_le _ _ _ hp hlt.le
    have h2 : 2 ^ 23 * (e + 1) ≤ 2 ^ 23 * k := Nat.mul_le_mul_left _ hek
    omega
  · subst hek
    have h1 := (roundDiv_near n _ hp).1
    have h2 : roundDiv n (d * 2 ^ e) < q + 1 := by
      by_contra hc
      have h3 : (q + 1) * (d * 2 ^ e) ≤ roundDiv n (d * 2 ^ e) * (d * 2 ^ e) := Nat.mul_le_mul_right _ (by omega)
      have h4 : (2 * q + 1) * (d * 2 ^ e) + d * 2 ^ e = 2 * ((q + 1) * (d * 2 ^ e)) := by ring
      omega
    omega
  · exfalso
    have h1 := hge.resolve_left (by omega)
    have h2 : (2 * q + 1) * (d * 2 ^ k) ≤ 2 ^ 25 * (d * 2 ^ k) := Nat.mul_le_mul_right _ (by omega)
    have h3 : 2 ^ 24 * (d * 2 ^ k) ≤ 2 ^ 23 * (d * 2 ^ e) := by
      have : 2 ^ (k + 1) ≤ 2 ^ e := Nat.pow_le_pow_right (by omega) hek
      calc 2 ^ 24 * (d * 2 ^ k) = 2 ^ 23 * d * 2 ^ (k + 1) := by rw [pow_succ]; ring
        _ ≤ 2 ^ 23 * d * 2 ^ e := Nat.mul_le_mul_left _ this
        _ = _ := by ring
    omega

/-- A real above the midpoint of two neighbours does not round to the lower one. -/
theorem rndBits_ge_of_mid_lt (n d m : Nat) (hd : 0 < d) (hm : m < 0x7F800000)
    (h : (magOfBits m + magOfBits (m + 1)) * d < 2 * n) : m + 1 ≤ rndBits n d := by
  rw [rndBits_def]
  refine Nat.le_min.2 ⟨?_, hm⟩
  obtain ⟨hlt, hge⟩ := rndExp_spec n d hd
  have hs := rndSig_spec n d hd
  obtain ⟨k, q, rfl, hq, hk⟩ := magBits_split m
  rw [magOfBits_build k q hq.le hk, show 2 ^ 23 * k + q + 1 = 2 ^ 23 * k + (q + 1) by omega,
    magOfBits_build k (q + 1) (by omega) (by omega)] at h
  have h' : (2 * q + 1) * (d * 2 ^ k) < 2 * n := by
    calc (2 * q + 1) * (d * 2 ^ k) = (q * 2 ^ k + (q + 1) * 2 ^ k) * d := by ring
      _ < 2 * n := h
  generalize he : rndExp n d = e at *
  have hp : 0 < d * 2 ^ e := Nat.mul_pos hd (Nat.two_pow_pos _)
  rcases Nat.lt_trichotomy k e with hek | hek | hek
  · have h1 := hs.2.resolve_left (by omega)
    have h2 : 2 ^ 23 * (k + 1) ≤ 2 ^ 23 * e := Nat.mul_le_mul_left _ hek
    omega
  · subst hek
    have h1 := (roundDiv_near n _ hp).2
    have h2 : q < roundDiv n (d * 2 ^ k) := by
      by_contra hc
      have h3 : roundDiv n (d * 2 ^ k) * (d * 2 ^ k) ≤ q * (d * 2 ^ k) := Nat.mul_le_mul_right _ (by omega)
      have h4 : (2 * q + 1) * (d * 2 ^ k) = 2 * (q * (d * 2 ^ k)) + d * 2 ^ k := by ring
      omega
    omega
  · exfalso
    have h1 := hk.resolve_left (by omega)
    have h2 : 2 ^ 24 * (d * 2 ^ k) ≤ (2 * q + 1) * (d * 2 ^ k) := Nat.mul_le_mul_right _ (by omega)
    have h3 : 2 ^ 25 * (d * 2 ^ e) ≤ 2 ^ 24 * (d * 2 ^ k) := by
      have : 2 ^ (e + 1) ≤ 2 ^ k := Nat.pow_le_pow_right (by omega) hek
      calc 2 ^ 25 * (d * 2 ^ e) = 2 ^ 24 * d * 2 ^ (e + 1) := by rw [pow_succ]; ring
        _ ≤ 2 ^ 24 * d * 2 ^ k := Nat.mul_le_mul_left _ this
        _ = _ := by ring
    omega

/-- A representable number rounds to itself. -/
theorem rndBits_exact (d m : Nat) (hd : 0 < d) (hm : m ≤ 0x7F800000) : rndBits (magOfBits m * d) d = m :=
  Nat.le_antisymm (rndBits_le _ _ _ hd (Nat.le_refl _)) (rndBits_ge _ _ _ hd hm (Nat.le_refl _))

/-! ### Words made of a sign and magnitude bits -/

theorem packSign_toNat (neg : Bool) (m : Nat) (hm : m < 2 ^ 31) :
    (packSign neg m).toNat = (if neg then 2 ^ 31 else 0) + m := by
  unfold packSign
  rw [BitVec.toNat_ofNat]
  apply Nat.mod_eq_of_lt
  cases neg <;> simp <;> omega

theorem signBit_eq (a : Word) : signBit a = decide (2 ^ 31 ≤ a.toNat) := by
  have h : a.msb = decide (2 ^ 31 ≤ a.toNat) := BitVec.msb_eq_decide a
  simpa [signBit, BitVec.msb_eq_getLsbD_last] using h

/-- Every word is its sign and its magnitude bits. -/
theorem packSign_self (a : Word) : packSign (signBit a) (a.toNat % 2 ^ 31) = a := by
  apply BitVec.eq_of_toNat_eq
  rw [packSign_toNat _ _ (by omega), signBit_eq]
  have := a.isLt
  by_cases h : 2 ^ 31 ≤ a.toNat
  · simp only [h, decide_true, if_true]; omega
  · simp only [h, decide_false]; simp; omega

@[simp] theorem signBit_packSign (neg : Bool) (m : Nat) (hm : m < 2 ^ 31) : signBit (packSign neg m) = neg := by
  rw [signBit_eq, packSign_toNat _ _ hm]
  cases neg
  · simp
    omega
  · simp

theorem magUnits_packSign (neg : Bool) (m : Nat) (hm : m < 2 ^ 31) : magUnits (packSign neg m) = magOfBits m := by
  rw [magUnits_eq, packSign_toNat _ _ hm]
  congr 1
  cases neg <;> simp <;> omega

/-- Finite words are those whose magnitude bits lie below those of infinity. -/
theorem finite_iff (a : Word) : (isNaN a = false ∧ isInf a = false) ↔ a.toNat % 2 ^ 31 < 0x7F800000 := by
  have h1 : expField a = a.toNat % 2 ^ 31 / 2 ^ 23 := by unfold expField; omega
  simp only [isNaN, isInf, h1]
  by_cases h : a.toNat % 2 ^ 31 / 2 ^ 23 = 255
  · rw [h]
    by_cases h2 : fracField a = 0 <;> (simp [h2]; omega)
  · simp only [beq_eq_false_iff_ne.2 h, Bool.false_and, true_and]
    simp
    omega

theorem isNaN_iff (a : Word) : isNaN a = true ↔ 0x7F800000 < a.toNat % 2 ^ 31 := by
  have h1 : expField a = a.toNat % 2 ^ 31 / 2 ^ 23 := by unfold expField; omega
  have h2 : fracField a = a.toNat % 2 ^ 31 % 2 ^ 23 := by unfold fracField; omega
  simp only [isNaN, h1, h2, Bool.and_eq_true, beq_iff_eq, bne_iff_ne]
  omega

theorem isInf_iff (a : Word) : isInf a = true ↔ a.toNat % 2 ^ 31 = 0x7F800000 := by
  have h1 : expField a = a.toNat % 2 ^ 31 / 2 ^ 23 := by unfold expField; omega
  have h2 : fracField a = a.toNat % 2 ^ 31 % 2 ^ 23 := by unfold fracField; omega
  simp only [isInf, h1, h2, Bool.and_eq_true, beq_iff_eq]
  omega

/-- No rounded real is a NaN. -/
theorem isNaN_rnd (neg : Bool) (n d : Nat) : isNaN (rnd neg n d) = false := by
  have h := rndBits_le_inf n d
  rw [← Bool.not_eq_true, isNaN_iff, rnd, packSign_toNat _ _ (by omega)]
  cases neg <;> simp <;> omega

theorem signBit_rnd (neg : Bool) (n d : Nat) : signBit (rnd neg n d) = neg :=
  signBit_packSign _ _ (by have := rndBits_le_inf n d; omega)

theorem magUnits_rnd (neg : Bool) (n d : Nat) : magUnits (rnd neg n d) = magOfBits (rndBits n d) :=
  magUnits_packSign _ _ (by have := rndBits_le_inf n d; omega)

/-- A finite number rounds to itself. -/
theorem rnd_self (a : Word) (h : a.toNat % 2 ^ 31 ≤ 0x7F800000) (d : Nat) (hd : 0 < d) :
    rnd (signBit a) (magUnits a * d) d = a := by
  rw [rnd, magUnits_eq, rndBits_exact _ _ hd h, packSign_self]

/-! ### NaN operands -/

theorem fadd_nan_left (a b : Word) (h : isNaN a = true) : fadd a b = QNAN := by simp [fadd, h]
theorem fadd_nan_right (a b : Word) (h : isNaN b = true) : fadd a b = QNAN := by simp [fadd, h]
theorem fmul_nan_left (a b : Word) (h : isNaN a = true) : fmul a b = QNAN := by simp [fmul, h]
theorem fmul_nan_right (a b : Word) (h : isNaN b = true) : fmul a b = QNAN := by simp [fmul, h]

/-- The real value in units, from the sign and the magnitude. -/
theorem units_eq (a : Word) : units a = if signBit a then -(magUnits a : Int) else (magUnits a : Int) := rfl

theorem natAbs_units (a : Word) : (units a).natAbs = magUnits a := by
  unfold units
  split <;> simp

/-- A whole number up to `2^24` is exact. -/
theorem units_i2f (n : Nat) (h : n ≤ 2 ^ 24) : units (i2f n) = (unitsPerOne : Int) * n := by
  have hex : ∃ m, m < 0x7F800000 ∧ magOfBits m = unitsPerOne * n := by
    by_cases h0 : n = 0
    · exact ⟨0, by omega, by rw [h0, magOfBits_zero]; simp⟩
    · have hl : n.log2 ≤ 24 := by
        by_contra hc
        have h1 : 2 ^ 25 ≤ 2 ^ n.log2 := Nat.pow_le_pow_right (by omega) (by omega)
        have h2 := Nat.log2_self_le h0
        omega
      have h1 := Nat.log2_self_le h0
      have h2 : n < 2 ^ (n.log2 + 1) := Nat.lt_log2_self
      generalize n.log2 = l at *
      by_cases h24 : l = 24
      · subst h24
        have : n = 2 ^ 24 := by omega
        subst this
        refine ⟨2 ^ 23 * 150 + 2 ^ 23, by omega, ?_⟩
        rw [magOfBits_build 150 (2 ^ 23) (by omega) (by omega), unitsPerOne]
        norm_num
      · refine ⟨2 ^ 23 * (126 + l) + n * 2 ^ (23 - l), ?_, ?_⟩
        · have : n * 2 ^ (23 - l) < 2 ^ (l + 1) * 2 ^ (23 - l) := Nat.mul_lt_mul_of_pos_right h2 (Nat.two_pow_pos _)
          rw [← pow_add, show l + 1 + (23 - l) = 24 by omega] at this
          omega
        · have h3 : n * 2 ^ (23 - l) < 2 ^ (l + 1) * 2 ^ (23 - l) := Nat.mul_lt_mul_of_pos_right h2 (Nat.two_pow_pos _)
          rw [← pow_add, show l + 1 + (23 - l) = 24 by omega] at h3
          have h4 : 2 ^ l * 2 ^ (23 - l) ≤ n * 2 ^ (23 - l) := Nat.mul_le_mul_right _ h1
          rw [← pow_add, show l + (23 - l) = 23 by omega] at h4
          rw [magOfBits_build _ _ (by omega) (.inr h4), unitsPerOne, Nat.mul_assoc, ← pow_add,
            show 23 - l + (126 + l) = 149 by omega, Nat.mul_comm]
  obtain ⟨m, hm, hv⟩ := hex
  have hr : rndBits (unitsPerOne * n) 1 = m := by
    rw [← hv, ← Nat.mul_one (magOfBits m)]
    exact rndBits_exact 1 m (by omega) (by omega)
  rw [units_eq, i2f, signBit_rnd, magUnits_rnd, hr, hv]
  simp

end Sys2Proof.Machine
end

