-- ==== Sys2Proof/Laws/Encoding.lean ====
section
/-! SUPPORT. The fields of a command word that is put together from its fields. -/

namespace Sys2Proof

theorem cmdWord_toNat (opc arg : Byte) : (cmdWord opc arg).toNat = (opc.toNat * 2 ^ 8 + arg.toNat) * 2 ^ 16 := by
  have h : ∀ (n m : Nat) (x : BitVec n) (y : BitVec m), (x ++ y).toNat = x.toNat * 2 ^ m + y.toNat := by
    intro n m x y
    rw [BitVec.toNat_append, ← Nat.shiftLeft_add_eq_or_of_lt y.isLt, Nat.shiftLeft_eq]
  rw [cmdWord, h, h]
  simp

@[simp] theorem opcField_cmdWord (opc arg : Byte) : opcField (cmdWord opc arg) = opc := by
  apply BitVec.eq_of_toNat_eq
  have h1 := opc.isLt
  have h2 := arg.isLt
  simp only [opcField, BitVec.extractLsb'_toNat, cmdWord_toNat, Nat.shiftRight_eq_div_pow]
  omega

@[simp] theorem argField_cmdWord (opc arg : Byte) : argField (cmdWord opc arg) = arg := by
  apply BitVec.eq_of_toNat_eq
  have h1 := opc.isLt
  have h2 := arg.isLt
  simp only [argField, BitVec.extractLsb'_toNat, cmdWord_toNat, Nat.shiftRight_eq_div_pow]
  omega

@[simp] theorem rsvField_cmdWord (opc arg : Byte) : rsvField (cmdWord opc arg) = 0#16 := by
  apply BitVec.eq_of_toNat_eq
  simp only [rsvField, BitVec.extractLsb'_toNat, cmdWord_toNat, Nat.shiftRight_eq_div_pow]
  simp

/-- A command word is its three fields. -/
theorem cmdWord_fields (cmd : Word) (h : rsvField cmd = 0#16) : cmdWord (opcField cmd) (argField cmd) = cmd := by
  apply BitVec.eq_of_toNat_eq
  have h0 := congrArg BitVec.toNat h
  have h1 := cmd.isLt
  simp only [rsvField, BitVec.extractLsb'_toNat, Nat.shiftRight_eq_div_pow] at h0
  rw [cmdWord_toNat]
  simp only [opcField, argField, BitVec.extractLsb'_toNat, Nat.shiftRight_eq_div_pow]
  simp at h0
  omega

end Sys2Proof
end

