-- ==== Sys2Proof/Laws/Exact.lean ====
section
/-! SUPPORT. Operations whose result is exact: products with 1 and 0, sums with a zero, the flipped sign, whole numbers up
to 2^24. -/

namespace Sys2Proof.Machine

theorem rnd_units (a : Word) (h : isNaN a = false) : rnd (signBit a) (magUnits a) 1 = a := by
  have h1 : a.toNat % 2 ^ 31 ≤ 0x7F800000 := by
    by_contra hc
    rw [(isNaN_iff a).2 (by omega)] at h
    cases h
  have h2 := rnd_self a h1 1 (by omega)
  rwa [Nat.mul_one] at h2

theorem rnd_mul_units (a : Word) (h : isNaN a = false) :
    rnd (signBit a) (unitsPerOne * magUnits a) unitsPerOne = a := by
  have h1 : a.toNat % 2 ^ 31 ≤ 0x7F800000 := by
    by_contra hc
    rw [(isNaN_iff a).2 (by omega)] at h
    cases h
  rw [Nat.mul_comm]
  exact rnd_self a h1 unitsPerOne (by decide)

/-- An infinity is the infinity of its sign. -/
theorem infinity_of_isInf (a : Word) (h : isInf a = true) : infinity (signBit a) = a := by
  have h1 := packSign_self a
  rwa [(isInf_iff a).1 h] at h1

/-- A word whose magnitude is 0 is the zero of its sign. -/
theorem zeroOf_of_magUnits (a : Word) (h : magUnits a = 0) : zeroOf (signBit a) = a := by
  have h1 : a.toNat % 2 ^ 31 = 0 := by
    rw [magUnits_eq, ← magOfBits_zero] at h
    exact magOfBits_strictMono.injective h
  have h2 := packSign_self a
  rwa [h1] at h2

theorem isNaN_zeroOf (s : Bool) : isNaN (zeroOf s) = false := by cases s <;> decide
theorem isInf_zeroOf (s : Bool) : isInf (zeroOf s) = false := by cases s <;> decide
theorem signBit_zeroOf (s : Bool) : signBit (zeroOf s) = s := by cases s <;> decide
theorem magUnits_zeroOf (s : Bool) : magUnits (zeroOf s) = 0 := by cases s <;> decide
theorem units_zeroOf (s : Bool) : units (zeroOf s) = 0 := by cases s <;> decide

theorem isInf_ne_zero (a : Word) (h : isInf a = true) : magUnits a ≠ 0 := by
  intro h0
  rw [← zeroOf_of_magUnits a h0, isInf_zeroOf] at h
  cases h

/-- A product with 1 on the right is the other factor. -/
theorem fmul_one_right (a : Word) (h : isNaN a = false) : fmul a ONE = a := by
  have h1 : isNaN ONE = false := by decide
  have h2 : isInf ONE = false := by decide
  have h3 : signBit ONE = false := by decide
  have h4 : magUnits ONE = unitsPerOne := by decide +kernel
  have h5 : (unitsPerOne = 0) = False := by simp [unitsPerOne]
  unfold fmul
  rw [h, h1, h2, h3, h4, Nat.mul_comm]
  cases hi : isInf a
  · simpa using rnd_mul_units a h
  · simp [isInf_ne_zero a hi, h5, infinity_of_isInf a hi]

/-- A product with 1 on the left is the other factor. -/
theorem fmul_one_left (a : Word) (h : isNaN a = false) : fmul ONE a = a := by
  have h1 : isNaN ONE = false := by decide
  have h2 : isInf ONE = false := by decide
  have h3 : signBit ONE = false := by decide
  have h4 : magUnits ONE = unitsPerOne := by decide +kernel
  have h5 : (unitsPerOne = 0) = False := by simp [unitsPerOne]
  unfold fmul
  rw [h, h1, h2, h3, h4]
  cases hi : isInf a
  · simpa using rnd_mul_units a h
  · simp [isInf_ne_zero a hi, h5, infinity_of_isInf a hi]

theorem rnd_zero (s : Bool) (d : Nat) (hd : 0 < d) : rnd s 0 d = zeroOf s := by
  have h := rnd_self (zeroOf s) (by cases s <;> decide) d hd
  rwa [magUnits_zeroOf, signBit_zeroOf, Nat.zero_mul] at h

/-- A product with +0.0: the zero of the sign, but NaN for an infinity or a NaN. -/
theorem fmul_zero_right (a : Word) :
    fmul a ZERO = if isNaN a || isInf a then QNAN else zeroOf (signBit a) := by
  have h1 : isNaN ZERO = false := by decide
  have h2 : isInf ZERO = false := by decide
  have h3 : signBit ZERO = false := by decide
  have h4 : magUnits ZERO = 0 := by decide
  unfold fmul
  rw [h1, h2, h3, h4]
  cases isNaN a <;> cases isInf a <;> simp [rnd_zero _ unitsPerOne (by decide)]

theorem fmul_zero_left (a : Word) :
    fmul ZERO a = if isNaN a || isInf a then QNAN else zeroOf (signBit a) := by
  have h1 : isNaN ZERO = false := by decide
  have h2 : isInf ZERO = false := by decide
  have h3 : signBit ZERO = false := by decide
  have h4 : magUnits ZERO = 0 := by decide
  unfold fmul
  rw [h1, h2, h3, h4]
  cases isNaN a <;> cases isInf a <;> simp [rnd_zero _ unitsPerOne (by decide)]

theorem units_ne_zero (a : Word) (h : magUnits a ≠ 0) : units a ≠ 0 := by
  intro h1
  have h2 := natAbs_units a
  rw [h1] at h2
  exact h h2.symm

theorem signBit_units (a : Word) (h : magUnits a ≠ 0) : decide (units a < 0) = signBit a := by
  unfold units
  cases signBit a <;> (simp; try omega)

/-- A sum with a zero on the right: the other term, but for the sign of a zero sum (R11). -/
theorem fadd_zeroOf_right (a : Word) (s : Bool) (h : isNaN a = false) :
    fadd a (zeroOf s) = if magUnits a = 0 then zeroOf (signBit a && s) else a := by
  unfold fadd
  rw [h, isNaN_zeroOf, isInf_zeroOf, units_zeroOf, signBit_zeroOf]
  cases hi : isInf a
  · by_cases h0 : magUnits a = 0
    · have h1 : units a = 0 := by
        rw [← zeroOf_of_magUnits a h0]
        exact units_zeroOf _
      simp [h0, h1]
    · simp [h0, units_ne_zero a h0, signBit_units a h0, natAbs_units, rnd_units a h]
  · simp [isInf_ne_zero a hi]

/-- A sum with a zero on the left. -/
theorem fadd_zeroOf_left (a : Word) (s : Bool) (h : isNaN a = false) :
    fadd (zeroOf s) a = if magUnits a = 0 then zeroOf (s && signBit a) else a := by
  unfold fadd
  rw [h, isNaN_zeroOf, isInf_zeroOf, units_zeroOf, signBit_zeroOf]
  cases hi : isInf a
  · by_cases h0 : magUnits a = 0
    · have h1 : units a = 0 := by
        rw [← zeroOf_of_magUnits a h0]
        exact units_zeroOf _
      simp [h0, h1]
    · simp [h0, units_ne_zero a h0, signBit_units a h0, natAbs_units, rnd_units a h]
  · simp [isInf_ne_zero a hi]

/-! ### The flipped sign -/

theorem fneg_toNat (a : Word) :
    (fneg a).toNat = if 2 ^ 31 ≤ a.toNat then a.toNat - 2 ^ 31 else a.toNat + 2 ^ 31 := by
  have h1 : (a.toNat ^^^ 2 ^ 31) % 2 ^ 31 = a.toNat % 2 ^ 31 := by
    rw [Nat.xor_mod_two_pow]
    simp
  have h2 : (a.toNat ^^^ 2 ^ 31) / 2 ^ 31 = a.toNat / 2 ^ 31 ^^^ 1 := by
    rw [Nat.xor_div_two_pow]
    simp
  have h3 : (fneg a).toNat = a.toNat ^^^ 2 ^ 31 := by
    rw [fneg, BitVec.toNat_xor]
    rfl
  rw [h3]
  have hl := a.isLt
  generalize a.toNat ^^^ 2 ^ 31 = x at h1 h2
  have hd : a.toNat / 2 ^ 31 = 0 ∨ a.toNat / 2 ^ 31 = 1 := by omega
  split
  · rcases hd with hd | hd
    · omega
    · rw [hd] at h2
      simp at h2
      omega
  · rcases hd with hd | hd
    · rw [hd] at h2
      simp at h2
      omega
    · omega

theorem fneg_mod (a : Word) : (fneg a).toNat % 2 ^ 31 = a.toNat % 2 ^ 31 := by
  rw [fneg_toNat]
  split <;> omega

@[simp] theorem magUnits_fneg (a : Word) : magUnits (fneg a) = magUnits a := by
  rw [magUnits_eq, magUnits_eq, fneg_mod]

@[simp] theorem isNaN_fneg (a : Word) : isNaN (fneg a) = isNaN a :=
  Bool.eq_iff_iff.2 (by rw [isNaN_iff, isNaN_iff, fneg_mod])

@[simp] theorem isInf_fneg (a : Word) : isInf (fneg a) = isInf a :=
  Bool.eq_iff_iff.2 (by rw [isInf_iff, isInf_iff, fneg_mod])

@[simp] theorem signBit_fneg (a : Word) : signBit (fneg a) = !signBit a := by
  have hl := a.isLt
  rw [signBit_eq, signBit_eq, fneg_toNat]
  by_cases h : 2 ^ 31 ≤ a.toNat
  · rw [if_pos h, decide_eq_true h, decide_eq_false (by omega)]
    rfl
  · rw [if_neg h, decide_eq_false h, decide_eq_true (by omega)]
    rfl

@[simp] theorem units_fneg (a : Word) : units (fneg a) = -units a := by
  unfold units
  rw [signBit_fneg, magUnits_fneg]
  cases signBit a <;> simp

theorem rnd_not (s : Bool) (n d : Nat) : rnd (!s) n d = fneg (rnd s n d) := by
  have hb := rndBits_le_inf n d
  apply BitVec.eq_of_toNat_eq
  rw [fneg_toNat, rnd, rnd, packSign_toNat _ _ (by omega), packSign_toNat _ _ (by omega)]
  generalize rndBits n d = m at hb
  cases s
  · rw [if_neg (show ¬ 2 ^ 31 ≤ (if false = true then 2 ^ 31 else 0) + m by simp; omega)]
    simp
    omega
  · rw [if_pos (show 2 ^ 31 ≤ (if true = true then 2 ^ 31 else 0) + m by simp)]
    simp

/-! ### Whole numbers up to 2^24 -/

theorem i2f_finite (n : Nat) (h : n ≤ 2 ^ 24) : isNaN (i2f n) = false ∧ isInf (i2f n) = false := by
  have hb : rndBits (unitsPerOne * n) 1 ≤ 0x4B800000 := by
    have h1 : magOfBits 0x4B800000 = unitsPerOne * 2 ^ 24 := by decide +kernel
    refine rndBits_le _ _ _ (by omega) ?_
    rw [h1, Nat.mul_one]
    exact Nat.mul_le_mul_left _ h
  rw [finite_iff, i2f, rnd, packSign_toNat _ _ (by omega)]
  simp
  omega

/-- A nonzero sum of two whole numbers of magnitude up to 2^24 in all is exact. -/
theorem fadd_whole (a b : Word) (x y : Int) (ha : isNaN a = false ∧ isInf a = false)
    (hb : isNaN b = false ∧ isInf b = false) (hx : units a = (unitsPerOne : Int) * x)
    (hy : units b = (unitsPerOne : Int) * y) (hne : x + y ≠ 0) :
    fadd a b = if x + y < 0 then fneg (i2f (x + y).natAbs) else i2f (x + y).natAbs := by
  have hp : (0 : Int) < (unitsPerOne : Int) := by decide
  have h0 : ¬ ((unitsPerOne : Int) * (x + y) = 0) := by
    rw [Int.mul_eq_zero]
    omega
  have hn : decide ((unitsPerOne : Int) * (x + y) < 0) = decide (x + y < 0) := by
    apply decide_eq_decide.2
    constructor
    · intro h
      by_contra hc
      exact absurd (Int.mul_nonneg hp.le (not_lt.1 hc)) (not_le.2 h)
    · exact fun h => Int.mul_neg_of_pos_of_neg hp h
  unfold fadd
  rw [ha.1, ha.2, hb.1, hb.2, hx, hy, ← Int.mul_add, if_neg (by simp), if_neg (by simp), if_neg (by simp), if_neg h0,
    hn, Int.natAbs_mul, Int.natAbs_natCast]
  by_cases hs : x + y < 0
  · rw [if_pos hs, decide_eq_true hs, ← Bool.not_false, rnd_not]
    rfl
  · rw [if_neg hs, decide_eq_false hs]
    rfl

end Sys2Proof.Machine
end

