-- ==== Sys2Proof/Laws/Ram.lean ====
section
/-! SUPPORT. What the delay-RAM operations do: reads after writes, and that every write keeps the canonical form. -/

namespace Sys2Proof.Machine

theorem consByte_readByte (a : Nat) (b : Byte) (m : List Host.Cell) (x : Nat) (h : readByte m a = unlistedByte) :
    readByte (consByte a b m) x = if x = a then b else readByte m x := by
  unfold consByte
  by_cases hb : b = unlistedByte
  · by_cases hx : x = a <;> simp [hb, hx, h]
  · by_cases hx : x = a
    · simp [hb, hx, readByte]
    · simp [hb, hx, readByte, Ne.symm hx]

/-- An address below every listed address is unlisted. -/
theorem readByte_below (m : List Host.Cell) (a : Nat) (h : ∀ c ∈ m, a < c.1) : readByte m a = unlistedByte := by
  induction m with
  | nil => rfl
  | cons c rest ih =>
    have hc : c.1 ≠ a := Nat.ne_of_gt (h c (by simp))
    simp [readByte, hc, ih (fun c hc => h c (by simp [hc]))]

theorem ramWf_cons (k : Nat) (v : Byte) (rest : List Host.Cell) :
    ramWf ((k, v) :: rest) = true ↔ v ≠ unlistedByte ∧ (∀ c ∈ rest, k < c.1) ∧ ramWf rest = true := by
  simp [ramWf, and_assoc]

/-- A stored byte is read back, and every other byte reads as before. -/
theorem readByte_writeByte (m : List Host.Cell) (h : ramWf m = true) (a x : Nat) (b : Byte) :
    readByte (writeByte m a b) x = if x = a then b else readByte m x := by
  induction m with
  | nil => simpa [writeByte] using consByte_readByte a b [] x rfl
  | cons c rest ih =>
    obtain ⟨k, v⟩ := c
    obtain ⟨_, hlt, hrest⟩ := (ramWf_cons k v rest).1 h
    unfold writeByte
    by_cases h1 : a < k
    · rw [if_pos h1]
      refine consByte_readByte a b _ x (readByte_below _ a ?_)
      intro c hc
      rcases List.mem_cons.1 hc with rfl | hc
      · exact h1
      · exact Nat.lt_trans h1 (hlt c hc)
    · rw [if_neg h1]
      by_cases h2 : a = k
      · subst h2
        rw [if_pos rfl, consByte_readByte a b rest x (readByte_below rest a hlt)]
        by_cases hx : x = a
        · simp [hx]
        · simp [hx, readByte, Ne.symm hx]
      · rw [if_neg h2]
        by_cases hk : k = x
        · subst hk
          simp [readByte, Ne.symm h2]
        · simp [readByte, hk, ih hrest]

theorem mem_consByte {a : Nat} {b : Byte} {m : List Host.Cell} {c : Host.Cell} (h : c ∈ consByte a b m) :
    c.1 = a ∨ c ∈ m := by
  unfold consByte at h
  split at h
  · exact .inr h
  · rcases List.mem_cons.1 h with rfl | h
    · exact .inl rfl
    · exact .inr h

theorem mem_writeByte {m : List Host.Cell} {a : Nat} {b : Byte} {c : Host.Cell} (h : c ∈ writeByte m a b) :
    c.1 = a ∨ c ∈ m := by
  induction m with
  | nil => simpa [writeByte] using mem_consByte h
  | cons d rest ih =>
    obtain ⟨k, v⟩ := d
    unfold writeByte at h
    split at h
    · exact mem_consByte h
    · split at h
      · exact (mem_consByte h).imp id (fun h => by simp [h])
      · rcases List.mem_cons.1 h with rfl | h
        · exact .inr (by simp)
        · exact (ih h).imp id (fun h => by simp [h])

theorem ramWf_consByte (a : Nat) (b : Byte) (m : List Host.Cell) (hm : ramWf m = true) (h : ∀ c ∈ m, a < c.1) :
    ramWf (consByte a b m) = true := by
  unfold consByte
  split
  · exact hm
  · next hb => exact (ramWf_cons a b m).2 ⟨hb, h, hm⟩

/-- Storing a byte keeps the canonical form. -/
theorem ramWf_writeByte (m : List Host.Cell) (h : ramWf m = true) (a : Nat) (b : Byte) :
    ramWf (writeByte m a b) = true := by
  induction m with
  | nil => exact ramWf_consByte a b [] rfl (by simp)
  | cons c rest ih =>
    obtain ⟨k, v⟩ := c
    obtain ⟨hv, hlt, hrest⟩ := (ramWf_cons k v rest).1 h
    unfold writeByte
    split
    · next h1 =>
      refine ramWf_consByte a b _ h (fun c hc => ?_)
      rcases List.mem_cons.1 hc with rfl | hc
      · exact h1
      · exact Nat.lt_trans h1 (hlt c hc)
    · split
      · next _ h2 => exact ramWf_consByte a b rest hrest (by subst h2; exact hlt)
      · next h1 h2 =>
        refine (ramWf_cons k v _).2 ⟨hv, fun c hc => ?_, ih hrest⟩
        rcases mem_writeByte hc with hc | hc
        · omega
        · exact hlt c hc

/-- Storing a word keeps the canonical form. -/
theorem ramWf_writeWord (m : List Host.Cell) (h : ramWf m = true) (i : Nat) (w : Word) :
    ramWf (writeWord m i w) = true :=
  ramWf_writeByte _ (ramWf_writeByte _ (ramWf_writeByte _ (ramWf_writeByte _ h _ _) _ _) _ _) _ _

theorem ramBelow_iff (n : Nat) (m : List Host.Cell) : ramBelow n m = true ↔ ∀ c ∈ m, c.1 < 4 * n := by
  simp [ramBelow]

/-- Storing a word below the length lists only bytes of words below the length. -/
theorem ramBelow_writeWord (n : Nat) (m : List Host.Cell) (h : ramBelow n m = true) (i : Nat) (hi : i < n) (w : Word) :
    ramBelow n (writeWord m i w) = true := by
  rw [ramBelow_iff] at h ⊢
  intro c hc
  unfold writeWord at hc
  rcases mem_writeByte hc with h1 | hc
  · omega
  rcases mem_writeByte hc with h1 | hc
  · omega
  rcases mem_writeByte hc with h1 | hc
  · omega
  rcases mem_writeByte hc with h1 | hc
  · omega
  exact h c hc

/-- One byte after a word is stored: the byte of the word inside its four bytes, as before outside them. -/
theorem readByte_writeWord (m : List Host.Cell) (h : ramWf m = true) (i x : Nat) (w : Word) :
    readByte (writeWord m i w) x =
      if x = 4 * i then w.extractLsb' 0 8
      else if x = 4 * i + 1 then w.extractLsb' 8 8
      else if x = 4 * i + 2 then w.extractLsb' 16 8
      else if x = 4 * i + 3 then w.extractLsb' 24 8
      else readByte m x := by
  unfold writeWord
  have h0 := ramWf_writeByte m h (4 * i) (w.extractLsb' 0 8)
  have h1 := ramWf_writeByte _ h0 (4 * i + 1) (w.extractLsb' 8 8)
  have h2 := ramWf_writeByte _ h1 (4 * i + 2) (w.extractLsb' 16 8)
  rw [readByte_writeByte _ h2, readByte_writeByte _ h1, readByte_writeByte _ h0, readByte_writeByte _ h]
  split_ifs <;> first | rfl | omega

/-- A byte outside the stored word's four bytes reads as before. -/
theorem readByte_writeWord_outside (m : List Host.Cell) (h : ramWf m = true) (i x : Nat) (w : Word)
    (hx : x < 4 * i ∨ 4 * i + 4 ≤ x) : readByte (writeWord m i w) x = readByte m x := by
  rw [readByte_writeWord m h]
  split_ifs <;> first | rfl | omega

/-- The four bytes of a word make the word. -/
theorem bytes_of_word (w : Word) :
    w.extractLsb' 24 8 ++ w.extractLsb' 16 8 ++ w.extractLsb' 8 8 ++ w.extractLsb' 0 8 = w := by
  apply BitVec.eq_of_getLsbD_eq
  intro k hk
  simp only [BitVec.getLsbD_append, BitVec.getLsbD_extractLsb']
  by_cases h1 : k < 8
  · simp [h1]
  · by_cases h2 : k - 8 < 8
    · simp [h1, h2, show 8 + (k - 8) = k by omega]
    · by_cases h3 : k - 8 - 8 < 8
      · simp [h1, h2, h3, show 16 + (k - 8 - 8) = k by omega]
      · simp [h1, h2, h3, show k - 8 - 8 - 8 < 8 by omega, show 24 + (k - 8 - 8 - 8) = k by omega]

/-- A stored word is read back, and every other word reads as before. -/
theorem readWord_writeWord (m : List Host.Cell) (h : ramWf m = true) (i j : Nat) (w : Word) :
    readWord (writeWord m i w) j = if j = i then w else readWord m j := by
  unfold readWord
  by_cases hj : j = i
  · subst hj
    simp only [readByte_writeWord m h, if_true]
    simp only [show ¬ (4 * j + 3 = 4 * j) by omega, show ¬ (4 * j + 3 = 4 * j + 1) by omega,
      show ¬ (4 * j + 3 = 4 * j + 2) by omega, show ¬ (4 * j + 2 = 4 * j) by omega,
      show ¬ (4 * j + 2 = 4 * j + 1) by omega, show ¬ (4 * j + 1 = 4 * j) by omega, if_false]
    exact bytes_of_word w
  · rw [if_neg hj, readByte_writeWord_outside m h i _ w (by omega), readByte_writeWord_outside m h i _ w (by omega),
      readByte_writeWord_outside m h i _ w (by omega), readByte_writeWord_outside m h i _ w (by omega)]

/-- Every word of a zero-filled RAM is +0.0. -/
theorem readWord_zeroFilled (i : Nat) : readWord zeroFilled i = 0#32 := by
  simp [readWord, zeroFilled, readByte, unlistedByte]

end Sys2Proof.Machine
end

