-- ==== Sys2Proof/Laws/State.lean ====
section
/-! SUPPORT. One lemma per field per named update of State, so that no proof unfolds an update. -/

namespace Sys2Proof.Machine


/-! ### respond -/

@[simp] theorem respond_dryWet (s : State) (c : RespCode) (a b : Word) : (respond s c a b).dryWet = s.dryWet := rfl
@[simp] theorem respond_depth (s : State) (c : RespCode) (a b : Word) : (respond s c a b).depth = s.depth := rfl
@[simp] theorem respond_rate (s : State) (c : RespCode) (a b : Word) : (respond s c a b).rate = s.rate := rfl
@[simp] theorem respond_phaseOffset (s : State) (c : RespCode) (a b : Word) : (respond s c a b).phaseOffset = s.phaseOffset := rfl
@[simp] theorem respond_feedback (s : State) (c : RespCode) (a b : Word) : (respond s c a b).feedback = s.feedback := rfl
@[simp] theorem respond_effectType (s : State) (c : RespCode) (a b : Word) : (respond s c a b).effectType = s.effectType := rfl
@[simp] theorem respond_sampleRate (s : State) (c : RespCode) (a b : Word) : (respond s c a b).sampleRate = s.sampleRate := rfl
@[simp] theorem respond_length (s : State) (c : RespCode) (a b : Word) : (respond s c a b).length = s.length := rfl
@[simp] theorem respond_status (s : State) (c : RespCode) (a b : Word) : (respond s c a b).status = s.status := rfl
@[simp] theorem respond_lfoPhase (s : State) (c : RespCode) (a b : Word) : (respond s c a b).lfoPhase = s.lfoPhase := rfl
@[simp] theorem respond_smoothRate (s : State) (c : RespCode) (a b : Word) : (respond s c a b).smoothRate = s.smoothRate := rfl
@[simp] theorem respond_smoothDepth (s : State) (c : RespCode) (a b : Word) : (respond s c a b).smoothDepth = s.smoothDepth := rfl
@[simp] theorem respond_smoothPhaseOffset (s : State) (c : RespCode) (a b : Word) : (respond s c a b).smoothPhaseOffset = s.smoothPhaseOffset := rfl
@[simp] theorem respond_fbL (s : State) (c : RespCode) (a b : Word) : (respond s c a b).fbL = s.fbL := rfl
@[simp] theorem respond_fbR (s : State) (c : RespCode) (a b : Word) : (respond s c a b).fbR = s.fbR := rfl
@[simp] theorem respond_whL (s : State) (c : RespCode) (a b : Word) : (respond s c a b).whL = s.whL := rfl
@[simp] theorem respond_whR (s : State) (c : RespCode) (a b : Word) : (respond s c a b).whR = s.whR := rfl
@[simp] theorem respond_ramL (s : State) (c : RespCode) (a b : Word) : (respond s c a b).ramL = s.ramL := rfl
@[simp] theorem respond_ramR (s : State) (c : RespCode) (a b : Word) : (respond s c a b).ramR = s.ramR := rfl
@[simp] theorem respond_port (s : State) (c : RespCode) (a b : Word) : (respond s c a b).port = s.port := rfl
@[simp] theorem respond_answers (s : State) (c : RespCode) (a b : Word) : (respond s c a b).answers = ⟨c, a, b⟩ :: s.answers := rfl
@[simp] theorem respond_cfg (s : State) (c : RespCode) (a b : Word) : (respond s c a b).cfg = s.cfg := rfl

/-! ### respondOk -/

@[simp] theorem respondOk_dryWet (s : State) (a b : Word) : (respondOk s a b).dryWet = s.dryWet := rfl
@[simp] theorem respondOk_depth (s : State) (a b : Word) : (respondOk s a b).depth = s.depth := rfl
@[simp] theorem respondOk_rate (s : State) (a b : Word) : (respondOk s a b).rate = s.rate := rfl
@[simp] theorem respondOk_phaseOffset (s : State) (a b : Word) : (respondOk s a b).phaseOffset = s.phaseOffset := rfl
@[simp] theorem respondOk_feedback (s : State) (a b : Word) : (respondOk s a b).feedback = s.feedback := rfl
@[simp] theorem respondOk_effectType (s : State) (a b : Word) : (respondOk s a b).effectType = s.effectType := rfl
@[simp] theorem respondOk_sampleRate (s : State) (a b : Word) : (respondOk s a b).sampleRate = s.sampleRate := rfl
@[simp] theorem respondOk_length (s : State) (a b : Word) : (respondOk s a b).length = s.length := rfl
@[simp] theorem respondOk_status (s : State) (a b : Word) : (respondOk s a b).status = s.status := rfl
@[simp] theorem respondOk_lfoPhase (s : State) (a b : Word) : (respondOk s a b).lfoPhase = s.lfoPhase := rfl
@[simp] theorem respondOk_smoothRate (s : State) (a b : Word) : (respondOk s a b).smoothRate = s.smoothRate := rfl
@[simp] theorem respondOk_smoothDepth (s : State) (a b : Word) : (respondOk s a b).smoothDepth = s.smoothDepth := rfl
@[simp] theorem respondOk_smoothPhaseOffset (s : State) (a b : Word) : (respondOk s a b).smoothPhaseOffset = s.smoothPhaseOffset := rfl
@[simp] theorem respondOk_fbL (s : State) (a b : Word) : (respondOk s a b).fbL = s.fbL := rfl
@[simp] theorem respondOk_fbR (s : State) (a b : Word) : (respondOk s a b).fbR = s.fbR := rfl
@[simp] theorem respondOk_whL (s : State) (a b : Word) : (respondOk s a b).whL = s.whL := rfl
@[simp] theorem respondOk_whR (s : State) (a b : Word) : (respondOk s a b).whR = s.whR := rfl
@[simp] theorem respondOk_ramL (s : State) (a b : Word) : (respondOk s a b).ramL = s.ramL := rfl
@[simp] theorem respondOk_ramR (s : State) (a b : Word) : (respondOk s a b).ramR = s.ramR := rfl
@[simp] theorem respondOk_port (s : State) (a b : Word) : (respondOk s a b).port = s.port := rfl
@[simp] theorem respondOk_answers (s : State) (a b : Word) : (respondOk s a b).answers = ⟨.ok, a, b⟩ :: s.answers := rfl
@[simp] theorem respondOk_cfg (s : State) (a b : Word) : (respondOk s a b).cfg = s.cfg := rfl

/-! ### raiseWith -/

@[simp] theorem raiseWith_dryWet (s : State) (c : RespCode) (a b : Word) : (raiseWith s c a b).dryWet = s.dryWet := rfl
@[simp] theorem raiseWith_depth (s : State) (c : RespCode) (a b : Word) : (raiseWith s c a b).depth = s.depth := rfl
@[simp] theorem raiseWith_rate (s : State) (c : RespCode) (a b : Word) : (raiseWith s c a b).rate = s.rate := rfl
@[simp] theorem raiseWith_phaseOffset (s : State) (c : RespCode) (a b : Word) : (raiseWith s c a b).phaseOffset = s.phaseOffset := rfl
@[simp] theorem raiseWith_feedback (s : State) (c : RespCode) (a b : Word) : (raiseWith s c a b).feedback = s.feedback := rfl
@[simp] theorem raiseWith_effectType (s : State) (c : RespCode) (a b : Word) : (raiseWith s c a b).effectType = s.effectType := rfl
@[simp] theorem raiseWith_sampleRate (s : State) (c : RespCode) (a b : Word) : (raiseWith s c a b).sampleRate = s.sampleRate := rfl
@[simp] theorem raiseWith_length (s : State) (c : RespCode) (a b : Word) : (raiseWith s c a b).length = s.length := rfl
@[simp] theorem raiseWith_status (s : State) (c : RespCode) (a b : Word) : (raiseWith s c a b).status = s.status.record c := rfl
@[simp] theorem raiseWith_lfoPhase (s : State) (c : RespCode) (a b : Word) : (raiseWith s c a b).lfoPhase = s.lfoPhase := rfl
@[simp] theorem raiseWith_smoothRate (s : State) (c : RespCode) (a b : Word) : (raiseWith s c a b).smoothRate = s.smoothRate := rfl
@[simp] theorem raiseWith_smoothDepth (s : State) (c : RespCode) (a b : Word) : (raiseWith s c a b).smoothDepth = s.smoothDepth := rfl
@[simp] theorem raiseWith_smoothPhaseOffset (s : State) (c : RespCode) (a b : Word) : (raiseWith s c a b).smoothPhaseOffset = s.smoothPhaseOffset := rfl
@[simp] theorem raiseWith_fbL (s : State) (c : RespCode) (a b : Word) : (raiseWith s c a b).fbL = s.fbL := rfl
@[simp] theorem raiseWith_fbR (s : State) (c : RespCode) (a b : Word) : (raiseWith s c a b).fbR = s.fbR := rfl
@[simp] theorem raiseWith_whL (s : State) (c : RespCode) (a b : Word) : (raiseWith s c a b).whL = s.whL := rfl
@[simp] theorem raiseWith_whR (s : State) (c : RespCode) (a b : Word) : (raiseWith s c a b).whR = s.whR := rfl
@[simp] theorem raiseWith_ramL (s : State) (c : RespCode) (a b : Word) : (raiseWith s c a b).ramL = s.ramL := rfl
@[simp] theorem raiseWith_ramR (s : State) (c : RespCode) (a b : Word) : (raiseWith s c a b).ramR = s.ramR := rfl
@[simp] theorem raiseWith_port (s : State) (c : RespCode) (a b : Word) : (raiseWith s c a b).port = s.port := rfl
@[simp] theorem raiseWith_answers (s : State) (c : RespCode) (a b : Word) : (raiseWith s c a b).answers = ⟨c, a, b⟩ :: s.answers := rfl
@[simp] theorem raiseWith_cfg (s : State) (c : RespCode) (a b : Word) : (raiseWith s c a b).cfg = s.cfg := rfl

/-! ### raise -/

@[simp] theorem raise_dryWet (s : State) (c : RespCode) : (raise s c).dryWet = s.dryWet := rfl
@[simp] theorem raise_depth (s : State) (c : RespCode) : (raise s c).depth = s.depth := rfl
@[simp] theorem raise_rate (s : State) (c : RespCode) : (raise s c).rate = s.rate := rfl
@[simp] theorem raise_phaseOffset (s : State) (c : RespCode) : (raise s c).phaseOffset = s.phaseOffset := rfl
@[simp] theorem raise_feedback (s : State) (c : RespCode) : (raise s c).feedback = s.feedback := rfl
@[simp] theorem raise_effectType (s : State) (c : RespCode) : (raise s c).effectType = s.effectType := rfl
@[simp] theorem raise_sampleRate (s : State) (c : RespCode) : (raise s c).sampleRate = s.sampleRate := rfl
@[simp] theorem raise_length (s : State) (c : RespCode) : (raise s c).length = s.length := rfl
@[simp] theorem raise_status (s : State) (c : RespCode) : (raise s c).status = s.status.record c := rfl
@[simp] theorem raise_lfoPhase (s : State) (c : RespCode) : (raise s c).lfoPhase = s.lfoPhase := rfl
@[simp] theorem raise_smoothRate (s : State) (c : RespCode) : (raise s c).smoothRate = s.smoothRate := rfl
@[simp] theorem raise_smoothDepth (s : State) (c : RespCode) : (raise s c).smoothDepth = s.smoothDepth := rfl
@[simp] theorem raise_smoothPhaseOffset (s : State) (c : RespCode) : (raise s c).smoothPhaseOffset = s.smoothPhaseOffset := rfl
@[simp] theorem raise_fbL (s : State) (c : RespCode) : (raise s c).fbL = s.fbL := rfl
@[simp] theorem raise_fbR (s : State) (c : RespCode) : (raise s c).fbR = s.fbR := rfl
@[simp] theorem raise_whL (s : State) (c : RespCode) : (raise s c).whL = s.whL := rfl
@[simp] theorem raise_whR (s : State) (c : RespCode) : (raise s c).whR = s.whR := rfl
@[simp] theorem raise_ramL (s : State) (c : RespCode) : (raise s c).ramL = s.ramL := rfl
@[simp] theorem raise_ramR (s : State) (c : RespCode) : (raise s c).ramR = s.ramR := rfl
@[simp] theorem raise_port (s : State) (c : RespCode) : (raise s c).port = s.port := rfl
@[simp] theorem raise_answers (s : State) (c : RespCode) : (raise s c).answers = ⟨c, 0#32, 0#32⟩ :: s.answers := rfl
@[simp] theorem raise_cfg (s : State) (c : RespCode) : (raise s c).cfg = s.cfg := rfl

/-! ### rejectRequest -/

@[simp] theorem rejectRequest_dryWet (s : State) : (rejectRequest s).dryWet = s.dryWet := rfl
@[simp] theorem rejectRequest_depth (s : State) : (rejectRequest s).depth = s.depth := rfl
@[simp] theorem rejectRequest_rate (s : State) : (rejectRequest s).rate = s.rate := rfl
@[simp] theorem rejectRequest_phaseOffset (s : State) : (rejectRequest s).phaseOffset = s.phaseOffset := rfl
@[simp] theorem rejectRequest_feedback (s : State) : (rejectRequest s).feedback = s.feedback := rfl
@[simp] theorem rejectRequest_effectType (s : State) : (rejectRequest s).effectType = s.effectType := rfl
@[simp] theorem rejectRequest_sampleRate (s : State) : (rejectRequest s).sampleRate = s.sampleRate := rfl
@[simp] theorem rejectRequest_length (s : State) : (rejectRequest s).length = s.length := rfl
@[simp] theorem rejectRequest_status (s : State) : (rejectRequest s).status = s.status.record .illegalCommand := rfl
@[simp] theorem rejectRequest_lfoPhase (s : State) : (rejectRequest s).lfoPhase = s.lfoPhase := rfl
@[simp] theorem rejectRequest_smoothRate (s : State) : (rejectRequest s).smoothRate = s.smoothRate := rfl
@[simp] theorem rejectRequest_smoothDepth (s : State) : (rejectRequest s).smoothDepth = s.smoothDepth := rfl
@[simp] theorem rejectRequest_smoothPhaseOffset (s : State) : (rejectRequest s).smoothPhaseOffset = s.smoothPhaseOffset := rfl
@[simp] theorem rejectRequest_fbL (s : State) : (rejectRequest s).fbL = s.fbL := rfl
@[simp] theorem rejectRequest_fbR (s : State) : (rejectRequest s).fbR = s.fbR := rfl
@[simp] theorem rejectRequest_whL (s : State) : (rejectRequest s).whL = s.whL := rfl
@[simp] theorem rejectRequest_whR (s : State) : (rejectRequest s).whR = s.whR := rfl
@[simp] theorem rejectRequest_ramL (s : State) : (rejectRequest s).ramL = s.ramL := rfl
@[simp] theorem rejectRequest_ramR (s : State) : (rejectRequest s).ramR = s.ramR := rfl
@[simp] theorem rejectRequest_port (s : State) : (rejectRequest s).port = s.port := rfl
@[simp] theorem rejectRequest_answers (s : State) : (rejectRequest s).answers = ⟨.illegalCommand, 0#32, 0#32⟩ :: s.answers := rfl
@[simp] theorem rejectRequest_cfg (s : State) : (rejectRequest s).cfg = s.cfg := rfl

/-! ### setWh -/

@[simp] theorem setWh_dryWet (s : State) (ch : Channel) (v : Word) : (s.setWh ch v).dryWet = s.dryWet := by cases ch <;> rfl
@[simp] theorem setWh_depth (s : State) (ch : Channel) (v : Word) : (s.setWh ch v).depth = s.depth := by cases ch <;> rfl
@[simp] theorem setWh_rate (s : State) (ch : Channel) (v : Word) : (s.setWh ch v).rate = s.rate := by cases ch <;> rfl
@[simp] theorem setWh_phaseOffset (s : State) (ch : Channel) (v : Word) : (s.setWh ch v).phaseOffset = s.phaseOffset := by cases ch <;> rfl
@[simp] theorem setWh_feedback (s : State) (ch : Channel) (v : Word) : (s.setWh ch v).feedback = s.feedback := by cases ch <;> rfl
@[simp] theorem setWh_effectType (s : State) (ch : Channel) (v : Word) : (s.setWh ch v).effectType = s.effectType := by cases ch <;> rfl
@[simp] theorem setWh_sampleRate (s : State) (ch : Channel) (v : Word) : (s.setWh ch v).sampleRate = s.sampleRate := by cases ch <;> rfl
@[simp] theorem setWh_length (s : State) (ch : Channel) (v : Word) : (s.setWh ch v).length = s.length := by cases ch <;> rfl
@[simp] theorem setWh_status (s : State) (ch : Channel) (v : Word) : (s.setWh ch v).status = s.status := by cases ch <;> rfl
@[simp] theorem setWh_lfoPhase (s : State) (ch : Channel) (v : Word) : (s.setWh ch v).lfoPhase = s.lfoPhase := by cases ch <;> rfl
@[simp] theorem setWh_smoothRate (s : State) (ch : Channel) (v : Word) : (s.setWh ch v).smoothRate = s.smoothRate := by cases ch <;> rfl
@[simp] theorem setWh_smoothDepth (s : State) (ch : Channel) (v : Word) : (s.setWh ch v).smoothDepth = s.smoothDepth := by cases ch <;> rfl
@[simp] theorem setWh_smoothPhaseOffset (s : State) (ch : Channel) (v : Word) : (s.setWh ch v).smoothPhaseOffset = s.smoothPhaseOffset := by cases ch <;> rfl
@[simp] theorem setWh_fbL (s : State) (ch : Channel) (v : Word) : (s.setWh ch v).fbL = s.fbL := by cases ch <;> rfl
@[simp] theorem setWh_fbR (s : State) (ch : Channel) (v : Word) : (s.setWh ch v).fbR = s.fbR := by cases ch <;> rfl
@[simp] theorem setWh_ramL (s : State) (ch : Channel) (v : Word) : (s.setWh ch v).ramL = s.ramL := by cases ch <;> rfl
@[simp] theorem setWh_ramR (s : State) (ch : Channel) (v : Word) : (s.setWh ch v).ramR = s.ramR := by cases ch <;> rfl
@[simp] theorem setWh_port (s : State) (ch : Channel) (v : Word) : (s.setWh ch v).port = s.port := by cases ch <;> rfl
@[simp] theorem setWh_answers (s : State) (ch : Channel) (v : Word) : (s.setWh ch v).answers = s.answers := by cases ch <;> rfl
@[simp] theorem setWh_cfg (s : State) (ch : Channel) (v : Word) : (s.setWh ch v).cfg = s.cfg := by cases ch <;> rfl
@[simp] theorem setWh_left_whL (s : State) (v : Word) : (s.setWh .left v).whL = v := rfl
@[simp] theorem setWh_left_whR (s : State) (v : Word) : (s.setWh .left v).whR = s.whR := rfl
@[simp] theorem setWh_right_whL (s : State) (v : Word) : (s.setWh .right v).whL = s.whL := rfl
@[simp] theorem setWh_right_whR (s : State) (v : Word) : (s.setWh .right v).whR = v := rfl
@[simp] theorem setWh_wh (s : State) (ch : Channel) (v : Word) : (s.setWh ch v).wh ch = v := by cases ch <;> rfl
@[simp] theorem setWh_ram (s : State) (ch c : Channel) (v : Word) : (s.setWh ch v).ram c = s.ram c := by
  cases ch <;> cases c <;> rfl
@[simp] theorem wh_left (s : State) : s.wh .left = s.whL := rfl
@[simp] theorem wh_right (s : State) : s.wh .right = s.whR := rfl
@[simp] theorem ram_left (s : State) : s.ram .left = s.ramL := rfl
@[simp] theorem ram_right (s : State) : s.ram .right = s.ramR := rfl

/-! ### setRam -/

@[simp] theorem setRam_dryWet (s : State) (ch : Channel) (m : List Host.Cell) : (s.setRam ch m).dryWet = s.dryWet := by cases ch <;> rfl
@[simp] theorem setRam_depth (s : State) (ch : Channel) (m : List Host.Cell) : (s.setRam ch m).depth = s.depth := by cases ch <;> rfl
@[simp] theorem setRam_rate (s : State) (ch : Channel) (m : List Host.Cell) : (s.setRam ch m).rate = s.rate := by cases ch <;> rfl
@[simp] theorem setRam_phaseOffset (s : State) (ch : Channel) (m : List Host.Cell) : (s.setRam ch m).phaseOffset = s.phaseOffset := by cases ch <;> rfl
@[simp] theorem setRam_feedback (s : State) (ch : Channel) (m : List Host.Cell) : (s.setRam ch m).feedback = s.feedback := by cases ch <;> rfl
@[simp] theorem setRam_effectType (s : State) (ch : Channel) (m : List Host.Cell) : (s.setRam ch m).effectType = s.effectType := by cases ch <;> rfl
@[simp] theorem setRam_sampleRate (s : State) (ch : Channel) (m : List Host.Cell) : (s.setRam ch m).sampleRate = s.sampleRate := by cases ch <;> rfl
@[simp] theorem setRam_length (s : State) (ch : Channel) (m : List Host.Cell) : (s.setRam ch m).length = s.length := by cases ch <;> rfl
@[simp] theorem setRam_status (s : State) (ch : Channel) (m : List Host.Cell) : (s.setRam ch m).status = s.status := by cases ch <;> rfl
@[simp] theorem setRam_lfoPhase (s : State) (ch : Channel) (m : List Host.Cell) : (s.setRam ch m).lfoPhase = s.lfoPhase := by cases ch <;> rfl
@[simp] theorem setRam_smoothRate (s : State) (ch : Channel) (m : List Host.Cell) : (s.setRam ch m).smoothRate = s.smoothRate := by cases ch <;> rfl
@[simp] theorem setRam_smoothDepth (s : State) (ch : Channel) (m : List Host.Cell) : (s.setRam ch m).smoothDepth = s.smoothDepth := by cases ch <;> rfl
@[simp] theorem setRam_smoothPhaseOffset (s : State) (ch : Channel) (m : List Host.Cell) : (s.setRam ch m).smoothPhaseOffset = s.smoothPhaseOffset := by cases ch <;> rfl
@[simp] theorem setRam_fbL (s : State) (ch : Channel) (m : List Host.Cell) : (s.setRam ch m).fbL = s.fbL := by cases ch <;> rfl
@[simp] theorem setRam_fbR (s : State) (ch : Channel) (m : List Host.Cell) : (s.setRam ch m).fbR = s.fbR := by cases ch <;> rfl
@[simp] theorem setRam_whL (s : State) (ch : Channel) (m : List Host.Cell) : (s.setRam ch m).whL = s.whL := by cases ch <;> rfl
@[simp] theorem setRam_whR (s : State) (ch : Channel) (m : List Host.Cell) : (s.setRam ch m).whR = s.whR := by cases ch <;> rfl
@[simp] theorem setRam_port (s : State) (ch : Channel) (m : List Host.Cell) : (s.setRam ch m).port = s.port := by cases ch <;> rfl
@[simp] theorem setRam_answers (s : State) (ch : Channel) (m : List Host.Cell) : (s.setRam ch m).answers = s.answers := by cases ch <;> rfl
@[simp] theorem setRam_cfg (s : State) (ch : Channel) (m : List Host.Cell) : (s.setRam ch m).cfg = s.cfg := by cases ch <;> rfl
@[simp] theorem setRam_left_ramL (s : State) (m : List Host.Cell) : (s.setRam .left m).ramL = m := rfl
@[simp] theorem setRam_left_ramR (s : State) (m : List Host.Cell) : (s.setRam .left m).ramR = s.ramR := rfl
@[simp] theorem setRam_right_ramL (s : State) (m : List Host.Cell) : (s.setRam .right m).ramL = s.ramL := rfl
@[simp] theorem setRam_right_ramR (s : State) (m : List Host.Cell) : (s.setRam .right m).ramR = m := rfl
@[simp] theorem setRam_ram (s : State) (ch : Channel) (m : List Host.Cell) : (s.setRam ch m).ram ch = m := by
  cases ch <;> rfl
@[simp] theorem setRam_wh (s : State) (ch c : Channel) (m : List Host.Cell) : (s.setRam ch m).wh c = s.wh c := by
  cases ch <;> cases c <;> rfl

/-! ### resetBlock -/

@[simp] theorem resetBlock_dryWet (s : State) : (resetBlock s).dryWet = 0#32 := rfl
@[simp] theorem resetBlock_depth (s : State) : (resetBlock s).depth = 0#32 := rfl
@[simp] theorem resetBlock_rate (s : State) : (resetBlock s).rate = 0#32 := rfl
@[simp] theorem resetBlock_phaseOffset (s : State) : (resetBlock s).phaseOffset = 0#32 := rfl
@[simp] theorem resetBlock_feedback (s : State) : (resetBlock s).feedback = 0#32 := rfl
@[simp] theorem resetBlock_effectType (s : State) : (resetBlock s).effectType = .chorus := rfl
@[simp] theorem resetBlock_sampleRate (s : State) : (resetBlock s).sampleRate = 0#32 := rfl
@[simp] theorem resetBlock_length (s : State) : (resetBlock s).length = 0#32 := rfl
@[simp] theorem resetBlock_status (s : State) : (resetBlock s).status = ⟨false, false, false, false⟩ := rfl
@[simp] theorem resetBlock_lfoPhase (s : State) : (resetBlock s).lfoPhase = 0#32 := rfl
@[simp] theorem resetBlock_smoothRate (s : State) : (resetBlock s).smoothRate = 0#32 := rfl
@[simp] theorem resetBlock_smoothDepth (s : State) : (resetBlock s).smoothDepth = 0#32 := rfl
@[simp] theorem resetBlock_smoothPhaseOffset (s : State) : (resetBlock s).smoothPhaseOffset = 0#32 := rfl
@[simp] theorem resetBlock_fbL (s : State) : (resetBlock s).fbL = 0#32 := rfl
@[simp] theorem resetBlock_fbR (s : State) : (resetBlock s).fbR = 0#32 := rfl
@[simp] theorem resetBlock_whL (s : State) : (resetBlock s).whL = 0#32 := rfl
@[simp] theorem resetBlock_whR (s : State) : (resetBlock s).whR = 0#32 := rfl
@[simp] theorem resetBlock_ramL (s : State) : (resetBlock s).ramL = [] := rfl
@[simp] theorem resetBlock_ramR (s : State) : (resetBlock s).ramR = [] := rfl
@[simp] theorem resetBlock_port (s : State) : (resetBlock s).port = s.port := rfl
@[simp] theorem resetBlock_answers (s : State) : (resetBlock s).answers = s.answers := rfl
@[simp] theorem resetBlock_cfg (s : State) : (resetBlock s).cfg = s.cfg := rfl

/-! ### releaseEngine -/

@[simp] theorem releaseEngine_dryWet (s : State) : (releaseEngine s).dryWet = s.dryWet := rfl
@[simp] theorem releaseEngine_depth (s : State) : (releaseEngine s).depth = s.depth := rfl
@[simp] theorem releaseEngine_rate (s : State) : (releaseEngine s).rate = s.rate := rfl
@[simp] theorem releaseEngine_phaseOffset (s : State) : (releaseEngine s).phaseOffset = s.phaseOffset := rfl
@[simp] theorem releaseEngine_feedback (s : State) : (releaseEngine s).feedback = s.feedback := rfl
@[simp] theorem releaseEngine_effectType (s : State) : (releaseEngine s).effectType = s.effectType := rfl
@[simp] theorem releaseEngine_sampleRate (s : State) : (releaseEngine s).sampleRate = s.sampleRate := rfl
@[simp] theorem releaseEngine_length (s : State) : (releaseEngine s).length = s.length := rfl
@[simp] theorem releaseEngine_status (s : State) : (releaseEngine s).status = s.status := rfl
@[simp] theorem releaseEngine_lfoPhase (s : State) : (releaseEngine s).lfoPhase = ZERO := rfl
@[simp] theorem releaseEngine_smoothRate (s : State) : (releaseEngine s).smoothRate = ZERO := rfl
@[simp] theorem releaseEngine_smoothDepth (s : State) : (releaseEngine s).smoothDepth = ZERO := rfl
@[simp] theorem releaseEngine_smoothPhaseOffset (s : State) : (releaseEngine s).smoothPhaseOffset = ZERO := rfl
@[simp] theorem releaseEngine_fbL (s : State) : (releaseEngine s).fbL = ZERO := rfl
@[simp] theorem releaseEngine_fbR (s : State) : (releaseEngine s).fbR = ZERO := rfl
@[simp] theorem releaseEngine_whL (s : State) : (releaseEngine s).whL = 0#32 := rfl
@[simp] theorem releaseEngine_whR (s : State) : (releaseEngine s).whR = 0#32 := rfl
@[simp] theorem releaseEngine_ramL (s : State) : (releaseEngine s).ramL = [] := rfl
@[simp] theorem releaseEngine_ramR (s : State) : (releaseEngine s).ramR = [] := rfl
@[simp] theorem releaseEngine_port (s : State) : (releaseEngine s).port = s.port := rfl
@[simp] theorem releaseEngine_answers (s : State) : (releaseEngine s).answers = s.answers := rfl
@[simp] theorem releaseEngine_cfg (s : State) : (releaseEngine s).cfg = s.cfg := rfl

/-! ### configureFailed -/

@[simp] theorem configureFailed_dryWet (s : State) : (configureFailed s).dryWet = s.dryWet := rfl
@[simp] theorem configureFailed_depth (s : State) : (configureFailed s).depth = s.depth := rfl
@[simp] theorem configureFailed_rate (s : State) : (configureFailed s).rate = s.rate := rfl
@[simp] theorem configureFailed_phaseOffset (s : State) : (configureFailed s).phaseOffset = s.phaseOffset := rfl
@[simp] theorem configureFailed_feedback (s : State) : (configureFailed s).feedback = s.feedback := rfl
@[simp] theorem configureFailed_effectType (s : State) : (configureFailed s).effectType = s.effectType := rfl
@[simp] theorem configureFailed_sampleRate (s : State) : (configureFailed s).sampleRate = ZERO := rfl
@[simp] theorem configureFailed_length (s : State) : (configureFailed s).length = 0#32 := rfl
@[simp] theorem configureFailed_status (s : State) : (configureFailed s).status = { s.status with ready := false, allocErr := true } := rfl
@[simp] theorem configureFailed_lfoPhase (s : State) : (configureFailed s).lfoPhase = ZERO := rfl
@[simp] theorem configureFailed_smoothRate (s : State) : (configureFailed s).smoothRate = ZERO := rfl
@[simp] theorem configureFailed_smoothDepth (s : State) : (configureFailed s).smoothDepth = ZERO := rfl
@[simp] theorem configureFailed_smoothPhaseOffset (s : State) : (configureFailed s).smoothPhaseOffset = ZERO := rfl
@[simp] theorem configureFailed_fbL (s : State) : (configureFailed s).fbL = ZERO := rfl
@[simp] theorem configureFailed_fbR (s : State) : (configureFailed s).fbR = ZERO := rfl
@[simp] theorem configureFailed_whL (s : State) : (configureFailed s).whL = 0#32 := rfl
@[simp] theorem configureFailed_whR (s : State) : (configureFailed s).whR = 0#32 := rfl
@[simp] theorem configureFailed_ramL (s : State) : (configureFailed s).ramL = [] := rfl
@[simp] theorem configureFailed_ramR (s : State) : (configureFailed s).ramR = [] := rfl
@[simp] theorem configureFailed_port (s : State) : (configureFailed s).port = s.port := rfl
@[simp] theorem configureFailed_answers (s : State) : (configureFailed s).answers = ⟨.allocError, 0#32, 0#32⟩ :: s.answers := rfl
@[simp] theorem configureFailed_cfg (s : State) : (configureFailed s).cfg = s.cfg := rfl

/-! ### configureDone -/

@[simp] theorem configureDone_dryWet (s : State) (sr : Word) (n : Nat) : (configureDone s sr n).dryWet = s.dryWet := rfl
@[simp] theorem configureDone_depth (s : State) (sr : Word) (n : Nat) : (configureDone s sr n).depth = s.depth := rfl
@[simp] theorem configureDone_rate (s : State) (sr : Word) (n : Nat) : (configureDone s sr n).rate = s.rate := rfl
@[simp] theorem configureDone_phaseOffset (s : State) (sr : Word) (n : Nat) : (configureDone s sr n).phaseOffset = s.phaseOffset := rfl
@[simp] theorem configureDone_feedback (s : State) (sr : Word) (n : Nat) : (configureDone s sr n).feedback = s.feedback := rfl
@[simp] theorem configureDone_effectType (s : State) (sr : Word) (n : Nat) : (configureDone s sr n).effectType = s.effectType := rfl
@[simp] theorem configureDone_sampleRate (s : State) (sr : Word) (n : Nat) : (configureDone s sr n).sampleRate = sr := rfl
@[simp] theorem configureDone_length (s : State) (sr : Word) (n : Nat) : (configureDone s sr n).length = BitVec.ofNat 32 n := rfl
@[simp] theorem configureDone_status (s : State) (sr : Word) (n : Nat) : (configureDone s sr n).status = { s.status with ready := true } := rfl
@[simp] theorem configureDone_lfoPhase (s : State) (sr : Word) (n : Nat) : (configureDone s sr n).lfoPhase = ZERO := rfl
@[simp] theorem configureDone_smoothRate (s : State) (sr : Word) (n : Nat) : (configureDone s sr n).smoothRate = ZERO := rfl
@[simp] theorem configureDone_smoothDepth (s : State) (sr : Word) (n : Nat) : (configureDone s sr n).smoothDepth = ZERO := rfl
@[simp] theorem configureDone_smoothPhaseOffset (s : State) (sr : Word) (n : Nat) : (configureDone s sr n).smoothPhaseOffset = ZERO := rfl
@[simp] theorem configureDone_fbL (s : State) (sr : Word) (n : Nat) : (configureDone s sr n).fbL = ZERO := rfl
@[simp] theorem configureDone_fbR (s : State) (sr : Word) (n : Nat) : (configureDone s sr n).fbR = ZERO := rfl
@[simp] theorem configureDone_whL (s : State) (sr : Word) (n : Nat) : (configureDone s sr n).whL = 0#32 := rfl
@[simp] theorem configureDone_whR (s : State) (sr : Word) (n : Nat) : (configureDone s sr n).whR = 0#32 := rfl
@[simp] theorem configureDone_ramL (s : State) (sr : Word) (n : Nat) : (configureDone s sr n).ramL = [] := rfl
@[simp] theorem configureDone_ramR (s : State) (sr : Word) (n : Nat) : (configureDone s sr n).ramR = [] := rfl
@[simp] theorem configureDone_port (s : State) (sr : Word) (n : Nat) : (configureDone s sr n).port = s.port := rfl
@[simp] theorem configureDone_answers (s : State) (sr : Word) (n : Nat) : (configureDone s sr n).answers = ⟨.ok, 0#32, 0#32⟩ :: s.answers := rfl
@[simp] theorem configureDone_cfg (s : State) (sr : Word) (n : Nat) : (configureDone s sr n).cfg = s.cfg := rfl

/-! ### frameRegisters -/

@[simp] theorem frameRegisters_dryWet (s : State) (m : Modulation) (yL yR : Word) : (frameRegisters s m yL yR).dryWet = s.dryWet := rfl
@[simp] theorem frameRegisters_depth (s : State) (m : Modulation) (yL yR : Word) : (frameRegisters s m yL yR).depth = s.depth := rfl
@[simp] theorem frameRegisters_rate (s : State) (m : Modulation) (yL yR : Word) : (frameRegisters s m yL yR).rate = s.rate := rfl
@[simp] theorem frameRegisters_phaseOffset (s : State) (m : Modulation) (yL yR : Word) : (frameRegisters s m yL yR).phaseOffset = s.phaseOffset := rfl
@[simp] theorem frameRegisters_feedback (s : State) (m : Modulation) (yL yR : Word) : (frameRegisters s m yL yR).feedback = s.feedback := rfl
@[simp] theorem frameRegisters_effectType (s : State) (m : Modulation) (yL yR : Word) : (frameRegisters s m yL yR).effectType = s.effectType := rfl
@[simp] theorem frameRegisters_sampleRate (s : State) (m : Modulation) (yL yR : Word) : (frameRegisters s m yL yR).sampleRate = s.sampleRate := rfl
@[simp] theorem frameRegisters_length (s : State) (m : Modulation) (yL yR : Word) : (frameRegisters s m yL yR).length = s.length := rfl
@[simp] theorem frameRegisters_status (s : State) (m : Modulation) (yL yR : Word) : (frameRegisters s m yL yR).status = s.status := rfl
@[simp] theorem frameRegisters_lfoPhase (s : State) (m : Modulation) (yL yR : Word) : (frameRegisters s m yL yR).lfoPhase = m.phase := rfl
@[simp] theorem frameRegisters_smoothRate (s : State) (m : Modulation) (yL yR : Word) : (frameRegisters s m yL yR).smoothRate = m.srate := rfl
@[simp] theorem frameRegisters_smoothDepth (s : State) (m : Modulation) (yL yR : Word) : (frameRegisters s m yL yR).smoothDepth = m.sdep := rfl
@[simp] theorem frameRegisters_smoothPhaseOffset (s : State) (m : Modulation) (yL yR : Word) : (frameRegisters s m yL yR).smoothPhaseOffset = m.spo := rfl
@[simp] theorem frameRegisters_fbL (s : State) (m : Modulation) (yL yR : Word) : (frameRegisters s m yL yR).fbL = fmul yL s.feedback := rfl
@[simp] theorem frameRegisters_fbR (s : State) (m : Modulation) (yL yR : Word) : (frameRegisters s m yL yR).fbR = fmul yR s.feedback := rfl
@[simp] theorem frameRegisters_whL (s : State) (m : Modulation) (yL yR : Word) : (frameRegisters s m yL yR).whL = s.whL := rfl
@[simp] theorem frameRegisters_whR (s : State) (m : Modulation) (yL yR : Word) : (frameRegisters s m yL yR).whR = s.whR := rfl
@[simp] theorem frameRegisters_ramL (s : State) (m : Modulation) (yL yR : Word) : (frameRegisters s m yL yR).ramL = s.ramL := rfl
@[simp] theorem frameRegisters_ramR (s : State) (m : Modulation) (yL yR : Word) : (frameRegisters s m yL yR).ramR = s.ramR := rfl
@[simp] theorem frameRegisters_port (s : State) (m : Modulation) (yL yR : Word) : (frameRegisters s m yL yR).port = s.port := rfl
@[simp] theorem frameRegisters_answers (s : State) (m : Modulation) (yL yR : Word) : (frameRegisters s m yL yR).answers = s.answers := rfl
@[simp] theorem frameRegisters_cfg (s : State) (m : Modulation) (yL yR : Word) : (frameRegisters s m yL yR).cfg = s.cfg := rfl

/-! ### regWrite -/

@[simp] theorem regWrite_sampleRate (s : State) (r : Reg) (v : Word) : (regWrite s r v).sampleRate = s.sampleRate := by cases r <;> rfl
@[simp] theorem regWrite_length (s : State) (r : Reg) (v : Word) : (regWrite s r v).length = s.length := by cases r <;> rfl
@[simp] theorem regWrite_lfoPhase (s : State) (r : Reg) (v : Word) : (regWrite s r v).lfoPhase = s.lfoPhase := by cases r <;> rfl
@[simp] theorem regWrite_smoothRate (s : State) (r : Reg) (v : Word) : (regWrite s r v).smoothRate = s.smoothRate := by cases r <;> rfl
@[simp] theorem regWrite_smoothDepth (s : State) (r : Reg) (v : Word) : (regWrite s r v).smoothDepth = s.smoothDepth := by cases r <;> rfl
@[simp] theorem regWrite_smoothPhaseOffset (s : State) (r : Reg) (v : Word) : (regWrite s r v).smoothPhaseOffset = s.smoothPhaseOffset := by cases r <;> rfl
@[simp] theorem regWrite_fbL (s : State) (r : Reg) (v : Word) : (regWrite s r v).fbL = s.fbL := by cases r <;> rfl
@[simp] theorem regWrite_fbR (s : State) (r : Reg) (v : Word) : (regWrite s r v).fbR = s.fbR := by cases r <;> rfl
@[simp] theorem regWrite_whL (s : State) (r : Reg) (v : Word) : (regWrite s r v).whL = s.whL := by cases r <;> rfl
@[simp] theorem regWrite_whR (s : State) (r : Reg) (v : Word) : (regWrite s r v).whR = s.whR := by cases r <;> rfl
@[simp] theorem regWrite_ramL (s : State) (r : Reg) (v : Word) : (regWrite s r v).ramL = s.ramL := by cases r <;> rfl
@[simp] theorem regWrite_ramR (s : State) (r : Reg) (v : Word) : (regWrite s r v).ramR = s.ramR := by cases r <;> rfl
@[simp] theorem regWrite_port (s : State) (r : Reg) (v : Word) : (regWrite s r v).port = s.port := by cases r <;> rfl
@[simp] theorem regWrite_answers (s : State) (r : Reg) (v : Word) : (regWrite s r v).answers = s.answers := by cases r <;> rfl
@[simp] theorem regWrite_cfg (s : State) (r : Reg) (v : Word) : (regWrite s r v).cfg = s.cfg := by cases r <;> rfl

/-! ### withFetchWord -/

@[simp] theorem withFetchWord_dryWet (s : State) (nbits w : Nat) : (s.withFetchWord nbits w).dryWet = s.dryWet := rfl
@[simp] theorem withFetchWord_depth (s : State) (nbits w : Nat) : (s.withFetchWord nbits w).depth = s.depth := rfl
@[simp] theorem withFetchWord_rate (s : State) (nbits w : Nat) : (s.withFetchWord nbits w).rate = s.rate := rfl
@[simp] theorem withFetchWord_phaseOffset (s : State) (nbits w : Nat) : (s.withFetchWord nbits w).phaseOffset = s.phaseOffset := rfl
@[simp] theorem withFetchWord_feedback (s : State) (nbits w : Nat) : (s.withFetchWord nbits w).feedback = s.feedback := rfl
@[simp] theorem withFetchWord_effectType (s : State) (nbits w : Nat) : (s.withFetchWord nbits w).effectType = s.effectType := rfl
@[simp] theorem withFetchWord_sampleRate (s : State) (nbits w : Nat) : (s.withFetchWord nbits w).sampleRate = s.sampleRate := rfl
@[simp] theorem withFetchWord_length (s : State) (nbits w : Nat) : (s.withFetchWord nbits w).length = s.length := rfl
@[simp] theorem withFetchWord_status (s : State) (nbits w : Nat) : (s.withFetchWord nbits w).status = s.status := rfl
@[simp] theorem withFetchWord_lfoPhase (s : State) (nbits w : Nat) : (s.withFetchWord nbits w).lfoPhase = s.lfoPhase := rfl
@[simp] theorem withFetchWord_smoothRate (s : State) (nbits w : Nat) : (s.withFetchWord nbits w).smoothRate = s.smoothRate := rfl
@[simp] theorem withFetchWord_smoothDepth (s : State) (nbits w : Nat) : (s.withFetchWord nbits w).smoothDepth = s.smoothDepth := rfl
@[simp] theorem withFetchWord_smoothPhaseOffset (s : State) (nbits w : Nat) : (s.withFetchWord nbits w).smoothPhaseOffset = s.smoothPhaseOffset := rfl
@[simp] theorem withFetchWord_fbL (s : State) (nbits w : Nat) : (s.withFetchWord nbits w).fbL = s.fbL := rfl
@[simp] theorem withFetchWord_fbR (s : State) (nbits w : Nat) : (s.withFetchWord nbits w).fbR = s.fbR := rfl
@[simp] theorem withFetchWord_whL (s : State) (nbits w : Nat) : (s.withFetchWord nbits w).whL = s.whL := rfl
@[simp] theorem withFetchWord_whR (s : State) (nbits w : Nat) : (s.withFetchWord nbits w).whR = s.whR := rfl
@[simp] theorem withFetchWord_ramL (s : State) (nbits w : Nat) : (s.withFetchWord nbits w).ramL = s.ramL := rfl
@[simp] theorem withFetchWord_ramR (s : State) (nbits w : Nat) : (s.withFetchWord nbits w).ramR = s.ramR := rfl
@[simp] theorem withFetchWord_port (s : State) (nbits w : Nat) : (s.withFetchWord nbits w).port = .request (requestOfNat nbits w) :: s.port := rfl
@[simp] theorem withFetchWord_answers (s : State) (nbits w : Nat) : (s.withFetchWord nbits w).answers = s.answers := rfl
@[simp] theorem withFetchWord_cfg (s : State) (nbits w : Nat) : (s.withFetchWord nbits w).cfg = s.cfg := rfl

/-! ### STATUS -/

@[simp] theorem record_ready (st : Status) (c : RespCode) : (st.record c).ready = st.ready := by cases c <;> rfl
@[simp] theorem clear_ready (st : Status) (v : Word) : (st.clear v).ready = st.ready := rfl
@[simp] theorem record_ok (st : Status) : st.record .ok = st := rfl
@[simp] theorem record_illegalCommand (st : Status) : st.record .illegalCommand = { st with illErr := true } := rfl
@[simp] theorem record_allocError (st : Status) : st.record .allocError = { st with allocErr := true } := rfl
@[simp] theorem record_notPrepared (st : Status) : st.record .notPrepared = { st with npErr := true } := rfl
@[simp] theorem regWrite_ready (s : State) (r : Reg) (v : Word) : (regWrite s r v).status.ready = s.status.ready := by
  cases r <;> rfl

end Sys2Proof.Machine
end

