-- ==== Sys2Proof/Laws/Ops.lean ====
section
/-! SUPPORT. What each shared operation can do, said once: if it answers, then what it answers and under which condition. -/

namespace Sys2Proof.Machine

/-! ### Delay-RAM access -/

theorem memRead_eq_some_iff (s : State) (ch : Channel) (i : Nat) (w : Word) :
    memRead s ch i = some w ↔ i < s.length.toNat ∧ readWord (s.ram ch) i = w := by
  unfold memRead
  split <;> simp [*]

theorem memWrite_eq_some_iff (s t : State) (ch : Channel) (i : Nat) (v : Word) :
    memWrite s ch i v = some t ↔ i < s.length.toNat ∧ s.setRam ch (writeWord (s.ram ch) i v) = t := by
  unfold memWrite
  split <;> simp [*]

/-- WriteAndAdvance writes the word at the head and moves the head; it needs the head below LENGTH, and nothing else. -/
theorem writeAndAdvance_eq_some_iff (s t : State) (ch : Channel) (v : Word) :
    writeAndAdvance s ch v = some t ↔
      (s.wh ch).toNat < s.length.toNat
        ∧ (s.setRam ch (writeWord (s.ram ch) (s.wh ch).toNat v)).setWh ch (nextHead s.length (s.wh ch)) = t := by
  unfold writeAndAdvance memWrite
  by_cases h : (s.wh ch).toNat < s.length.toNat <;> simp [h]

/-- The head stays below LENGTH. -/
theorem nextHead_lt (len w : Word) (h : w.toNat < len.toNat) : (nextHead len w).toNat < len.toNat := by
  unfold nextHead
  split
  · simp
    omega
  · have h1 := len.isLt
    rw [BitVec.toNat_add]
    simp
    omega

/-- Every read index lies below LENGTH (R122, R124). -/
theorem splitPosition_lt (len rp : Word) (h : 0 < len.toNat) : (splitPosition len rp).1 < len.toNat := by
  have hm : ∀ k : Int, (k % (len.toNat : Int)).toNat < len.toNat := fun k => by
    have h1 := Int.emod_nonneg k (b := (len.toNat : Int)) (by omega)
    have h2 := Int.emod_lt_of_pos k (b := (len.toNat : Int)) (by omega)
    omega
  unfold splitPosition
  split
  · exact h
  · split
    · exact hm _
    · exact hm _

/-- Both read indexes lie below LENGTH. -/
theorem readPoint_lt (s : State) (ch : Channel) (d : Word) (h : 0 < s.length.toNat) :
    (readPoint s ch d).1 < s.length.toNat :=
  splitPosition_lt _ _ h

/-- The value that ReadInterpolated gives on the two words around index `x` (R122, R123). -/
def wetSample (s : State) (ch : Channel) (d : Word) : Word :=
  interpolate (readPoint s ch d).2 (readWord (s.ram ch) (readPoint s ch d).1)
    (readWord (s.ram ch) (((readPoint s ch d).1 + 1) % s.length.toNat))

theorem readBetween_eq (s : State) (ch : Channel) (x : Nat) (f : Word) (h : x < s.length.toNat) :
    readBetween s ch x f =
      some (interpolate f (readWord (s.ram ch) x) (readWord (s.ram ch) ((x + 1) % s.length.toNat))) := by
  have h2 : (x + 1) % s.length.toNat < s.length.toNat := Nat.mod_lt _ (by omega)
  simp [readBetween, memRead, h, h2]

/-- ReadInterpolated always answers once LENGTH is not 0. -/
theorem readInterpolated_eq (s : State) (ch : Channel) (d : Word) (h : 0 < s.length.toNat) :
    readInterpolated s ch d = some (wetSample s ch d) :=
  readBetween_eq _ _ _ _ (readPoint_lt s ch d h)

theorem memRead_none (s : State) (ch : Channel) (i : Nat) (h : s.length.toNat ≤ i) : memRead s ch i = none :=
  if_neg (Nat.not_lt.2 h)

theorem readBetween_none (s : State) (ch : Channel) (x : Nat) (f : Word) (h : s.length.toNat ≤ x) :
    readBetween s ch x f = none := by
  unfold readBetween
  rw [memRead_none s ch x h]

/-- ReadInterpolated answers only when LENGTH is not 0. -/
theorem readInterpolated_pos (s : State) (ch : Channel) (d y : Word) (h : readInterpolated s ch d = some y) :
    0 < s.length.toNat := by
  rcases Nat.eq_zero_or_pos s.length.toNat with h0 | h0
  · rw [readInterpolated, readBetween_none _ _ _ _ (by rw [h0]; exact Nat.zero_le _)] at h
    exact absurd h (by simp)
  · exact h0

/-! ### Outcomes -/

theorem orRamFault_next (r : Option State) (t : State) : orRamFault r = .next t ↔ r = some t := by
  cases r <;> simp [orRamFault]

theorem orRamFault_ne_refused (r : Option State) (x : Refusal) : orRamFault r ≠ .refused x := by
  cases r <;> simp [orRamFault]

/-- A command that needs a prepared block: it ran, or the block answered NOT_PREPARED. -/
theorem ifPrepared_next (s t : State) (a b : Word) (go : Option State) :
    ifPrepared s a b go = .next t ↔
      (s.status.ready = true ∧ go = some t) ∨ (s.status.ready = false ∧ raiseWith s .notPrepared a b = t) := by
  unfold ifPrepared
  cases h : s.status.ready <;> simp [orRamFault_next]

theorem ifPrepared_ne_refused (s : State) (a b : Word) (go : Option State) (x : Refusal) :
    ifPrepared s a b go ≠ .refused x := by
  unfold ifPrepared
  split
  · exact orRamFault_ne_refused go x
  · simp

/-! ### PROCESS_FRAME -/

/-- The delay lines after step S1. -/
def frameWritten (s : State) (inL inR : Word) : State :=
  { s with
    ramL := writeWord s.ramL s.whL.toNat (fadd inL s.fbL)
    whL := nextHead s.length s.whL
    ramR := writeWord s.ramR s.whR.toNat (fadd inR s.fbR)
    whR := nextHead s.length s.whR }

/-- Step S1 answers exactly when both heads lie below LENGTH. -/
theorem frameWrite_eq_some_iff (s t : State) (inL inR : Word) :
    frameWrite s inL inR = some t ↔
      s.whL.toNat < s.length.toNat ∧ s.whR.toNat < s.length.toNat ∧ frameWritten s inL inR = t := by
  unfold frameWrite writeAndAdvance memWrite
  by_cases h1 : s.whL.toNat < s.length.toNat <;> by_cases h2 : s.whR.toNat < s.length.toNat <;>
    simp [h1, h2, frameWritten, State.setRam, State.setWh]

/-- What a frame of a prepared block leaves. -/
def frameResult (s : State) (inL inR : Word) : State :=
  frameFinish s (frameWritten s inL inR) inL inR (wetSample (frameWritten s inL inR) .left (modulate s).dL)
    (wetSample (frameWritten s inL inR) .right (modulate s).dR)

@[simp] theorem frameResult_dryWet (s : State) (inL inR : Word) : (frameResult s inL inR).dryWet = s.dryWet := rfl
@[simp] theorem frameResult_depth (s : State) (inL inR : Word) : (frameResult s inL inR).depth = s.depth := rfl
@[simp] theorem frameResult_rate (s : State) (inL inR : Word) : (frameResult s inL inR).rate = s.rate := rfl
@[simp] theorem frameResult_phaseOffset (s : State) (inL inR : Word) : (frameResult s inL inR).phaseOffset =
    s.phaseOffset := rfl
@[simp] theorem frameResult_feedback (s : State) (inL inR : Word) : (frameResult s inL inR).feedback = s.feedback := rfl
@[simp] theorem frameResult_effectType (s : State) (inL inR : Word) : (frameResult s inL inR).effectType =
    s.effectType := rfl
@[simp] theorem frameResult_sampleRate (s : State) (inL inR : Word) : (frameResult s inL inR).sampleRate =
    s.sampleRate := rfl
@[simp] theorem frameResult_length (s : State) (inL inR : Word) : (frameResult s inL inR).length = s.length := rfl
@[simp] theorem frameResult_status (s : State) (inL inR : Word) : (frameResult s inL inR).status = s.status := rfl
@[simp] theorem frameResult_lfoPhase (s : State) (inL inR : Word) : (frameResult s inL inR).lfoPhase =
    (modulate s).phase := rfl
@[simp] theorem frameResult_smoothRate (s : State) (inL inR : Word) : (frameResult s inL inR).smoothRate =
    (modulate s).srate := rfl
@[simp] theorem frameResult_smoothDepth (s : State) (inL inR : Word) : (frameResult s inL inR).smoothDepth =
    (modulate s).sdep := rfl
@[simp] theorem frameResult_smoothPhaseOffset (s : State) (inL inR : Word) : (frameResult s inL inR).smoothPhaseOffset =
    (modulate s).spo := rfl
@[simp] theorem frameResult_fbL (s : State) (inL inR : Word) : (frameResult s inL inR).fbL =
    fmul (wetSample (frameWritten s inL inR) .left (modulate s).dL) s.feedback := rfl
@[simp] theorem frameResult_fbR (s : State) (inL inR : Word) : (frameResult s inL inR).fbR =
    fmul (wetSample (frameWritten s inL inR) .right (modulate s).dR) s.feedback := rfl
@[simp] theorem frameResult_whL (s : State) (inL inR : Word) : (frameResult s inL inR).whL =
    nextHead s.length s.whL := rfl
@[simp] theorem frameResult_whR (s : State) (inL inR : Word) : (frameResult s inL inR).whR =
    nextHead s.length s.whR := rfl
@[simp] theorem frameResult_ramL (s : State) (inL inR : Word) : (frameResult s inL inR).ramL =
    writeWord s.ramL s.whL.toNat (fadd inL s.fbL) := rfl
@[simp] theorem frameResult_ramR (s : State) (inL inR : Word) : (frameResult s inL inR).ramR =
    writeWord s.ramR s.whR.toNat (fadd inR s.fbR) := rfl
@[simp] theorem frameResult_port (s : State) (inL inR : Word) : (frameResult s inL inR).port = s.port := rfl
@[simp] theorem frameResult_cfg (s : State) (inL inR : Word) : (frameResult s inL inR).cfg = s.cfg := rfl
@[simp] theorem frameResult_answers (s : State) (inL inR : Word) : (frameResult s inL inR).answers =
    ⟨.ok, mix s.dryWet inL (wetSample (frameWritten s inL inR) .left (modulate s).dL),
        mix s.dryWet inR (wetSample (frameWritten s inL inR) .right (modulate s).dR)⟩ :: s.answers := rfl

/-- A wet sample depends on LENGTH and on its own channel's head and delay RAM only (R165). -/
theorem wetSample_congr (s t : State) (ch : Channel) (d : Word) (h1 : s.length = t.length) (h2 : s.wh ch = t.wh ch)
    (h3 : s.ram ch = t.ram ch) : wetSample s ch d = wetSample t ch d := by
  simp only [wetSample, readPoint, h1, h2, h3]

/-- Steps S2 to S6 read the parameters, the configured rate and the shared engine state only (R165). -/
theorem modulate_congr (s t : State) (h1 : s.cfg = t.cfg) (h2 : s.lfoPhase = t.lfoPhase)
    (h3 : s.smoothPhaseOffset = t.smoothPhaseOffset) (h4 : s.phaseOffset = t.phaseOffset)
    (h5 : s.smoothRate = t.smoothRate) (h6 : s.rate = t.rate) (h7 : s.smoothDepth = t.smoothDepth)
    (h8 : s.depth = t.depth) (h9 : s.effectType = t.effectType) (h10 : s.sampleRate = t.sampleRate) :
    modulate s = modulate t := by
  simp only [modulate, h1, h2, h3, h4, h5, h6, h7, h8, h9, h10]

theorem frameRead_of (s t : State) (inL inR yL yR : Word) (hL : readInterpolated t .left (modulate s).dL = some yL)
    (hR : readInterpolated t .right (modulate s).dR = some yR) :
    frameRead s t inL inR = some (frameFinish s t inL inR yL yR) := by
  rw [frameRead, hL, hR]

theorem frameRead_eq (s t : State) (inL inR : Word) (h : 0 < t.length.toNat) :
    frameRead s t inL inR =
      some (frameFinish s t inL inR (wetSample t .left (modulate s).dL) (wetSample t .right (modulate s).dR)) :=
  frameRead_of s t inL inR _ _ (readInterpolated_eq t .left _ h) (readInterpolated_eq t .right _ h)

/-- A frame answers exactly when both heads lie below LENGTH. -/
theorem frame_eq_some_iff (s t : State) (inL inR : Word) :
    frame s inL inR = some t ↔
      s.whL.toNat < s.length.toNat ∧ s.whR.toNat < s.length.toNat ∧ frameResult s inL inR = t := by
  unfold frame
  cases hw : frameWrite s inL inR with
  | none =>
    constructor
    · intro h
      cases h
    · rintro ⟨h1, h2, _⟩
      have h3 := (frameWrite_eq_some_iff s (frameWritten s inL inR) inL inR).2 ⟨h1, h2, rfl⟩
      rw [hw] at h3
      cases h3
  | some u =>
    obtain ⟨h1, h2, rfl⟩ := (frameWrite_eq_some_iff _ _ _ _).1 hw
    have hl : 0 < (frameWritten s inL inR).length.toNat := Nat.lt_of_le_of_lt (Nat.zero_le _) h1
    show frameRead s (frameWritten s inL inR) inL inR = some t ↔ _
    rw [frameRead_eq s _ inL inR hl, Option.some_inj]
    exact ⟨fun h => ⟨h1, h2, h⟩, fun h => h.2.2⟩

/-! ### The commands -/

theorem exec_nop_next (s t : State) : exec .nop s = .next t ↔ respondOk s 0#32 0#32 = t := by
  simp [exec, execNop]

theorem exec_configure_next (sr : Word) (s t : State) :
    exec (.configure sr) s = .next t ↔
      ((requestedLength s.cfg sr < 1 ∨ s.cfg.bufCapacity.toNat < requestedLength s.cfg sr) ∧ configureFailed s = t)
      ∨ (1 ≤ requestedLength s.cfg sr ∧ requestedLength s.cfg sr ≤ s.cfg.bufCapacity.toNat
          ∧ configureDone s sr (requestedLength s.cfg sr) = t) := by
  show execConfigure sr s = .next t ↔ _
  unfold execConfigure
  by_cases h : requestedLength s.cfg sr < 1 ∨ s.cfg.bufCapacity.toNat < requestedLength s.cfg sr
  · rw [if_pos h]
    simp only [Host.Outcome.next.injEq]
    constructor
    · exact fun h1 => .inl ⟨h, h1⟩
    · rintro (⟨_, h1⟩ | ⟨h1, h2, _⟩)
      · exact h1
      · omega
  · rw [if_neg h]
    simp only [Host.Outcome.next.injEq]
    constructor
    · exact fun h1 => .inr ⟨by omega, by omega, h1⟩
    · rintro (⟨h1, _⟩ | ⟨_, _, h1⟩)
      · exact absurd h1 h
      · exact h1

theorem exec_readReg_next (index : Byte) (s t : State) :
    exec (.readReg index) s = .next t ↔
      (∃ r, Reg.ofIndex index = some r ∧ respondOk s (regValue s r) 0#32 = t)
      ∨ (Reg.ofIndex index = none ∧ raise s .illegalCommand = t) := by
  show execReadReg index s = .next t ↔ _
  unfold execReadReg
  cases Reg.ofIndex index <;> simp

theorem exec_writeReg_next (index : Byte) (v : Word) (s t : State) :
    exec (.writeReg index v) s = .next t ↔
      (∃ r, Reg.ofIndex index = some r ∧ r.access = .rw ∧ respondOk (regWrite s r v) 0#32 0#32 = t)
      ∨ ((∀ r, Reg.ofIndex index = some r → r.access ≠ .rw) ∧ raise s .illegalCommand = t) := by
  show execWriteReg index v s = .next t ↔ _
  unfold execWriteReg
  cases h : Reg.ofIndex index with
  | none => simp
  | some r => by_cases ha : r.access = .rw <;> simp [ha]

theorem exec_processFrame_next (inL inR : Word) (s t : State) :
    exec (.processFrame inL inR) s = .next t ↔
      (s.status.ready = true ∧ s.whL.toNat < s.length.toNat ∧ s.whR.toNat < s.length.toNat
        ∧ frameResult s inL inR = t)
      ∨ (s.status.ready = false ∧ raiseWith s .notPrepared inL inR = t) := by
  show execProcessFrame inL inR s = .next t ↔ _
  rw [execProcessFrame, ifPrepared_next, frame_eq_some_iff]

theorem exec_dlWrite_next (ch : Channel) (v : Word) (s t : State) :
    exec (.dlWrite ch v) s = .next t ↔
      (s.status.ready = true ∧ (s.wh ch).toNat < s.length.toNat
        ∧ respondOk ((s.setRam ch (writeWord (s.ram ch) (s.wh ch).toNat v)).setWh ch (nextHead s.length (s.wh ch)))
            0#32 0#32 = t)
      ∨ (s.status.ready = false ∧ raiseWith s .notPrepared 0#32 0#32 = t) := by
  show execDlWrite ch v s = .next t ↔ _
  rw [execDlWrite, ifPrepared_next, Option.map_eq_some_iff]
  simp only [writeAndAdvance_eq_some_iff, and_assoc]
  constructor
  · rintro (⟨h, u, h1, h2, h3⟩ | h)
    · subst h2
      exact .inl ⟨h, h1, h3⟩
    · exact .inr h
  · rintro (⟨h, h1, h3⟩ | h)
    · exact .inl ⟨h, _, h1, rfl, h3⟩
    · exact .inr h

theorem exec_dlRead_next (ch : Channel) (d : Word) (s t : State) :
    exec (.dlRead ch d) s = .next t ↔
      (s.status.ready = true ∧ 0 < s.length.toNat
        ∧ respondOk s (wetSample s ch d) 0#32 = t)
      ∨ (s.status.ready = false ∧ raiseWith s .notPrepared 0#32 0#32 = t) := by
  show execDlRead ch d s = .next t ↔ _
  rw [execDlRead, ifPrepared_next, Option.map_eq_some_iff]
  constructor
  · rintro (⟨h, y, h1, h2⟩ | h)
    · have hp := readInterpolated_pos _ _ _ _ h1
      rw [readInterpolated_eq _ _ _ hp] at h1
      obtain rfl := Option.some.inj h1
      exact .inl ⟨h, hp, h2⟩
    · exact .inr h
  · rintro (⟨h, h1, h2⟩ | h)
    · exact .inl ⟨h, _, readInterpolated_eq _ _ _ h1, h2⟩
    · exact .inr h

end Sys2Proof.Machine
end

