-- ==== Sys2Proof/Laws/PerInstr.lean ====
section
/-! SUPPORT. Per-instruction laws, one lemma per constructor of Instr. -/

namespace Sys2Proof.Laws

/-- The words of every instruction match a row of the opcode table (R94). -/
def EncodeWellFormed.Statement (i : Instr) : Prop := (encode i).wellFormed = true

theorem wellFormed_of_row (row : OpcodeRow) (h : row ∈ opcodeRows) (r : Request) (hr : row.covers r.cmd = true) :
    r.wellFormed = true :=
  List.any_eq_true.2 ⟨row, h, hr⟩

/-- A command word with any `ARG` keeps its opcode and its zero `RSV`. -/
theorem cmdWord_covers (opc arg : Byte) (mnemonic : String) :
    OpcodeRow.covers ⟨mnemonic, cmdWord opc 0#8, 0xFF00FFFF#32⟩ (cmdWord opc arg) = true := by
  rw [OpcodeRow.covers, beq_iff_eq]
  apply BitVec.eq_of_getLsbD_eq
  intro k hk
  have h : ∀ k < 32, (0xFF00FFFF#32).getLsbD k = (decide (k < 16) || decide (24 ≤ k)) := by decide
  simp only [cmdWord, BitVec.getLsbD_and, BitVec.getLsbD_append, h k hk]
  by_cases h1 : k < 16
  · simp [h1]
  · by_cases h2 : k - 16 < 8
    · simp [h1, h2, show ¬ 24 ≤ k by omega]
    · simp [h1, h2, show 24 ≤ k by omega]

theorem EncodeWellFormed.nop : EncodeWellFormed.Statement .nop := by
  unfold EncodeWellFormed.Statement; decide

theorem EncodeWellFormed.configure (sampleRate : Word) : EncodeWellFormed.Statement (.configure sampleRate) :=
  wellFormed_of_row ⟨"CONFIGURE", 0x01000000#32, 0xFFFFFFFF#32⟩ (by decide) _
    (show OpcodeRow.covers _ (cmdWord 0x01#8 0#8) = true by decide)

theorem EncodeWellFormed.writeReg (index : Byte) (value : Word) : EncodeWellFormed.Statement (.writeReg index value) :=
  wellFormed_of_row ⟨"WRITE_REG", 0x02000000#32, 0xFF00FFFF#32⟩ (by decide) _ (cmdWord_covers 0x02#8 index _)

theorem EncodeWellFormed.readReg (index : Byte) : EncodeWellFormed.Statement (.readReg index) :=
  wellFormed_of_row ⟨"READ_REG", 0x03000000#32, 0xFF00FFFF#32⟩ (by decide) _ (cmdWord_covers 0x03#8 index _)

theorem EncodeWellFormed.processFrame (inL inR : Word) : EncodeWellFormed.Statement (.processFrame inL inR) :=
  wellFormed_of_row ⟨"PROCESS_FRAME", 0x10000000#32, 0xFFFFFFFF#32⟩ (by decide) _
    (show OpcodeRow.covers _ (cmdWord 0x10#8 0#8) = true by decide)

theorem EncodeWellFormed.dlWrite (ch : Channel) (sample : Word) : EncodeWellFormed.Statement (.dlWrite ch sample) :=
  wellFormed_of_row ⟨"DL_WRITE", 0x20000000#32, 0xFFFEFFFF#32⟩ (by decide) _
    (show OpcodeRow.covers _ (cmdWord 0x20#8 ch.arg) = true by cases ch <;> decide)

theorem EncodeWellFormed.dlRead (ch : Channel) (delay : Word) : EncodeWellFormed.Statement (.dlRead ch delay) :=
  wellFormed_of_row ⟨"DL_READ", 0x21000000#32, 0xFFFEFFFF#32⟩ (by decide) _
    (show OpcodeRow.covers _ (cmdWord 0x21#8 ch.arg) = true by cases ch <;> decide)

end Sys2Proof.Laws
end

