-- ==== Sys2Proof/Laws/Safety.lean ====
section
/-! SUPPORT. How the invariant of Safety.lean is carried from one state to another. -/

namespace Sys2Proof.Machine

/-- The parts of a ready block that the invariant speaks about, with the delay lines left open. -/
theorem State.Inv.of_ready {s t : State} (hs : s.Inv) (hr : s.status.ready = true) (hcfg : t.cfg = s.cfg)
    (hst : t.status.ready = true) (hlen : t.length = s.length) (hrate : t.sampleRate = s.sampleRate)
    (hram : t.RamGood) (hL : t.whL.toNat < t.length.toNat) (hR : t.whR.toNat < t.length.toNat) : t.Inv := by
  obtain ⟨h1, h2, h3, _, _⟩ := hs.2.2.1 hr
  refine ⟨hcfg ▸ hs.1, hram, fun _ => ⟨?_, ?_, ?_, hL, hR⟩, fun h => ?_⟩
  · rw [hlen, hcfg, hrate]
    exact h1
  · rw [hlen]
    exact h2
  · rw [hlen, hcfg]
    exact h3
  · rw [hst] at h
    cases h

/-- The delay RAMs right after reset and after every CONFIGURE. -/
theorem ramGood_zeroFilled (n : Nat) : ramWf zeroFilled = true ∧ ramBelow n zeroFilled = true := by
  simp [zeroFilled, ramWf, ramBelow]

end Sys2Proof.Machine
end

