-- ==== Sys2Proof/Laws/Series.lean ====
section
/-! SUPPORT. Alternating series, the rational bounds of π that Sine.lean takes from two of them, and how sharp they are. -/

namespace Sys2Proof.Machine

open Finset Filter

theorem alternating_eq_sum (a : Nat → ℚ) (n : Nat) :
    (alternating a n : ℝ) = ∑ i ∈ range (2 * n), (-1) ^ i * (a i : ℝ) := by
  induction n with
  | zero => simp [alternating]
  | succ n ih =>
    rw [alternating, show 2 * (n + 1) = 2 * n + 1 + 1 by ring, sum_range_succ, sum_range_succ]
    push_cast
    rw [ih, pow_succ, pow_mul]
    norm_num
    ring

theorem alternating_next (a : Nat → ℚ) (n : Nat) :
    ((alternating a n + a (2 * n) : ℚ) : ℝ) = ∑ i ∈ range (2 * n + 1), (-1) ^ i * (a i : ℝ) := by
  rw [sum_range_succ, ← alternating_eq_sum, pow_mul]
  norm_num

/-- Terms that fall to the limit of the series: an even number of them lies below it, one more above it. -/
theorem alternating_bounds (a : Nat → ℚ) (l : ℝ) (ha : Antitone (fun k => (a k : ℝ)))
    (hl : HasSum (fun k => (-1) ^ k * (a k : ℝ)) l) (n : Nat) :
    (alternating a n : ℝ) ≤ l ∧ l ≤ ((alternating a n + a (2 * n) : ℚ) : ℝ) := by
  rw [alternating_next, alternating_eq_sum]
  exact ⟨ha.alternating_series_le_tendsto hl.tendsto_sum_nat n, ha.tendsto_le_alternating_series hl.tendsto_sum_nat n⟩

/-! ### π -/

theorem arctanTerm_cast (q k : Nat) : (arctanTerm q k : ℝ) = 1 / ((2 * k + 1) * (q : ℝ) ^ (2 * k + 1)) := by
  simp [arctanTerm]

theorem arctanTerm_antitone (q : Nat) (hq : 1 ≤ q) : Antitone (fun k => (arctanTerm q k : ℝ)) := by
  refine antitone_nat_of_succ_le (fun k => ?_)
  have h1 : (1 : ℝ) ≤ q := by exact_mod_cast hq
  simp only [arctanTerm_cast]
  apply one_div_le_one_div_of_le (by positivity)
  have h2 : (q : ℝ) ^ (2 * k + 1) ≤ q ^ (2 * (k + 1) + 1) := pow_le_pow_right₀ h1 (by omega)
  push_cast
  gcongr
  linarith

theorem hasSum_arctanTerm (q : Nat) (hq : 2 ≤ q) :
    HasSum (fun k => (-1) ^ k * (arctanTerm q k : ℝ)) (Real.arctan (q : ℝ)⁻¹) := by
  have h2 : (2 : ℝ) ≤ q := by exact_mod_cast hq
  have h1 : ‖(q : ℝ)⁻¹‖ < 1 := by
    rw [norm_inv, Real.norm_of_nonneg (by linarith)]
    exact inv_lt_one_of_one_lt₀ (by linarith)
  have h3 := Real.hasSum_arctan h1
  convert h3 using 2 with k
  rw [arctanTerm_cast, inv_pow]
  push_cast
  field_simp

theorem arctanTerm_bounds (q : Nat) (hq : 2 ≤ q) (n : Nat) :
    (alternating (arctanTerm q) n : ℝ) ≤ Real.arctan (q : ℝ)⁻¹
      ∧ Real.arctan (q : ℝ)⁻¹ ≤ ((alternating (arctanTerm q) n + arctanTerm q (2 * n) : ℚ) : ℝ) :=
  alternating_bounds _ _ (arctanTerm_antitone q (by omega)) (hasSum_arctanTerm q hq) n

/-- The bounds of π are bounds of π. -/
theorem piBelow_le_pi (n : Nat) : (piBelow n : ℝ) ≤ Real.pi ∧ Real.pi ≤ (piAbove n : ℝ) := by
  have h5 := arctanTerm_bounds 5 (by omega) n
  have h239 := arctanTerm_bounds 239 (by omega) n
  have hm := Real.four_mul_arctan_inv_5_sub_arctan_inv_239
  unfold piBelow piAbove
  push_cast at h5 h239 ⊢
  constructor <;> linarith [h5.1, h5.2, h239.1, h239.2]

theorem piAbove_sub_piBelow (n : Nat) :
    piAbove n - piBelow n = 16 * arctanTerm 5 (2 * n) + 4 * arctanTerm 239 (2 * n) := by
  unfold piAbove piBelow
  ring

/-- How far the bounds of π lie apart. -/
theorem piAbove_sub_piBelow_le (n : Nat) : (piAbove n : ℝ) - piBelow n ≤ 4 * (1 / 2) ^ (4 * n) := by
  have h : (piAbove n : ℝ) - piBelow n = 16 * (arctanTerm 5 (2 * n) : ℝ) + 4 * (arctanTerm 239 (2 * n) : ℝ) := by
    exact_mod_cast congrArg (fun v : ℚ => (v : ℝ)) (piAbove_sub_piBelow n)
  have hq : ∀ q : Nat, 5 ≤ q → (arctanTerm q (2 * n) : ℝ) ≤ 1 / 5 * (1 / 2) ^ (4 * n) := by
    intro q hq
    have h5 : (5 : ℝ) ≤ q := by exact_mod_cast hq
    rw [arctanTerm_cast, show 2 * (2 * n) + 1 = 4 * n + 1 by ring, pow_succ, one_div_pow, ← one_div_mul_one_div_rev,
      ← one_div_mul_one_div_rev]
    have h1 : (1 : ℝ) / (2 * ((2 * n : Nat) : ℝ) + 1) ≤ 1 := by
      rw [div_le_one (by positivity)]
      have : (0 : ℝ) ≤ ((2 * n : Nat) : ℝ) := Nat.cast_nonneg _
      linarith
    have h2 : (1 : ℝ) / q ≤ 1 / 5 := one_div_le_one_div_of_le (by norm_num) h5
    have h3 : (1 : ℝ) / q ^ (4 * n) ≤ 1 / 2 ^ (4 * n) :=
      one_div_le_one_div_of_le (by positivity) (pow_le_pow_left₀ (by norm_num) (by linarith) _)
    calc (1 : ℝ) / q * (1 / q ^ (4 * n)) * (1 / (2 * ((2 * n : Nat) : ℝ) + 1))
        ≤ 1 / 5 * (1 / 2 ^ (4 * n)) * 1 := by gcongr
      _ = _ := by ring
  rw [h]
  linarith [hq 5 (by omega), hq 239 (by omega)]

end Sys2Proof.Machine
end

