-- ==== Sys2Proof/Laws/SineSeparation.lean ====
section
/-! SUPPORT. Why the refinement of Sine.lean ends (R7): the sine of a dyadic part of a cycle keeps a distance from every
rounding boundary, and bounds closer together than that distance round alike. -/

namespace Sys2Proof.Machine

/-! ### The terms of the sine -/

theorem sinTerm_cast (x : ℚ) (k : Nat) : (sinTerm x k : ℝ) = (x : ℝ) ^ (2 * k + 1) / (2 * k + 1).factorial := by
  simp [sinTerm]

theorem sinTerm_antitone (x : ℚ) (h0 : 0 ≤ (x : ℝ)) (h2 : (x : ℝ) ≤ 2) : Antitone (fun k => (sinTerm x k : ℝ)) := by
  refine antitone_nat_of_succ_le (fun k => ?_)
  simp only [sinTerm_cast]
  have hk : (0 : ℝ) ≤ k := Nat.cast_nonneg k
  have hf : ((2 * (k + 1) + 1).factorial : ℝ) = (2 * k + 3) * (2 * k + 2) * (2 * k + 1).factorial := by
    rw [show 2 * (k + 1) + 1 = 2 * k + 1 + 1 + 1 by ring, Nat.factorial_succ, Nat.factorial_succ]
    push_cast
    ring
  rw [hf, show 2 * (k + 1) + 1 = 2 * k + 1 + 2 by ring, pow_add, div_le_div_iff₀ (by positivity) (by positivity)]
  have hx : (x : ℝ) ^ 2 ≤ (2 * k + 3) * (2 * k + 2) := by nlinarith
  have hp : (0 : ℝ) ≤ (x : ℝ) ^ (2 * k + 1) * (2 * k + 1).factorial := by positivity
  nlinarith [mul_le_mul_of_nonneg_left hx hp]

theorem hasSum_sinTerm (x : ℚ) : HasSum (fun k => (-1) ^ k * (sinTerm x k : ℝ)) (Real.sin x) := by
  convert Real.hasSum_sin (x : ℝ) using 2 with k
  rw [sinTerm_cast]
  ring

/-- The first term left out by `n` pairs. -/
theorem sinTerm_le (x : ℚ) (h0 : 0 ≤ (x : ℝ)) (h2 : (x : ℝ) ≤ 2) (n : Nat) :
    (sinTerm x (2 * n) : ℝ) ≤ 6 * (1 / 2) ^ (4 * n) := by
  have hf : ∀ k : Nat, 4 ^ k ≤ 11 * k.factorial := by
    intro k
    induction k with
    | zero => decide
    | succ k ih =>
      by_cases hk : k < 4
      · interval_cases k <;> decide
      · rw [pow_succ, Nat.factorial_succ]
        calc 4 ^ k * 4 ≤ 11 * k.factorial * (k + 1) := Nat.mul_le_mul ih (by omega)
          _ = _ := by ring
  have h4 : (4 : ℝ) ^ (4 * n + 1) ≤ 11 * (4 * n + 1).factorial := by exact_mod_cast hf (4 * n + 1)
  have hx : (x : ℝ) ^ (4 * n + 1) ≤ 2 ^ (4 * n + 1) := pow_le_pow_left₀ h0 h2 _
  have h8 : (4 : ℝ) ^ (4 * n + 1) = 2 ^ (4 * n + 1) * 2 ^ (4 * n + 1) := by rw [← mul_pow]; norm_num
  have hp : (0 : ℝ) < 2 ^ (4 * n + 1) := by positivity
  rw [sinTerm_cast, show 2 * (2 * n) + 1 = 4 * n + 1 by ring, div_le_iff₀ (by positivity), one_div_pow]
  refine hx.trans ?_
  rw [h8] at h4
  have h5 : (2 : ℝ) ^ (4 * n + 1) = 2 ^ (4 * n) * 2 := pow_succ 2 (4 * n)
  have hq : (0 : ℝ) < 2 ^ (4 * n) := by positivity
  rw [h5] at h4 ⊢
  generalize (2 : ℝ) ^ (4 * n) = y at *
  rw [mul_one_div, div_mul_eq_mul_div, le_div_iff₀ hq]
  nlinarith

/-! ### The angle -/

theorem halfTurns_cast (t : Nat) : (halfTurns t : ℝ) = t / 2 ^ 148 := by
  rw [halfTurns, Rat.cast_div, Rat.cast_natCast, Rat.cast_natCast, Nat.cast_pow, Nat.cast_ofNat]

theorem halfTurns_le (t : Nat) (ht : t ≤ 2 ^ 147) : 0 ≤ (halfTurns t : ℝ) ∧ (halfTurns t : ℝ) ≤ 1 / 2 := by
  have h : (t : ℝ) ≤ 2 ^ 147 := by exact_mod_cast ht
  rw [halfTurns_cast]
  constructor
  · positivity
  · rw [div_le_div_iff₀ (by positivity) (by norm_num)]
    linarith

theorem piBelow_pos (n : Nat) (hn : 0 < n) : 0 < (piBelow n : ℝ) := by
  have h1 := (piBelow_le_pi n).2
  have h2 := piAbove_sub_piBelow_le n
  have h3 : ((1 : ℝ) / 2) ^ (4 * n) ≤ (1 / 2) ^ 4 := pow_le_pow_of_le_one (by norm_num) (by norm_num) (by omega)
  linarith [Real.pi_gt_three]

/-- The angle's lower bound lies between 0 and the angle, and the angle within a quarter cycle. -/
theorem angleBelow_bounds (n t : Nat) (hn : 0 < n) (ht : t ≤ 2 ^ 147) :
    0 ≤ (angleBelow n t : ℝ) ∧ (angleBelow n t : ℝ) ≤ Real.pi * halfTurns t
      ∧ Real.pi * halfTurns t ≤ angleBelow n t + (piAbove (2 * n) - piBelow (2 * n)) * halfTurns t
      ∧ Real.pi * halfTurns t ≤ Real.pi / 2 := by
  obtain ⟨h0, h1⟩ := halfTurns_le t ht
  obtain ⟨hb, ha⟩ := piBelow_le_pi (2 * n)
  have hp := piBelow_pos (2 * n) (by omega)
  unfold angleBelow
  push_cast
  refine ⟨by positivity, by gcongr, ?_, ?_⟩
  · nlinarith
  · nlinarith [Real.pi_pos]

/-! ### How close the bounds are -/

theorem sinBounds_close (n t : Nat) (hn : 0 < n) (ht : t ≤ 2 ^ 147) :
    (sinAbove n t : ℝ) - sinBelow n t ≤ 8 * (1 / 2) ^ (4 * n) := by
  obtain ⟨h0, h1, _, h3⟩ := angleBelow_bounds n t hn ht
  obtain ⟨g0, g1⟩ := halfTurns_le t ht
  have hs := sinTerm_le (angleBelow n t) h0 (by linarith [Real.pi_lt_d2]) n
  have hd := piAbove_sub_piBelow_le (2 * n)
  have hb := piBelow_le_pi (2 * n)
  have hq : ((1 : ℝ) / 2) ^ (4 * (2 * n)) ≤ (1 / 2) ^ (4 * n) :=
    pow_le_pow_of_le_one (by norm_num) (by norm_num) (by omega)
  have hm : ((piAbove (2 * n) : ℝ) - piBelow (2 * n)) * halfTurns t
      ≤ ((piAbove (2 * n) : ℝ) - piBelow (2 * n)) * (1 / 2) := by
    apply mul_le_mul_of_nonneg_left g1
    linarith
  unfold sinAbove
  push_cast
  linarith

/-- A sum of pairs of falling terms is not negative. -/
theorem alternating_nonneg (a : Nat → ℚ) (ha : Antitone (fun k => (a k : ℝ))) (n : Nat) :
    0 ≤ (alternating a n : ℝ) := by
  induction n with
  | zero => simp [alternating]
  | succ n ih =>
    have h : (a (2 * n + 1) : ℝ) ≤ a (2 * n) := ha (Nat.le_succ _)
    rw [alternating]
    push_cast
    linarith

theorem sinBelow_nonneg (n t : Nat) (hn : 0 < n) (ht : t ≤ 2 ^ 147) : 0 ≤ (sinBelow n t : ℝ) := by
  obtain ⟨h0, h1, _, h3⟩ := angleBelow_bounds n t hn ht
  exact alternating_nonneg _ (sinTerm_antitone _ h0 (by linarith [Real.pi_lt_d2])) n

/-! ### The distance of the sine from a dyadic number -/

/-- The cosine of the doubled angle. -/
noncomputable def cosDouble (x : ℝ) : ℝ := 2 * x ^ 2 - 1

theorem doubled_cos (x : ℝ) (j : Nat) : cosDouble^[j] (Real.cos x) = Real.cos (2 ^ j * x) := by
  induction j with
  | zero => simp
  | succ j ih =>
    rw [Function.iterate_succ_apply', ih, cosDouble, ← Real.cos_two_mul, pow_succ]
    ring_nf

theorem doubled_le (x : ℝ) (h : |x| ≤ 1) (j : Nat) : |cosDouble^[j] x| ≤ 1 := by
  induction j with
  | zero => exact h
  | succ j ih =>
    rw [Function.iterate_succ_apply', cosDouble, abs_le]
    obtain ⟨h1, h2⟩ := abs_le.1 ih
    constructor <;> nlinarith

theorem doubled_sub (x y : ℝ) (hx : |x| ≤ 1) (hy : |y| ≤ 1) (j : Nat) :
    |cosDouble^[j] x - cosDouble^[j] y| ≤ 4 ^ j * |x - y| := by
  induction j with
  | zero => simp
  | succ j ih =>
    rw [Function.iterate_succ_apply', Function.iterate_succ_apply']
    have h1 := doubled_le x hx j
    have h2 := doubled_le y hy j
    generalize cosDouble^[j] x = u at *
    generalize cosDouble^[j] y = v at *
    have h3 : cosDouble u - cosDouble v = 2 * (u + v) * (u - v) := by unfold cosDouble; ring
    have h4 : |2 * (u + v)| ≤ 4 := by
      rw [abs_mul, abs_two]
      linarith [abs_add_le u v]
    rw [h3, abs_mul, pow_succ]
    calc |2 * (u + v)| * |u - v| ≤ 4 * (4 ^ j * |x - y|) := mul_le_mul h4 ih (abs_nonneg _) (by norm_num)
      _ = _ := by ring

/-- A dyadic number stays dyadic. -/
theorem doubled_dyadic (a : Int) (e j : Nat) :
    ∃ b : Int, cosDouble^[j] ((a : ℝ) / 2 ^ e) = (b : ℝ) / 2 ^ (e * 2 ^ j) := by
  induction j with
  | zero => exact ⟨a, by simp⟩
  | succ j ih =>
    obtain ⟨b, hb⟩ := ih
    refine ⟨2 * b ^ 2 - 2 ^ (e * 2 ^ (j + 1)), ?_⟩
    rw [Function.iterate_succ_apply', hb, cosDouble, show e * 2 ^ (j + 1) = e * 2 ^ j + e * 2 ^ j by ring, pow_add]
    push_cast
    field_simp
    ring

/-- A doubled rational cosine is not 0. -/
theorem cosDouble_ne_zero (v : ℚ) : cosDouble v ≠ 0 := by
  intro h
  have h1 : (2 : ℝ) = (|2 * (v : ℝ)|) ^ 2 := by
    rw [sq_abs]
    unfold cosDouble at h
    linarith
  have h2 : Real.sqrt 2 = |2 * (v : ℝ)| :=
    (congrArg Real.sqrt h1).trans (Real.sqrt_sq (abs_nonneg _))
  exact irrational_sqrt_two ⟨|2 * v|, by rw [h2]; push_cast; rfl⟩

theorem doubled_ne_zero (a : Int) (e j : Nat) : cosDouble^[j + 1] ((a : ℝ) / 2 ^ e) ≠ 0 := by
  obtain ⟨b, hb⟩ := doubled_dyadic a e j
  rw [Function.iterate_succ_apply', hb]
  have h := cosDouble_ne_zero ((b : ℚ) / 2 ^ (e * 2 ^ j))
  push_cast at h
  exact h

/-- Some doubling of the angle that completes `t` units to a quarter cycle is an odd number of quarter cycles. -/
theorem exists_doubled_zero (t : Nat) (h0 : 0 < t) (h1 : t < 2 ^ 147) :
    ∃ j, j < 147 ∧ cosDouble^[j + 1] (Real.sin (Real.pi * halfTurns t)) = 0 := by
  obtain ⟨v, k, hk, hu⟩ := Nat.exists_eq_two_pow_mul_odd (n := 2 ^ 147 - t) (by omega)
  have hv : v < 147 := by
    by_contra hc
    have h2 : 2 ^ 147 ≤ 2 ^ v := Nat.pow_le_pow_right (by omega) (by omega)
    have h3 : 2 ^ v * 1 ≤ 2 ^ v * k := Nat.mul_le_mul_left _ hk.pos
    omega
  refine ⟨146 - v, by omega, ?_⟩
  have hu' : (2 : ℝ) ^ 147 - t = 2 ^ v * k := by
    have h2 : ((2 ^ 147 - t : Nat) : ℝ) = ((2 ^ v * k : Nat) : ℝ) := by rw [hu]
    rwa [Nat.cast_sub h1.le, Nat.cast_mul, Nat.cast_pow, Nat.cast_pow, Nat.cast_ofNat] at h2
  have hj : (2 : ℝ) ^ (146 - v + 1) * 2 ^ v = 2 ^ 147 := by
    rw [← pow_add]
    congr 1
    omega
  rw [← Real.cos_pi_div_two_sub, doubled_cos, Real.cos_eq_zero_iff]
  obtain ⟨l, rfl⟩ := hk
  refine ⟨l, ?_⟩
  have h3 : Real.pi / 2 - Real.pi * halfTurns t = Real.pi / 2 ^ 148 * (2 ^ v * ((2 * l + 1 : Nat) : ℝ)) := by
    rw [halfTurns_cast, ← hu']
    ring
  rw [h3]
  push_cast
  calc (2 : ℝ) ^ (146 - v + 1) * (Real.pi / 2 ^ 148 * (2 ^ v * (2 * l + 1)))
      = (2 ^ (146 - v + 1) * 2 ^ v) * (Real.pi / 2 ^ 148 * (2 * l + 1)) := by ring
    _ = _ := by rw [hj]; ring

/-- The sine of `t` units of a cycle, `t` strictly between 0 and a quarter, keeps this distance from every number with
150 binary places. -/
theorem sin_separated (t : Nat) (h0 : 0 < t) (h1 : t < 2 ^ 147) (m e : Nat) (he : 150 * 2 ^ 147 + 294 ≤ e) :
    (1 / 2 : ℝ) ^ e ≤ |Real.sin (Real.pi * halfTurns t) - m / 2 ^ 150| := by
  have key : ∀ m : Nat, m ≤ 2 ^ 150 → (1 / 2 : ℝ) ^ e ≤ |Real.sin (Real.pi * halfTurns t) - m / 2 ^ 150| := by
    intro m hm
    obtain ⟨j, hj, hz⟩ := exists_doubled_zero t h0 h1
    obtain ⟨b, hb⟩ := doubled_dyadic m 150 (j + 1)
    have hne := doubled_ne_zero m 150 j
    rw [Int.cast_natCast] at hb hne
    have hx : |(m : ℝ) / 2 ^ 150| ≤ 1 := by
      rw [abs_of_nonneg (by positivity), div_le_one (by positivity)]
      exact_mod_cast hm
    have hd := doubled_sub _ _ (Real.abs_sin_le_one (Real.pi * halfTurns t)) hx (j + 1)
    rw [hz, hb, zero_sub, abs_neg] at hd
    have hb1 : (1 : ℝ) ≤ |(b : ℝ)| := by
      have hb0 : b ≠ 0 := by
        rintro rfl
        exact hne (by rw [hb]; simp)
      exact_mod_cast Int.one_le_abs hb0
    rw [abs_div, abs_of_pos (show (0 : ℝ) < 2 ^ (150 * 2 ^ (j + 1)) by positivity)] at hd
    have hp : (1 : ℝ) ≤ 4 ^ (j + 1) * |Real.sin (Real.pi * halfTurns t) - m / 2 ^ 150| * 2 ^ (150 * 2 ^ (j + 1)) := by
      have := (div_le_iff₀ (by positivity)).1 hd
      linarith
    have h4 : (4 : ℝ) ^ (j + 1) = 2 ^ (2 * (j + 1)) := by rw [pow_mul]; norm_num
    have hle : 2 * (j + 1) + 150 * 2 ^ (j + 1) ≤ e := by
      have : 2 ^ (j + 1) ≤ 2 ^ 147 := Nat.pow_le_pow_right (by omega) (by omega)
      omega
    rw [one_div_pow, div_le_iff₀ (by positivity)]
    have h5 : (2 : ℝ) ^ (2 * (j + 1) + 150 * 2 ^ (j + 1)) ≤ 2 ^ e := pow_le_pow_right₀ (by norm_num) hle
    rw [pow_add, ← h4] at h5
    have h6 := abs_nonneg (Real.sin (Real.pi * halfTurns t) - m / 2 ^ 150)
    nlinarith [mul_le_mul_of_nonneg_left h5 h6]
  by_cases hm : m ≤ 2 ^ 150
  · exact key m hm
  · refine (key (2 ^ 150) le_rfl).trans ?_
    have h2 : (2 : ℝ) ^ 150 ≤ m := by exact_mod_cast (not_le.1 hm).le
    have h3 : (1 : ℝ) ≤ m / 2 ^ 150 := by rwa [le_div_iff₀ (by positivity), one_mul]
    have h4 := Real.sin_le_one (Real.pi * halfTurns t)
    rw [Nat.cast_pow, Nat.cast_ofNat, div_self (by positivity), abs_of_nonpos (by linarith), abs_of_nonpos (by linarith)]
    linarith

/-! ### Bounds that round alike -/

theorem rndRat_nonneg (neg : Bool) (v : ℚ) (h : 0 ≤ (v : ℝ)) :
    ∃ n d : Nat, 0 < d ∧ rndRat neg v = packSign neg (rndBits n d) ∧ (n : ℝ) = 2 ^ 149 * v * d := by
  refine ⟨unitsPerOne * v.num.natAbs, v.den, v.den_pos, rfl, ?_⟩
  have h1 : 0 ≤ v.num := Rat.num_nonneg.2 (by exact_mod_cast h)
  have h2 : ((v.num.natAbs : Nat) : ℝ) = v * v.den := by
    have h3 : ((v.num.natAbs : Int) : ℝ) = ((v * v.den : ℚ) : ℝ) := by
      rw [Rat.mul_den_eq_num, Int.natAbs_of_nonneg h1]
      simp
    rwa [Int.cast_natCast, Rat.cast_mul, Rat.cast_natCast] at h3
  push_cast
  rw [h2, unitsPerOne]
  push_cast
  ring

/-- Two rationals between which no midpoint of neighbouring binary32 numbers lies round alike. -/
theorem rndRat_eq_of_no_boundary (neg : Bool) (v w : ℚ) (hv : 0 ≤ (v : ℝ)) (hvw : (v : ℝ) ≤ w)
    (h : ∀ m : Nat, ¬ ((v : ℝ) ≤ m / 2 ^ 150 ∧ (m : ℝ) / 2 ^ 150 ≤ w)) : rndRat neg v = rndRat neg w := by
  obtain ⟨n1, d1, hd1, e1, c1⟩ := rndRat_nonneg neg v hv
  obtain ⟨n2, d2, hd2, e2, c2⟩ := rndRat_nonneg neg w (hv.trans hvw)
  have p1 : (0 : ℝ) < d1 := by exact_mod_cast hd1
  have p2 : (0 : ℝ) < d2 := by exact_mod_cast hd2
  rw [e1, e2]
  congr 1
  have side : ∀ m : Nat, (2 * n1 ≤ (magOfBits m + magOfBits (m + 1)) * d1 →
      ¬ (magOfBits m + magOfBits (m + 1)) * d2 ≤ 2 * n2) := by
    intro m ha hb
    have ha' : (2 : ℝ) * n1 ≤ ((magOfBits m + magOfBits (m + 1) : Nat) : ℝ) * d1 := by exact_mod_cast ha
    have hb' : ((magOfBits m + magOfBits (m + 1) : Nat) : ℝ) * d2 ≤ 2 * n2 := by exact_mod_cast hb
    apply h (magOfBits m + magOfBits (m + 1))
    rw [c1] at ha'
    rw [c2] at hb'
    constructor
    · rw [le_div_iff₀ (by positivity)]
      nlinarith
    · rw [div_le_iff₀ (by positivity)]
      nlinarith
  have below : ∀ m : Nat, (magOfBits m + magOfBits (m + 1)) * d1 < 2 * n1 →
      (magOfBits m + magOfBits (m + 1)) * d2 < 2 * n2 := by
    intro m ha
    have ha' : ((magOfBits m + magOfBits (m + 1) : Nat) : ℝ) * d1 < 2 * n1 := by exact_mod_cast ha
    have hb' : ((magOfBits m + magOfBits (m + 1) : Nat) : ℝ) * d2 < 2 * n2 := by
      rw [c1] at ha'
      rw [c2]
      have h1 : ((magOfBits m + magOfBits (m + 1) : Nat) : ℝ) < 2 * (2 ^ 149 * v) := by nlinarith
      nlinarith
    exact_mod_cast hb'
  have i1 := rndBits_le_inf n1 d1
  have i2 := rndBits_le_inf n2 d2
  rcases Nat.lt_trichotomy (rndBits n1 d1) (rndBits n2 d2) with hlt | heq | hgt
  · exfalso
    have ha : 2 * n1 ≤ (magOfBits (rndBits n1 d1) + magOfBits (rndBits n1 d1 + 1)) * d1 := by
      by_contra hc
      have := rndBits_ge_of_mid_lt n1 d1 (rndBits n1 d1) hd1 (by omega) (by omega)
      omega
    have hb := side _ ha
    have := rndBits_le_of_lt_mid n2 d2 (rndBits n1 d1) hd2 (by omega)
    omega
  · exact heq
  · exfalso
    by_cases ha : 2 * n1 < (magOfBits (rndBits n2 d2) + magOfBits (rndBits n2 d2 + 1)) * d1
    · have := rndBits_le_of_lt_mid n1 d1 (rndBits n2 d2) hd1 ha
      omega
    · by_cases hb : 2 * n1 = (magOfBits (rndBits n2 d2) + magOfBits (rndBits n2 d2 + 1)) * d1
      · have hc := side (rndBits n2 d2) hb.le
        have h3 : ((2 * n1 : Nat) : ℝ) = ((magOfBits (rndBits n2 d2) + magOfBits (rndBits n2 d2 + 1) : Nat) : ℝ) * d1 := by
          exact_mod_cast congrArg (fun x : Nat => (x : ℝ)) hb
        apply hc
        have h4 : ((magOfBits (rndBits n2 d2) + magOfBits (rndBits n2 d2 + 1) : Nat) : ℝ) * d2 ≤ ((2 * n2 : Nat) : ℝ) := by
          push_cast at h3 ⊢
          rw [c1] at h3
          rw [c2]
          have h5 : 2 * (2 ^ 149 * (v : ℝ)) = magOfBits (rndBits n2 d2) + magOfBits (rndBits n2 d2 + 1) := by
            apply mul_right_cancel₀ p1.ne'
            linarith
          rw [← h5]
          nlinarith
        exact_mod_cast h4
      · have hb' := below (rndBits n2 d2) (by omega)
        have := rndBits_ge_of_mid_lt n2 d2 (rndBits n2 d2) hd2 (by omega) hb'
        omega

/-- Bounds of the sine that are closer together than the distance of `sin_separated` round alike. -/
theorem sinBounds_round_alike (neg : Bool) (n t : Nat) (h0 : 0 < t) (h1 : t < 2 ^ 147)
    (hn : 150 * 2 ^ 147 + 300 ≤ 4 * n)
    (hb : (sinBelow n t : ℝ) ≤ Real.sin (Real.pi * halfTurns t) ∧ Real.sin (Real.pi * halfTurns t) ≤ sinAbove n t) :
    rndRat neg (sinBelow n t) = rndRat neg (sinAbove n t) := by
  have hn0 : 0 < n := by omega
  refine rndRat_eq_of_no_boundary neg _ _ (sinBelow_nonneg n t hn0 h1.le) (hb.1.trans hb.2) ?_
  rintro m ⟨hlo, hhi⟩
  obtain ⟨e, he⟩ : ∃ e, 4 * n = e + 4 := ⟨4 * n - 4, by omega⟩
  have hs := sin_separated t h0 h1 m e (by omega)
  have hc := sinBounds_close n t hn0 h1.le
  rw [he, pow_add] at hc
  have hp : (0 : ℝ) < (1 / 2) ^ e := by positivity
  have hd : |Real.sin (Real.pi * halfTurns t) - m / 2 ^ 150| ≤ (sinAbove n t : ℝ) - sinBelow n t := by
    rw [abs_le]
    constructor <;> linarith [hb.1, hb.2]
  linarith

/-- What the refinement answers: the rounding of a lower bound, at a level where both bounds round alike or at the
last one. -/
theorem sinRefine_ends (neg : Bool) (t fuel n : Nat) :
    ∃ k, k ≤ fuel ∧ sinRefine neg t fuel n = rndRat neg (sinBelow (2 ^ k * n) t)
      ∧ (rndRat neg (sinBelow (2 ^ k * n) t) = rndRat neg (sinAbove (2 ^ k * n) t) ∨ k = fuel) := by
  induction fuel generalizing n with
  | zero => exact ⟨0, le_rfl, by rw [pow_zero, one_mul, sinRefine], .inr rfl⟩
  | succ fuel ih =>
    rw [sinRefine]
    split
    · next h => exact ⟨0, Nat.zero_le _, by rw [pow_zero, one_mul], .inl (by rwa [pow_zero, one_mul])⟩
    · obtain ⟨k, hk, h1, h2⟩ := ih (2 * n)
      have he : 2 ^ k * (2 * n) = 2 ^ (k + 1) * n := by ring
      rw [he] at h1 h2
      exact ⟨k + 1, by omega, h1, h2.imp id (by omega)⟩

end Sys2Proof.Machine
end

