-- ==== Sys2Proof/Machine/Assembler.lean ====
section
/-! DEFINITION. The host's assembler (spec/30_encoding.md R98 to R104): from one line of text, as a list of characters, to
the requests it stands for. It is no part of the block's state or step. notes/assumptions/17.md. -/

namespace Sys2Proof.Machine

/-- A blank of assembler text. -/
def isBlank (c : Char) : Bool := c == ' ' || c == '\t' || c == '\r'

/-- The text without blanks at its ends. -/
def trimBlanks (cs : List Char) : List Char := ((cs.dropWhile isBlank).reverse.dropWhile isBlank).reverse

/-- The pieces of the text between separators. -/
def splitAtChar (sep : Char) (cs : List Char) : List (List Char) :=
  match cs with
  | [] => [[]]
  | c :: rest =>
    if c = sep then [] :: splitAtChar sep rest
    else match splitAtChar sep rest with
      | [] => [[c]]
      | piece :: more => (c :: piece) :: more

/-- Names are case-insensitive (R98): the text spells the name. -/
def spells (cs : List Char) (name : String) : Bool := cs.map Char.toUpper == name.toList

/-- The value of a decimal digit. -/
def decDigit (c : Char) : Option Nat :=
  if '0'.toNat ≤ c.toNat ∧ c.toNat ≤ '9'.toNat then some (c.toNat - '0'.toNat) else none

/-- The value of a hexadecimal digit, of either case. -/
def hexDigit (c : Char) : Option Nat :=
  if 'A'.toNat ≤ c.toUpper.toNat ∧ c.toUpper.toNat ≤ 'F'.toNat then some (c.toUpper.toNat - 'A'.toNat + 10)
  else decDigit c

/-- The number that digits spell in a base, continuing from `acc`; none at a character that is no digit. -/
def digitsFrom (digit : Char → Option Nat) (base : Nat) (acc : Nat) (cs : List Char) : Option Nat :=
  match cs with
  | [] => some acc
  | c :: rest =>
    match digit c with
    | some d => digitsFrom digit base (acc * base + d) rest
    | none => none

/-- One or more decimal digits. -/
def decNat (cs : List Char) : Option Nat := if cs = [] then none else digitsFrom decDigit 10 0 cs

/-- `0x` followed by exactly 8 hexadecimal digits, as a 32-bit pattern (R99). -/
def hexWord (cs : List Char) : Option Word :=
  match cs with
  | '0' :: 'x' :: ds => if ds.length = 8 then (digitsFrom hexDigit 16 0 ds).map (BitVec.ofNat 32) else none
  | _ => none

/-- An optional sign, and the rest: true for `-`. -/
def takeSign (cs : List Char) : Bool × List Char :=
  match cs with
  | '+' :: rest => (false, rest)
  | '-' :: rest => (true, rest)
  | _ => (false, cs)

/-- The binary32 nearest `± m * 10^e / 10^k`, ties to even; a zero keeps its sign (R99). -/
def decimalWord (neg : Bool) (m e k : Nat) : Word := rnd neg (unitsPerOne * (m * 10 ^ e)) (10 ^ k)

/-- `digits[.digits]` as its digits' number and how many of them follow the point. -/
def decMantissa (cs : List Char) : Option (Nat × Nat) :=
  match splitAtChar '.' cs with
  | [whole] => (decNat whole).map (fun n => (n, 0))
  | [whole, frac] =>
    if whole = [] ∨ frac = [] then none else (decNat (whole ++ frac)).map (fun n => (n, frac.length))
  | _ => none

/-- `[+|-]digits[.digits][(e|E)[+|-]digits]` as a binary32 (R99). -/
def decimal (cs : List Char) : Option Word :=
  match splitAtChar 'E' ((takeSign cs).2.map Char.toUpper) with
  | [m] => (decMantissa m).map (fun v => decimalWord (takeSign cs).1 v.1 0 v.2)
  | [m, e] =>
    match decMantissa m, decNat (takeSign e).2 with
    | some v, some x =>
      some (if (takeSign e).1 then decimalWord (takeSign cs).1 v.1 0 (v.2 + x) else decimalWord (takeSign cs).1 v.1 x v.2)
    | _, _ => none
  | _ => none

/-- `b32(x)` of R99. -/
def asmB32 (cs : List Char) : Option Word :=
  if spells cs "+INF" then some (infinity false)
  else if spells cs "-INF" then some (infinity true)
  else if spells cs "NAN" then some QNAN
  else match hexWord cs with
    | some w => some w
    | none => decimal cs

/-- A u32 value of R99: `0x` and 8 hexadecimal digits, or a decimal integer 0 to 4294967295. -/
def asmU32 (cs : List Char) : Option Word :=
  match hexWord cs with
  | some w => some w
  | none =>
    match decNat cs with
    | some n => if n < 2 ^ 32 then some (BitVec.ofNat 32 n) else none
    | none => none

/-- The registers with their names (R33, R99). -/
def regNames : List (String × Reg) := [
  ("DRYWET", .dryWet), ("DEPTH", .depth), ("RATE", .rate), ("PHASE_OFFSET", .phaseOffset), ("FEEDBACK", .feedback),
  ("TYPE", .effectType), ("SAMPLE_RATE", .sampleRate), ("LENGTH", .length), ("STATUS", .status), ("ID", .id),
  ("VERSION", .version), ("CAPACITY", .capacity), ("MAX_DELAY", .maxDelay), ("LFO_PHASE", .lfoPhase),
  ("SMOOTH_RATE", .smoothRate), ("SMOOTH_DEPTH", .smoothDepth), ("SMOOTH_PHASE_OFFSET", .smoothPhaseOffset),
  ("FB_L", .fbL), ("FB_R", .fbR), ("WH_L", .whL), ("WH_R", .whR)]

/-- `idx(reg)` of R99: a register name, or a number 0 to 255. -/
def asmRegIndex (cs : List Char) : Option Byte :=
  match regNames.find? (fun e => spells cs e.1) with
  | some e => some e.2.index
  | none =>
    match decNat cs with
    | some n => if n < 256 then some (BitVec.ofNat 8 n) else none
    | none => none

/-- The registers that hold a u32 (R33). -/
def Reg.isU32 (r : Reg) : Bool :=
  match r with
  | .effectType | .length | .status | .id | .version | .capacity | .whL | .whR => true
  | .dryWet | .depth | .rate | .phaseOffset | .feedback | .sampleRate | .maxDelay | .lfoPhase | .smoothRate
  | .smoothDepth | .smoothPhaseOffset | .fbL | .fbR => false

/-- CHORUS is 0 and FLANGER is 1 (R99). -/
def asmTypeName (cs : List Char) : Option Word :=
  if spells cs "CHORUS" then some 0#32 else if spells cs "FLANGER" then some 1#32 else none

/-- `val(reg, v)` of R99, by the register at the index. -/
def asmRegValue (index : Byte) (cs : List Char) : Option Word :=
  match Reg.ofIndex index with
  | some .effectType => match asmTypeName cs with
    | some w => some w
    | none => asmU32 cs
  | some r => if r.isU32 then asmU32 cs else asmB32 cs
  | none => asmU32 cs

/-- `ch` of R99. -/
def asmChannel (cs : List Char) : Option Channel :=
  if spells cs "L" || spells cs "0" then some .left
  else if spells cs "R" || spells cs "1" then some .right
  else none

/-- `WRITE_REG reg, v` (R98). -/
def asmWriteReg (reg v : List Char) : Option Instr :=
  match asmRegIndex reg with
  | some index => (asmRegValue index v).map (fun w => .writeReg index w)
  | none => none

/-- `PROCESS_FRAME l, r` (R98). -/
def asmFrame (l r : List Char) : Option Instr :=
  match asmB32 l, asmB32 r with
  | some a, some b => some (.processFrame a b)
  | _, _ => none

/-- The frames of PROCESS_BLOCK (R104), from the operands `(l0`, `r0)`, `(l1`, `r1)`, …. -/
def asmFrames (ops : List (List Char)) : Option (List Instr) :=
  match ops with
  | [] => some []
  | l :: r :: rest =>
    match l, r.reverse with
    | '(' :: l', ')' :: r' =>
      match asmFrame (trimBlanks l') (trimBlanks r'.reverse), asmFrames rest with
      | some f, some fs => some (f :: fs)
      | _, _ => none
    | _, _ => none
  | _ => none

/-- SET_PARAMS (R101): the six parameters in the order of R101. -/
def asmSetParams (ops : List (List Char)) : Option (List Instr) :=
  match ops with
  | [dw, dp, rt, po, fb, ty] =>
    [("DRYWET", dw), ("DEPTH", dp), ("RATE", rt), ("PHASE_OFFSET", po), ("FEEDBACK", fb), ("TYPE", ty)].mapM
      (fun e => asmWriteReg e.1.toList e.2)
  | _ => none

/-- One command or pseudo-instruction with its operands (R98, R101 to R104). -/
def asmCommand (mnemonic : List Char) (ops : List (List Char)) : Option (List Instr) :=
  if spells mnemonic "SET_PARAMS" then asmSetParams ops
  else if spells mnemonic "PROCESS_BLOCK" then asmFrames ops
  else match ops with
    | [] =>
      if spells mnemonic "NOP" then some [.nop]
      else if spells mnemonic "CLEAR_STATUS" then some [.writeReg Reg.status.index 0x0000000E#32]
      else none
    | [a] =>
      if spells mnemonic "CONFIGURE" then (asmB32 a).map (fun w => [.configure w])
      else if spells mnemonic "READ_REG" then (asmRegIndex a).map (fun i => [.readReg i])
      else if spells mnemonic "SET_TYPE" then (asmTypeName a).map (fun w => [.writeReg Reg.effectType.index w])
      else none
    | [a, b] =>
      if spells mnemonic "WRITE_REG" then (asmWriteReg a b).map (fun i => [i])
      else if spells mnemonic "PROCESS_FRAME" then (asmFrame a b).map (fun i => [i])
      else if spells mnemonic "DL_WRITE" then
        (match asmChannel a, asmB32 b with
        | some ch, some w => some [.dlWrite ch w]
        | _, _ => none)
      else if spells mnemonic "DL_READ" then
        (match asmChannel a, asmB32 b with
        | some ch, some w => some [.dlRead ch w]
        | _, _ => none)
      else none
    | _ => none

/-- The line without its comment and its label (R98): `[label:] … [; comment]`. -/
def asmBody (line : List Char) : List Char :=
  let code := line.takeWhile (fun c => c != ';')
  trimBlanks (if code.contains ':' then (code.dropWhile (fun c => c != ':')).drop 1 else code)

/-- The operands, separated by commas; no text is no operand. -/
def asmOperands (cs : List Char) : List (List Char) :=
  if trimBlanks cs = [] then [] else (splitAtChar ',' cs).map trimBlanks

/-- The instructions of one line of assembler text (R98); a line with no command stands for none. -/
def asmLine (line : List Char) : Option (List Instr) :=
  match asmBody line with
  | [] => some []
  | body => asmCommand (body.takeWhile (fun c => !isBlank c)) (asmOperands (body.dropWhile (fun c => !isBlank c)))

/-- The requests of an assembler text, line by line. -/
def assemble (text : List Char) : Option (List Request) :=
  ((splitAtChar '\n' text).mapM asmLine).map (fun ls => ls.flatten.map encode)

end Sys2Proof.Machine
end

