-- ==== Sys2Proof/Tests/Slice0.lean ====
section
/-! SUPPORT. Tests: words and results taken from spec/30_encoding.md R94, R100 and spec/95_test_vectors.md, one step each;
and, for every obligation with hypotheses, a witness that meets them together. -/

namespace Sys2Proof.Tests

-- One test after another: checked at once, each holds a thread while the kernel evaluates the others.
set_option Elab.async false

open Sys2Proof Sys2Proof.Machine

/-- The outcome is a next state with the property. -/
def ends (o : Host.Outcome State Fault Refusal) (p : State → Bool) : Bool :=
  match o with
  | .next t => p t
  | _ => false

theorem exists_of_ends {o : Host.Outcome State Fault Refusal} {p : State → Bool} (h : ends o p = true) :
    ∃ t, o = .next t ∧ p t = true := by
  cases o with
  | next t => exact ⟨t, rfl, h⟩
  | fault r => cases h
  | refused r => cases h

/-- The latest response is the given one. -/
def answered (code : RespCode) (res0 res1 : Word) (t : State) : Bool := t.answers.head? == some ⟨code, res0, res1⟩

/-- A block configured at the rate, with the length that V-CFG gives for it. -/
def configured (rate length : Word) : State :=
  { State.reset with sampleRate := rate, length := length, status := ⟨true, false, false, false⟩ }

/-- The setup of V-DL-4: L = 4, the left line holds 1.0, 2.0, 3.0, +0.0, WH_L = 3. -/
def dl4 : State :=
  { configured 0x40000000#32 4#32 with
    whL := 3#32
    ramL := writeWord (writeWord (writeWord [] 0 0x3F800000#32) 1 0x40000000#32) 2 0x40400000#32 }

/-- The setup of V-PF-TRACE: S_cfg(1000), then SET_PARAMS 0.5, 1.0, 20.0, 0.5, 0, CHORUS. -/
def trace0 : State :=
  { configured 0x447A0000#32 2000#32 with
    dryWet := 0x3F000000#32, depth := 0x3F800000#32, rate := 0x41A00000#32, phaseOffset := 0x3F000000#32 }

/-! ### Decoding: words written out from R94 and R100 -/

theorem test_decode_nop : decode ⟨0x00000000#32, 0x3F800000#32, 0xDEADBEEF#32⟩ = .command .nop := by decide
theorem test_decode_configure :
    decode ⟨0x01000000#32, 0x473B8000#32, 0#32⟩ = .command (.configure 0x473B8000#32) := by decide
theorem test_decode_writeReg :
    decode ⟨0x02010000#32, 0x3F000000#32, 0#32⟩ = .command (.writeReg 0x01#8 0x3F000000#32) := by decide
theorem test_decode_readReg : decode ⟨0x03170000#32, 0#32, 0#32⟩ = .command (.readReg 0x17#8) := by decide
theorem test_decode_processFrame :
    decode ⟨0x10000000#32, 0x3F800000#32, 0xBF800000#32⟩
      = .command (.processFrame 0x3F800000#32 0xBF800000#32) := by decide
theorem test_decode_dlWrite :
    decode ⟨0x20010000#32, 0x3E800000#32, 0#32⟩ = .command (.dlWrite .right 0x3E800000#32) := by decide
theorem test_decode_dlRead :
    decode ⟨0x21000000#32, 0x40200000#32, 0#32⟩ = .command (.dlRead .left 0x40200000#32) := by decide

/-- The thirteen command words of V-DEC. -/
def illegalWords : List Word := [0x00010000#32, 0x00000001#32, 0x01000001#32, 0x01010000#32, 0x04000000#32, 0x11000000#32,
  0x22000000#32, 0xFF000000#32, 0x20020000#32, 0x21FF0000#32, 0x02000001#32, 0x03000100#32, 0x10000001#32]

theorem test_decode_refuses_illegalWords :
    illegalWords.all (fun w => match decode ⟨w, 0x3F800000#32, 0#32⟩ with | .illegal _ => true | .command _ => false)
      = true := by decide
theorem test_decode_names_the_cause :
    decode ⟨0x00010000#32, 0#32, 0#32⟩ = .illegal .nonzeroArg ∧ decode ⟨0x20020000#32, 0#32, 0#32⟩ = .illegal .channelOutOfRange
      ∧ decode ⟨0x11000000#32, 0#32, 0#32⟩ = .illegal .reservedOpcode
      ∧ decode ⟨0x10000001#32, 0#32, 0#32⟩ = .illegal .nonzeroRsv := by decide

/-- No command word matches two rows of the opcode table. -/
theorem test_opcodeRows_disjoint :
    opcodeRows.Pairwise (fun a b => (a.pattern ^^^ b.pattern) &&& a.mask &&& b.mask ≠ 0#32) := by decide

theorem test_decodeTableWord :
    decodeTableWord 32 0x20010000 = some (.dlWrite .right 0#32)
      ∧ decodeTableWord 96 0xBF8000003F80000010000000 = some (.processFrame 0x3F800000#32 0xBF800000#32)
      ∧ decodeTableWord 32 0x20020000 = none := by decide

/-! ### Well-formedness: an ill-formed term for each check -/

theorem test_wellFormed_refuses_illegalWords :
    illegalWords.all (fun w => !(Request.wellFormed ⟨w, 0#32, 0#32⟩)) = true := by decide
theorem test_wellFormed_accepts : Request.wellFormed ⟨0x21010000#32, 0#32, 0#32⟩ = true := by decide
theorem test_params_default_legal : Params.default.legal = true := by decide +kernel
theorem test_params_no_capacity : ({ Params.default with bufCapacity := 0#32 } : Params).legal = false := by decide +kernel
theorem test_params_capacity_above_2_24 :
    ({ Params.default with bufCapacity := 0x01000001#32 } : Params).legal = false := by decide +kernel
theorem test_params_bad_maxDelay :
    [0x00000000#32, 0xBF800000#32, 0x7F800000#32, 0x7FC00000#32].all
      (fun w => !({ Params.default with maxDelaySeconds := w } : Params).legal) = true := by decide +kernel
theorem test_params_bad_smoothCoef :
    [0x00000000#32, 0xBF800000#32, 0x3F800001#32, 0x7F800000#32, 0x7FC00000#32].all
      (fun w => !({ Params.default with smoothCoef := w } : Params).legal) = true := by decide +kernel

/-! ### One command each (spec/95_test_vectors.md, section 2) -/

/-- V-NOP. -/
theorem test_nop : ends (exec .nop dl4) (fun t => t == { dl4 with answers := [⟨.ok, 0#32, 0#32⟩] }) = true := by decide +kernel
/-- V-CFG, 0.5: one word. -/
theorem test_configure_half :
    ends (exec (.configure 0x3F000000#32) dl4)
      (fun t => t == { configured 0x3F000000#32 1#32 with answers := [⟨.ok, 0#32, 0#32⟩] }) = true := by decide +kernel
/-- V-CFG, 262144.5: above BUF_CAPACITY. -/
theorem test_configure_above_capacity :
    ends (exec (.configure 0x48800010#32) dl4) (fun t => answered .allocError 0#32 0#32 t && t.length == 0#32
      && t.status == ⟨false, true, false, false⟩ && t.sampleRate == 0#32) = true := by decide +kernel
/-- V-REG-RW: TYPE stores 1 for any nonzero value. -/
theorem test_writeReg_type :
    ends (exec (.writeReg 0x05#8 0x80000000#32) State.reset)
      (fun t => answered .ok 0#32 0#32 t && t.effectType == .flanger) = true := by decide +kernel
/-- V-REG-STATUS: `WRITE_REG STATUS, 4` turns 0x0000000F into 0x0000000B. -/
theorem test_writeReg_status :
    ends (exec (.writeReg 0x0A#8 0x00000004#32) { State.reset with status := ⟨true, true, true, true⟩ })
      (fun t => t.status.word == 0x0000000B#32) = true := by decide +kernel
/-- V-REG-RW: a signalling NaN is read bit for bit. -/
theorem test_readReg_rate :
    ends (exec (.readReg 0x02#8) { State.reset with rate := 0x7FA00001#32 }) (answered .ok 0x7FA00001#32 0#32) = true := by
  decide +kernel
/-- V-REG-RW: a reserved index. -/
theorem test_readReg_reserved :
    ends (exec (.readReg 24#8) dl4) (fun t => answered .illegalCommand 0#32 0#32 t && t.status.illErr) = true := by
  decide +kernel
/-- V-DL-4, continued: the write at index 3 wraps the head. -/
theorem test_dlWrite_wraps :
    ends (exec (.dlWrite .left 0x40800000#32) dl4)
      (fun t => t.whL == 0#32 && readWord t.ramL 3 == 0x40800000#32 && readWord t.ramL 2 == 0x40400000#32) = true := by
  decide +kernel
/-- V-DL-4: the delays 2.25, 3.5 (wrapped), 7.5 (not wrapped again) and NaN. -/
theorem test_dlRead_rows :
    [(0x40100000#32, 0x3FE00000#32), (0x40600000#32, 0x3F000000#32), (0x40F00000#32, 0x3F000000#32),
      (0x7FC00000#32, 0x3F800000#32)].all
      (fun r => ends (exec (.dlRead .left r.1) dl4) (answered .ok r.2 0#32)) = true := by decide +kernel
/-- V-DL-4, continued: the right line was never written. -/
theorem test_dlRead_right : ends (exec (.dlRead .right 0x3F800000#32) dl4) (answered .ok 0#32 0#32) = true := by decide +kernel
/-- V-PF-TRACE, frame 0. -/
theorem test_processFrame_trace :
    ends (exec (.processFrame 0x3E800000#32 0xBE800000#32) trace0) (fun t =>
      answered .ok 0x3E000000#32 0xBE000000#32 t && t.smoothPhaseOffset == 0x3851B717#32 && t.smoothRate == 0x3B03126E#32
        && t.lfoPhase == 0x360637BC#32 && t.smoothDepth == 0x38D1B717#32 && t.whL == 1#32 && t.whR == 1#32
        && readWord t.ramL 0 == 0x3E800000#32 && readWord t.ramR 0 == 0xBE800000#32) = true := by decide +kernel
/-- V-PF-NP: the pass-through keeps the bits. -/
theorem test_processFrame_notPrepared :
    ends (exec (.processFrame 0x7FA00001#32 0x80000000#32) State.reset)
      (fun t => answered .notPrepared 0x7FA00001#32 0x80000000#32 t
        && t == { State.reset with status := ⟨false, false, true, false⟩, answers := t.answers }) = true := by decide +kernel
/-- V-LFO. -/
theorem test_lfoSine :
    sinCycles 0x3E000000#32 = 0x3F3504F3#32 ∧ sinCycles 0x3DCCCCCD#32 = 0x3F167918#32
      ∧ sinCycles 0xBE800000#32 = 0xBF800000#32 := by decide +kernel
/-- R7: from bounds too coarse to round alike the refinement comes to the value of V-LFO at 0.125. -/
theorem test_sinRefine_refines :
    rndRat false (sinBelow 1 (2 ^ 146)) ≠ rndRat false (sinAbove 1 (2 ^ 146))
      ∧ sinRefine false (2 ^ 146) 160 1 = 0x3F3504F3#32 := by decide +kernel
/-- V-MAP: Chorus at 0.5 and Flanger at -1.0, times 48000. -/
theorem test_delaySamples :
    delaySamples .chorus 0x473B8000#32 0x3F000000#32 = 0x448E8000#32
      ∧ delaySamples .flanger 0x473B8000#32 0xBF800000#32 = 0x42400001#32 := by decide +kernel

/-! ### The step and the assembler -/

/-- R234, V-DEC: PROCESS_FRAME with RSV ≠ 0 on a block that is not ready. -/
theorem test_step_illegal_before_notPrepared :
    ends (step { State.reset with port := [.request ⟨0x10000001#32, 0x3F800000#32, 0#32⟩] })
      (fun t => t.status == ⟨false, false, false, true⟩ && answered .illegalCommand 0#32 0#32 t && t.port == []) = true := by
  decide +kernel
theorem test_withFetchWord :
    ends (step (State.reset.withFetchWord 64 0x4000000001000000)) (fun t => t.length == 4#32 && t.status.ready) = true := by
  decide +kernel
/-- The texts of R98 and R100. -/
theorem test_assemble :
    assemble "dl_write R, 0.25 ; x\nWRITE_REG TYPE, FLANGER\nCONFIGURE 48000".toList
      = some [⟨0x20010000#32, 0x3E800000#32, 0#32⟩, ⟨0x02050000#32, 1#32, 0#32⟩, ⟨0x01000000#32, 0x473B8000#32, 0#32⟩] := by
  decide +kernel
/-- R103, R104. -/
theorem test_assemble_pseudo :
    assemble "CLEAR_STATUS\nPROCESS_BLOCK (1.0, -1.0), (0, +inf)".toList
      = some [⟨0x020A0000#32, 0x0000000E#32, 0#32⟩, ⟨0x10000000#32, 0x3F800000#32, 0xBF800000#32⟩,
        ⟨0x10000000#32, 0#32, 0x7F800000#32⟩] := by decide +kernel

/-! ### Witnesses: the hypotheses of each obligation can be met together -/

theorem witness_DecodeFollowsTheOpcodeMap :
    ((0x20010000#32).extractLsb' 0 16 = 0#16 ∧ (0x20010000#32 : Word).extractLsb' 24 8 = 0x20#8
      ∧ (0x20010000#32 : Word).extractLsb' 16 8 = 1#8)
    ∧ (0x00000001#32 : Word).extractLsb' 0 16 ≠ 0#16
    ∧ (0x04000000#32 : Word).extractLsb' 24 8 ∉ [0x00#8, 0x01#8, 0x02#8, 0x03#8, 0x10#8, 0x20#8, 0x21#8]
    ∧ ((0x10010000#32 : Word).extractLsb' 24 8 ∈ [0x00#8, 0x01#8, 0x10#8] ∧ (0x10010000#32 : Word).extractLsb' 16 8 ≠ 0#8)
    ∧ ((0x20020000#32 : Word).extractLsb' 24 8 ∈ [0x20#8, 0x21#8]
      ∧ 2 ≤ ((0x20020000#32 : Word).extractLsb' 16 8).toNat) := by decide

theorem witness_EncodeRecoversTheCommandWord :
    decode ⟨0x21010000#32, 0#32, 7#32⟩ = .command (.dlRead .right 0#32) := by decide

theorem witness_StepRunsTheDecodedCommand :
    ({ dl4 with port := [.request ⟨0x20010000#32, 5#32, 0#32⟩, .reset] } : State).port
        = .request ⟨0x20010000#32, 5#32, 0#32⟩ :: [.reset]
      ∧ decode ⟨0x20010000#32, 5#32, 0#32⟩ = .command (.dlWrite .right 5#32) := by decide

/-- V-DEC, one word for each cause. -/
theorem witness_IllegalCommandWordIsAnswered :
    let s : State := { dl4 with port := [.request ⟨0x20020000#32, 0#32, 0#32⟩] }
    s.port = .request ⟨0x20020000#32, 0#32, 0#32⟩ :: []
      ∧ (0x10000001#32 : Word).extractLsb' 0 16 ≠ 0#16
      ∧ (0xFF000000#32 : Word).extractLsb' 24 8 ∉ [0x00#8, 0x01#8, 0x02#8, 0x03#8, 0x10#8, 0x20#8, 0x21#8]
      ∧ ((0x00010000#32 : Word).extractLsb' 24 8 ∈ [0x00#8, 0x01#8, 0x10#8]
        ∧ (0x00010000#32 : Word).extractLsb' 16 8 ≠ 0#8)
      ∧ ((0x20020000#32 : Word).extractLsb' 24 8 ∈ [0x20#8, 0x21#8]
        ∧ 2 ≤ ((0x20020000#32 : Word).extractLsb' 16 8).toNat) := by decide

theorem witness_IdleStepHoldsTheState : dl4.port = [] := by decide

theorem witness_ResetEventResetsTheBlock : ({ dl4 with port := [.reset] } : State).port = .reset :: [] := by decide

theorem witness_ResetRegisterValues :
    0x00#8 ∈ [0x00#8, 0x01#8, 0x02#8, 0x03#8, 0x04#8, 0x05#8, 0x08#8, 0x09#8, 0x0A#8, 0x10#8, 0x11#8,
      0x12#8, 0x13#8, 0x14#8, 0x15#8, 0x16#8, 0x17#8] := by decide

theorem witness_ReadRegOfReservedIndexIsIllegal :
    ∀ index ∈ [0x06#8, 0x07#8, 0x0F#8, 0x18#8, 0xFF#8],
      index = 0x06#8 ∨ index = 0x07#8 ∨ index = 0x0F#8 ∨ 0x18 ≤ BitVec.toNat index := by decide

theorem witness_WriteRegElsewhereIsIllegal :
    ∀ index ∈ [0x06#8, 0x09#8, 0x0B#8, 0xFF#8], 0x06 ≤ BitVec.toNat index ∧ index ≠ 0x0A#8 := by decide

/-- The least and the greatest length (V-CFG, 0.5 and 262144). -/
theorem witness_ConfigureSucceeds :
    (isNaN 0x3F000000#32 = false ∧ isInf 0x3F000000#32 = false ∧ flt ZERO 0x3F000000#32 = true
      ∧ isInf (fmul 0x3F000000#32 State.reset.cfg.maxDelaySeconds) = false
      ∧ 1 ≤ (floorReal (fmul 0x3F000000#32 State.reset.cfg.maxDelaySeconds)).toNat
      ∧ (floorReal (fmul 0x3F000000#32 State.reset.cfg.maxDelaySeconds)).toNat ≤ State.reset.cfg.bufCapacity.toNat)
    ∧ (isNaN 0x48800000#32 = false ∧ isInf 0x48800000#32 = false ∧ flt ZERO 0x48800000#32 = true
      ∧ isInf (fmul 0x48800000#32 State.reset.cfg.maxDelaySeconds) = false
      ∧ 1 ≤ (floorReal (fmul 0x48800000#32 State.reset.cfg.maxDelaySeconds)).toNat
      ∧ (floorReal (fmul 0x48800000#32 State.reset.cfg.maxDelaySeconds)).toNat ≤ State.reset.cfg.bufCapacity.toNat) := by decide +kernel

/-- One rate for each of the four conditions (V-CFG: NaN, 3e38, 0.4, 262144.5). -/
theorem witness_ConfigureFailureLeaves :
    ¬ (isNaN 0x7FC00000#32 = false ∧ isInf 0x7FC00000#32 = false ∧ flt ZERO 0x7FC00000#32 = true)
      ∧ isInf (fmul 0x7F61B1E6#32 dl4.cfg.maxDelaySeconds) = true
      ∧ (floorReal (fmul 0x3ECCCCCD#32 dl4.cfg.maxDelaySeconds)).toNat = 0
      ∧ dl4.cfg.bufCapacity.toNat < (floorReal (fmul 0x48800010#32 dl4.cfg.maxDelaySeconds)).toNat := by decide +kernel

theorem witness_OnlyConfigureSetsUp :
    (∀ sr, Instr.nop ≠ .configure sr) ∧ ∃ t, exec .nop dl4 = .next t := ⟨by simp, _, rfl⟩

theorem witness_DlWriteStoresAndAdvances :
    dl4.status.ready = true ∧ dl4.whL.toNat < dl4.length.toNat ∧ dl4.whR.toNat < dl4.length.toNat
      ∧ dl4.whL.toNat + 1 = dl4.length.toNat ∧ dl4.whR.toNat + 1 ≠ dl4.length.toNat := by decide

theorem dl4_inv : dl4.Inv := by decide +kernel

theorem dl4_write (ch : Channel) : ∃ t, exec (.dlWrite ch 5#32) dl4 = .next t := by
  obtain ⟨t, h, _⟩ := exists_of_ends (o := exec (.dlWrite ch 5#32) dl4) (p := fun _ => true) (by
    cases ch <;> decide +kernel)
  exact ⟨t, h⟩

theorem witness_DlWriteChangesOneWord :
    dl4.Inv ∧ dl4.status.ready = true ∧ (∃ t, exec (.dlWrite .left 5#32) dl4 = .next t)
      ∧ ∃ t, exec (.dlWrite .right 5#32) dl4 = .next t := ⟨dl4_inv, rfl, dl4_write .left, dl4_write .right⟩

theorem witness_DlReadInterpolates : dl4.status.ready = true ∧ 0 < dl4.length.toNat := by decide

theorem witness_ReadIndexAndFractionInRange : 0 < (1#32 : Word).toNat := by decide

/-- The head at 3 of 4, at 0 of 4, and at 0 of the least length. -/
theorem witness_ZeroDelayReadsAtTheHead :
    ((dl4.wh .left).toNat < dl4.length.toNat ∧ (dl4.wh .right).toNat < dl4.length.toNat ∧ dl4.length.toNat ≤ 2 ^ 24
      ∧ ramWf (dl4.ram .left) = true ∧ ramWf (dl4.ram .right) = true)
    ∧ ((configured 0x3F000000#32 1#32).wh .left).toNat < (configured 0x3F000000#32 1#32).length.toNat := by decide +kernel

/-- The two ends of the range, for L = 4: on the left `w - z = 3 - 0 = L - 1`, on the right `w - z = 0 - 3 = -(L - 1)`. -/
theorem witness_IntegralDelayReadsTheWord :
    ((dl4.wh .left).toNat < dl4.length.toNat ∧ (dl4.wh .right).toNat < dl4.length.toNat ∧ dl4.length.toNat ≤ 2 ^ 24)
    ∧ (isNaN 0x80000000#32 = false ∧ isInf 0x80000000#32 = false ∧ units 0x80000000#32 = (unitsPerOne : Int) * 0
      ∧ -(dl4.length.toNat : Int) < ((dl4.wh .left).toNat : Int) - 0
      ∧ ((dl4.wh .left).toNat : Int) - 0 < (dl4.length.toNat : Int))
    ∧ (isNaN 0x40400000#32 = false ∧ isInf 0x40400000#32 = false ∧ units 0x40400000#32 = (unitsPerOne : Int) * 3
      ∧ -(dl4.length.toNat : Int) < ((dl4.wh .right).toNat : Int) - 3
      ∧ ((dl4.wh .right).toNat : Int) - 3 < (dl4.length.toNat : Int)) := by decide +kernel

/-- L = 4 and one sample: the delays 1 (the sample) and 4 = L (nothing written). -/
theorem witness_DelayLineWrapsAround :
    State.reset.cfg.legal = true ∧ [0x3F800000#32] ≠ ([] : List Word)
    ∧ (∀ v ∈ [0x3F800000#32], isNaN v = false ∧ isInf v = false ∧ v ≠ 0x80000000#32)
    ∧ ∃ s0, exec (.configure 0x40000000#32) State.reset = .next s0 ∧ s0.status.ready = true
      ∧ 1 ≤ s0.length.toNat ∧ 4 ≤ s0.length.toNat := by
  refine ⟨by decide +kernel, by decide, List.forall_mem_singleton.2 (by decide +kernel), ?_⟩
  obtain ⟨s0, h, hp⟩ := exists_of_ends (o := exec (.configure 0x40000000#32) State.reset)
    (p := fun s0 => s0.status.ready && decide (1 ≤ s0.length.toNat) && decide (4 ≤ s0.length.toNat)) (by decide +kernel)
  simp only [Bool.and_eq_true, decide_eq_true_eq] at hp
  exact ⟨s0, h, hp.1.1, hp.1.2, hp.2⟩

theorem dl4_frame : ∃ t, exec (.processFrame 5#32 6#32) dl4 = .next t := by
  obtain ⟨t, h, _⟩ := exists_of_ends (o := exec (.processFrame 5#32 6#32) dl4) (p := fun _ => true) (by decide +kernel)
  exact ⟨t, h⟩

theorem witness_ProcessFrameComputesTheFrame :
    dl4.status.ready = true ∧ dl4.whL.toNat < dl4.length.toNat ∧ dl4.whR.toNat < dl4.length.toNat := by decide

theorem witness_ProcessFrameFrame :
    dl4.Inv ∧ dl4.status.ready = true ∧ ∃ t, exec (.processFrame 5#32 6#32) dl4 = .next t := ⟨dl4_inv, rfl, dl4_frame⟩

/-- `dl4` with another right lane, and with another left lane. -/
theorem witness_LanesDoNotMix :
    let right : State := { dl4 with fbR := 9#32, whR := 2#32, ramR := [(0, 1#8)] }
    let left : State := { dl4 with fbL := 9#32, whL := 2#32, ramL := [(0, 1#8)] }
    (right = { dl4 with fbR := right.fbR, whR := right.whR, ramR := right.ramR, port := right.port, answers := right.answers })
    ∧ (left = { dl4 with fbL := left.fbL, whL := left.whL, ramL := left.ramL, port := left.port, answers := left.answers })
    ∧ (∃ t, exec (.processFrame 5#32 6#32) dl4 = .next t)
    ∧ (∃ t, exec (.processFrame 5#32 7#32) right = .next t) ∧ ∃ t, exec (.processFrame 7#32 6#32) left = .next t := by
  intro right left
  refine ⟨rfl, rfl, dl4_frame, ?_, ?_⟩
  · obtain ⟨t, h, _⟩ := exists_of_ends (o := exec (.processFrame 5#32 7#32) right) (p := fun _ => true) (by decide +kernel)
    exact ⟨t, h⟩
  · obtain ⟨t, h, _⟩ := exists_of_ends (o := exec (.processFrame 7#32 6#32) left) (p := fun _ => true) (by decide +kernel)
    exact ⟨t, h⟩

/-- At the ends of the ranges: RATE 20.0, SMOOTH_RATE 20.0, SAMPLE_RATE 40.0, LFO_PHASE the greatest below 1. -/
def phaseEdge : State :=
  { configured 0x42200000#32 80#32 with rate := 0x41A00000#32, smoothRate := 0x41A00000#32, lfoPhase := 0x3F7FFFFF#32 }

theorem witness_PhaseStaysInTheUnitInterval :
    phaseEdge.cfg.legal = true
    ∧ (fge phaseEdge.rate ZERO = true ∧ fge 0x41A00000#32 phaseEdge.rate = true ∧ fge phaseEdge.sampleRate 0x42200000#32 = true)
    ∧ (fge phaseEdge.smoothRate ZERO = true ∧ fge 0x41A00000#32 phaseEdge.smoothRate = true
        ∧ fge phaseEdge.lfoPhase ZERO = true ∧ flt phaseEdge.lfoPhase ONE = true)
    ∧ ∃ t, exec (.processFrame 0#32 0#32) phaseEdge = .next t
      ∧ (fge t.rate ZERO = true ∧ fge 0x41A00000#32 t.rate = true ∧ fge t.sampleRate 0x42200000#32 = true) := by
  refine ⟨by decide +kernel, by decide +kernel, by decide +kernel, ?_⟩
  obtain ⟨t, h, hp⟩ := exists_of_ends (o := exec (.processFrame 0#32 0#32) phaseEdge)
    (p := fun t => fge t.rate ZERO && fge 0x41A00000#32 t.rate && fge t.sampleRate 0x42200000#32) (by decide +kernel)
  simp only [Bool.and_eq_true] at hp
  exact ⟨t, h, hp.1.1, hp.1.2, hp.2⟩

/-- NaN in the raw parameters, and NaN in the smoothed registers. -/
theorem witness_NanParametersStayNan :
    let raw : State := { dl4 with rate := QNAN, depth := QNAN, phaseOffset := QNAN }
    let smoothed : State := { dl4 with smoothRate := QNAN, smoothDepth := QNAN, smoothPhaseOffset := QNAN }
    raw.status.ready = true ∧ smoothed.status.ready = true
    ∧ (isNaN raw.rate = true ∧ isNaN raw.depth = true ∧ isNaN raw.phaseOffset = true)
    ∧ (isNaN smoothed.smoothRate = true ∧ isNaN smoothed.smoothDepth = true ∧ isNaN smoothed.smoothPhaseOffset = true)
    ∧ (∃ t, exec (.processFrame 0#32 0#32) raw = .next t) ∧ ∃ t, exec (.processFrame 0#32 0#32) smoothed = .next t := by
  intro raw smoothed
  refine ⟨rfl, rfl, by decide +kernel, by decide +kernel, ?_, ?_⟩
  · obtain ⟨t, h, _⟩ := exists_of_ends (o := exec (.processFrame 0#32 0#32) raw) (p := fun _ => true) (by decide +kernel)
    exact ⟨t, h⟩
  · obtain ⟨t, h, _⟩ := exists_of_ends (o := exec (.processFrame 0#32 0#32) smoothed) (p := fun _ => true) (by decide +kernel)
    exact ⟨t, h⟩

/-- A finite result, and a tie: 2^24 + 1 units lie midway between 2^24 and 2^24 + 2. -/
theorem witness_RoundingIsNearestEven :
    0 < 1 ∧ rndBits (2 ^ 24 + 1) 1 < 0x7F800000 ∧ rndBits (2 ^ 24 + 1) 1 + 1 < 0x7F800000
      ∧ magUnits (BitVec.ofNat 32 (rndBits (2 ^ 24 + 1) 1)) = 2 ^ 24
      ∧ magUnits (BitVec.ofNat 32 (rndBits (2 ^ 24 + 1) 1 + 1)) = 2 ^ 24 + 2
      ∧ (2 ^ 25 - 1) * 2 ^ 252 * 1 ≤ 2 ^ 277 := by decide +kernel

theorem witness_SmallIntegersAreExact :
    (16777216 ≤ 2 ^ 24 ∧ 0 ≤ 2 ^ 24 ∧ 0 ≤ 16777216 ∧ 16777216 + 0 ≤ 2 ^ 24) ∧ (1 ≤ 1 ∧ 1 + 1 ≤ 2 ^ 24) := by decide

theorem witness_SineAtQuarterCycles : isNaN 0x7FC00000#32 = true ∧ isInf 0xFF800000#32 = true := by decide +kernel

/-- The least level, and the two ends of the range. -/
theorem witness_SineBoundsEncloseTheSine : 0 < 1 ∧ 0 ≤ 2 ^ 147 ∧ 2 ^ 147 ≤ 2 ^ 147 := by decide +kernel

/-- A phase of neither sign's zero, and one whose sine is 0 (0.5). -/
theorem witness_SineIsCorrectlyRounded :
    (isNaN 0xC1A00001#32 = false ∧ isInf 0xC1A00001#32 = false ∧ units 0xC1A00001#32 ≠ 0)
    ∧ (isNaN 0x80000000#32 = false ∧ isInf 0x80000000#32 = false ∧ units 0x80000000#32 = 0)
    ∧ isNaN 0x3F000000#32 = false ∧ isInf 0x3F000000#32 = false ∧ units 0x3F000000#32 = 2 ^ 148 := by decide +kernel

theorem witness_SineFoldsToAQuarterCycle : isNaN 0xC1A00001#32 = false ∧ isInf 0xC1A00001#32 = false := by decide +kernel

theorem witness_NotPreparedPolicy :
    State.reset.status.ready = false ∧ (∃ t, exec .nop dl4 = .next t) ∧ (∀ a b, Instr.nop ≠ .processFrame a b)
      ∧ (∀ ch a, Instr.nop ≠ .dlWrite ch a) ∧ ∀ ch a, Instr.nop ≠ .dlRead ch a :=
  ⟨rfl, ⟨_, rfl⟩, by simp, by simp, by simp⟩

theorem witness_OneResponsePerCommand : ∃ t, exec (.processFrame 5#32 6#32) dl4 = .next t := dl4_frame

/-- Both codes: a reserved register, and a read of a block that is not ready. -/
theorem witness_ErrorsChangeOnlyTheirStickyBit :
    (∃ t, exec (.readReg 6#8) dl4 = .next t ∧ t.answers = ⟨.illegalCommand, 0#32, 0#32⟩ :: dl4.answers)
    ∧ (∃ t, exec (.dlRead .left 0#32) State.reset = .next t
        ∧ t.answers = ⟨.notPrepared, 0#32, 0#32⟩ :: State.reset.answers)
    ∧ (∀ sr, Instr.readReg 6#8 ≠ .configure sr) ∧ (∀ sr, Instr.dlRead .left 0#32 ≠ .configure sr) :=
  ⟨⟨_, rfl, rfl⟩, ⟨_, rfl, rfl⟩, by simp, by simp⟩

/-- Each of the three commands. -/
theorem witness_ReadsHaveNoSideEffect :
    (∃ t, exec .nop dl4 = .next t ∧ t.answers = ⟨.ok, 0#32, 0#32⟩ :: dl4.answers)
    ∧ (∃ t, exec (.readReg 9#8) dl4 = .next t ∧ t.answers = ⟨.ok, 4#32, 0#32⟩ :: dl4.answers)
    ∧ ∃ t, exec (.dlRead .left 0x3F800000#32) dl4 = .next t ∧ t.answers = ⟨.ok, 0x40400000#32, 0#32⟩ :: dl4.answers := by
  refine ⟨⟨_, rfl, rfl⟩, ⟨_, rfl, rfl⟩, ?_⟩
  obtain ⟨t, h, hp⟩ := exists_of_ends (o := exec (.dlRead .left 0x3F800000#32) dl4)
    (p := fun t => decide (t.answers = ⟨.ok, 0x40400000#32, 0#32⟩ :: dl4.answers)) (by decide +kernel)
  exact ⟨t, h, of_decide_eq_true hp⟩

/-- A write of STATUS with other bits, on a block with the three sticky bits set. -/
theorem witness_StickyBitsStay :
    let s : State := { dl4 with status := ⟨true, true, true, true⟩ }
    (∃ t, exec (.writeReg 0x0A#8 0xFFFFFFF1#32) s = .next t) ∧ s.status.allocErr = true ∧ s.status.npErr = true
    ∧ s.status.illErr = true
    ∧ ∀ k ∈ [1, 2, 3], ∀ v, Instr.writeReg 0x0A#8 0xFFFFFFF1#32 = .writeReg 0x0A#8 v → v.getLsbD k = false := by
  refine ⟨⟨_, rfl⟩, rfl, rfl, rfl, ?_⟩
  intro k hk v hv
  obtain rfl : 0xFFFFFFF1#32 = v := by injection hv
  revert k
  decide

/-- Both clauses: a frame for the parameters, a write of a parameter for the engine state. -/
theorem witness_WhoWritesWhichRegister :
    (∃ t, exec (.processFrame 5#32 6#32) dl4 = .next t) ∧ (∀ r v, Instr.processFrame 5#32 6#32 ≠ .writeReg r v)
    ∧ (∃ t, exec (.writeReg 0#8 1#32) dl4 = .next t) ∧ (∀ a b, Instr.writeReg 0#8 1#32 ≠ .processFrame a b)
    ∧ ∀ sr, Instr.writeReg 0#8 1#32 ≠ .configure sr := ⟨dl4_frame, by simp, ⟨_, rfl⟩, by simp, by simp⟩

theorem witness_StepKeepsTheInvariant :
    let s : State := { dl4 with port := [.request ⟨0x20000000#32, 5#32, 0#32⟩] }
    s.Inv ∧ ∃ t, step s = .next t ∧ t.whL = 0#32 := by
  intro s
  refine ⟨dl4_inv, ?_⟩
  obtain ⟨t, h, hp⟩ := exists_of_ends (o := step s) (p := fun t => t.whL == 0#32) (by decide +kernel)
  exact ⟨t, h, by simpa using hp⟩

theorem witness_InvariantStatesNeverStop :
    ({ dl4 with port := [.request ⟨0x10000000#32, 5#32, 0#32⟩] } : State).Inv := dl4_inv

theorem witness_EveryRunFromResetIsSafe : Params.default.legal = true := by decide +kernel

theorem witness_InstancesShareNothing :
    ∃ all', stepInstance 0 [State.reset.withFetchWord 32 0x20000000, dl4] = .next all' ∧ 1 ≠ 0 := ⟨_, rfl, by decide⟩

end Sys2Proof.Tests
end

