-- ==== Sys2Proof/Proofs/ResetRegisters.lean ====
section
/-! SUPPORT. READ_REG right after reset (R33, R36, R45, R211). -/

namespace Sys2Proof.Machine

/-- READ_REG after reset answers the value that the register at the index has there. -/
theorem exec_readReg_reset (index : Byte) (v : Word) (h : (Reg.ofIndex index).map (regValue State.reset) = some v) :
    exec (.readReg index) State.reset = .next { State.reset with answers := [⟨.ok, v, 0#32⟩] } := by
  obtain ⟨r, hr, rfl⟩ := Option.map_eq_some_iff.1 h
  exact (exec_readReg_next index _ _).2 (.inl ⟨r, hr, rfl⟩)

/-- Settles O11: the value of each register at reset. -/
theorem resetRegisterValues : Obligations.ResetRegisterValues := by
  have hzero : ∀ index ∈ [0x00#8, 0x01#8, 0x02#8, 0x03#8, 0x04#8, 0x05#8, 0x08#8, 0x09#8, 0x0A#8, 0x10#8, 0x11#8,
      0x12#8, 0x13#8, 0x14#8, 0x15#8, 0x16#8, 0x17#8],
      (Reg.ofIndex index).map (regValue State.reset) = some 0#32 := by decide
  exact ⟨fun index h => exec_readReg_reset index _ (hzero index h), exec_readReg_reset _ _ rfl,
    exec_readReg_reset _ _ rfl, exec_readReg_reset _ _ rfl, exec_readReg_reset _ _ rfl⟩

end Sys2Proof.Machine
end

