-- ==== Sys2Proof/Proofs/Rounding.lean ====
section
/-! SUPPORT. Rounding to nearest, ties to even, as a property of an exact value and a pattern (R11): where the exact value
lies against the midpoints, and so how far it is from every binary32 number. -/

namespace Sys2Proof.Machine

/-! ### Midpoints -/

/-- The exact value halfway between two neighbours rounds to the even one. -/
theorem rndBits_of_mid (n d m : Nat) (hd : 0 < d) (hm : m < 0x7F800000)
    (h : (magOfBits m + magOfBits (m + 1)) * d = 2 * n) : rndBits n d = m + m % 2 := by
  obtain ⟨hlt, hge⟩ := rndExp_spec n d hd
  rw [rndBits_def]
  obtain ⟨k, q, rfl, hq, hk⟩ := magBits_split m
  rw [magOfBits_build k q hq.le hk, show 2 ^ 23 * k + q + 1 = 2 ^ 23 * k + (q + 1) by omega,
    magOfBits_build k (q + 1) (by omega) (by omega)] at h
  have hmid : 2 * n = (2 * q + 1) * (d * 2 ^ k) := by rw [← h]; ring
  have hp : 0 < d * 2 ^ k := Nat.mul_pos hd (Nat.two_pow_pos _)
  have hexp : rndExp n d = k := by
    rcases Nat.lt_trichotomy (rndExp n d) k with hek | hek | hek
    · exfalso
      have h1 : 2 * (d * 2 ^ rndExp n d) ≤ d * 2 ^ k := by
        calc 2 * (d * 2 ^ rndExp n d) = d * 2 ^ (rndExp n d + 1) := by ring
          _ ≤ d * 2 ^ k := Nat.mul_le_mul_left _ (Nat.pow_le_pow_right (by omega) hek)
      have h2 : 2 ^ 24 * (d * 2 ^ k) ≤ (2 * q + 1) * (d * 2 ^ k) := Nat.mul_le_mul_right _ (by omega)
      omega
    · exact hek
    · exfalso
      have h1 : 2 * (d * 2 ^ k) ≤ d * 2 ^ rndExp n d := by
        calc 2 * (d * 2 ^ k) = d * 2 ^ (k + 1) := by ring
          _ ≤ d * 2 ^ rndExp n d := Nat.mul_le_mul_left _ (Nat.pow_le_pow_right (by omega) hek)
      have h2 : (2 * q + 1) * (d * 2 ^ k) ≤ (2 ^ 25 - 1) * (d * 2 ^ k) := Nat.mul_le_mul_right _ (by omega)
      have h3 := hge.resolve_left (by omega)
      omega
  rw [hexp]
  generalize d * 2 ^ k = D at hp hmid
  have hn : 2 * n = 2 * (q * D) + D := by rw [hmid]; ring
  have hdiv : n / D = q := by
    apply Nat.div_eq_of_lt_le
    · omega
    · rw [Nat.succ_mul]; omega
  have hmod : 2 * (n % D) = D := by
    have := Nat.div_add_mod n D
    rw [hdiv, Nat.mul_comm] at this
    omega
  have hsig : roundDiv n D = q + q % 2 := by
    rw [roundDiv, hdiv, hmod, if_neg (by omega), if_pos rfl]
  rw [hsig, Nat.min_eq_left (by omega)]
  omega

/-- The exact value is not below the midpoint of its rounding and any lower number. -/
theorem rndBits_above_mid (n d m : Nat) (hd : 0 < d) (h : m < rndBits n d) :
    (magOfBits m + magOfBits (rndBits n d)) * d ≤ 2 * n
      ∧ ((magOfBits m + magOfBits (rndBits n d)) * d = 2 * n → rndBits n d % 2 = 0) := by
  have hinf := rndBits_le_inf n d
  obtain ⟨p, hp⟩ : ∃ p, rndBits n d = p + 1 := ⟨rndBits n d - 1, by omega⟩
  have hmid : (magOfBits p + magOfBits (p + 1)) * d ≤ 2 * n := by
    by_contra hc
    have := rndBits_le_of_lt_mid n d p hd (by omega)
    omega
  have hle : (magOfBits m + magOfBits (p + 1)) * d ≤ (magOfBits p + magOfBits (p + 1)) * d :=
    Nat.mul_le_mul_right _ (Nat.add_le_add_right (magOfBits_strictMono.monotone (by omega)) _)
  rw [hp] at h ⊢
  refine ⟨by omega, fun heq => ?_⟩
  have := rndBits_of_mid n d p hd (by omega) (by omega)
  omega

/-- The exact value is not above the midpoint of its finite rounding and any higher number. -/
theorem rndBits_below_mid (n d m : Nat) (hd : 0 < d) (hfin : rndBits n d < 0x7F800000) (h : rndBits n d < m) :
    2 * n ≤ (magOfBits (rndBits n d) + magOfBits m) * d
      ∧ (2 * n = (magOfBits (rndBits n d) + magOfBits m) * d → rndBits n d % 2 = 0) := by
  generalize hr : rndBits n d = r at hfin h
  have hmid : 2 * n ≤ (magOfBits r + magOfBits (r + 1)) * d := by
    by_contra hc
    have := rndBits_ge_of_mid_lt n d r hd hfin (by omega)
    omega
  have hle : (magOfBits r + magOfBits (r + 1)) * d ≤ (magOfBits r + magOfBits m) * d :=
    Nat.mul_le_mul_right _ (Nat.add_le_add_left (magOfBits_strictMono.monotone (by omega)) _)
  refine ⟨by omega, fun heq => ?_⟩
  have := rndBits_of_mid n d r hd hfin (by omega)
  omega

/-! ### Nearest even -/

section
variable {K : Type*} [Field K] [LinearOrder K] [IsStrictOrderedRing K]

/-- `y` units lie on the side of `r` of every midpoint of `r` and another number, or on the midpoint when `r` is even. -/
def NearestEven (y : K) (r : Nat) : Prop :=
  (∀ m < r, (magOfBits m + magOfBits r : K) ≤ 2 * y ∧ (magOfBits m + magOfBits r = 2 * y → r % 2 = 0))
    ∧ ∀ m > r, 2 * y ≤ (magOfBits r + magOfBits m : K) ∧ (2 * y = magOfBits r + magOfBits m → r % 2 = 0)

theorem magOfBits_cast_lt {m r : Nat} (h : m < r) : (magOfBits m : K) < magOfBits r :=
  Nat.cast_lt.2 (magOfBits_strictMono h)

/-- What `rnd` of R11 answers below the overflow. -/
theorem nearestEven_rndBits (n d : Nat) (hd : 0 < d) (hfin : rndBits n d < 0x7F800000) :
    NearestEven ((n : K) / d) (rndBits n d) := by
  have hpos : (0 : K) < d := Nat.cast_pos.2 hd
  constructor
  · intro m hm
    obtain ⟨hle, heven⟩ := rndBits_above_mid n d m hd hm
    rw [← mul_div_assoc, le_div_iff₀ hpos, eq_div_iff hpos.ne']
    exact ⟨by exact_mod_cast hle, fun h => heven (by exact_mod_cast h)⟩
  · intro m hm
    obtain ⟨hle, heven⟩ := rndBits_below_mid n d m hd hfin hm
    rw [← mul_div_assoc, div_le_iff₀ hpos, div_eq_iff hpos.ne']
    exact ⟨by exact_mod_cast hle, fun h => heven (by exact_mod_cast h)⟩

/-- A binary32 number is nearest to itself. -/
theorem nearestEven_self (r : Nat) : NearestEven (magOfBits r : K) r := by
  constructor <;> intro m hm
  · have hlt := magOfBits_cast_lt (K := K) hm
    exact ⟨by linarith, fun h => by linarith⟩
  · have hlt := magOfBits_cast_lt (K := K) hm
    exact ⟨by linarith, fun h => by linarith⟩

/-- What rounds alike encloses what rounds so. -/
theorem NearestEven.between {lo y hi : K} {r : Nat} (hlo : NearestEven lo r) (hhi : NearestEven hi r)
    (h1 : lo ≤ y) (h2 : y ≤ hi) : NearestEven y r := by
  constructor
  · intro m hm
    obtain ⟨hle, heven⟩ := hlo.1 m hm
    exact ⟨by linarith, fun h => heven (by linarith)⟩
  · intro m hm
    obtain ⟨hle, heven⟩ := hhi.2 m hm
    exact ⟨by linarith, fun h => heven (by linarith)⟩

/-- From the midpoint of two numbers on, the higher one is no farther. -/
theorem abs_sub_le_of_mid_le {a b y : K} (hab : a < b) (h : a + b ≤ 2 * y) :
    |y - b| ≤ |y - a| ∧ (|y - b| = |y - a| → a + b = 2 * y) := by
  rw [abs_of_pos (show 0 < y - a by linarith)]
  refine ⟨abs_le.2 ⟨by linarith, by linarith⟩, fun heq => ?_⟩
  rcases abs_choice (y - b) with h1 | h1 <;> linarith

/-- Up to the midpoint of two numbers, the lower one is no farther. -/
theorem abs_sub_le_of_le_mid {a b y : K} (hab : a < b) (h : 2 * y ≤ a + b) :
    |y - a| ≤ |y - b| ∧ (|y - a| = |y - b| → 2 * y = a + b) := by
  rw [abs_sub_comm y a, abs_sub_comm y b, abs_of_pos (show 0 < b - y by linarith)]
  refine ⟨abs_le.2 ⟨by linarith, by linarith⟩, fun heq => ?_⟩
  rcases abs_choice (a - y) with h1 | h1 <;> linarith

/-- No magnitude is nearer, and one as near makes the last bit even. -/
theorem NearestEven.dist {y : K} {r : Nat} (h : NearestEven y r) (m : Nat) :
    |y - magOfBits r| ≤ |y - magOfBits m| ∧ (|y - magOfBits r| = |y - magOfBits m| → m ≠ r → r % 2 = 0) := by
  rcases Nat.lt_trichotomy m r with hm | rfl | hm
  · obtain ⟨hle, heven⟩ := h.1 m hm
    obtain ⟨hd, heq⟩ := abs_sub_le_of_mid_le (magOfBits_cast_lt hm) hle
    exact ⟨hd, fun he _ => heven (heq he)⟩
  · exact ⟨le_rfl, fun _ hne => absurd rfl hne⟩
  · obtain ⟨hle, heven⟩ := h.2 m hm
    obtain ⟨hd, heq⟩ := abs_sub_le_of_le_mid (magOfBits_cast_lt hm) hle
    exact ⟨hd, fun he _ => heven (heq he)⟩

end

/-! ### Overflow -/

/-- The largest finite number and the next one that the format would have, added: twice the overflow threshold. -/
theorem magOfBits_overflow_mid : magOfBits 0x7F7FFFFF + magOfBits 0x7F800000 = 2 * ((2 ^ 25 - 1) * 2 ^ 252) := by
  decide +kernel

theorem rndBits_eq_inf_iff (n d : Nat) (hd : 0 < d) :
    rndBits n d = 0x7F800000 ↔ (2 ^ 25 - 1) * 2 ^ 252 * d ≤ n := by
  have hmid : (magOfBits 0x7F7FFFFF + magOfBits (0x7F7FFFFF + 1)) * d = 2 * ((2 ^ 25 - 1) * 2 ^ 252 * d) := by
    rw [magOfBits_overflow_mid, Nat.mul_assoc]
  constructor
  · intro h
    by_contra hc
    have := rndBits_le_of_lt_mid n d 0x7F7FFFFF hd (by omega)
    omega
  · intro h
    have hinf := rndBits_le_inf n d
    rcases Nat.lt_or_eq_of_le h with hlt | heq
    · have := rndBits_ge_of_mid_lt n d 0x7F7FFFFF hd (by omega) (by omega)
      omega
    · rw [rndBits_of_mid n d 0x7F7FFFFF hd (by omega) (by omega)]

theorem magUnits_ofNat (m : Nat) (hm : m < 2 ^ 31) : magUnits (BitVec.ofNat 32 m) = magOfBits m := by
  rw [magUnits_eq, BitVec.toNat_ofNat, Nat.mod_eq_of_lt (show m < 2 ^ 32 by omega), Nat.mod_eq_of_lt hm]

/-- Settles O36: the overflow threshold is the midpoint above the largest finite number, and below it the rounding is
on the right side of every midpoint. -/
theorem roundingIsNearestEven : Obligations.RoundingIsNearestEven := by
  intro n d hd
  refine ⟨rndBits_eq_inf_iff n d hd, fun hfin m hm => ?_⟩
  rw [magUnits_ofNat _ (by omega), magUnits_ofNat _ (by omega)]
  exact (nearestEven_rndBits n d hd hfin).dist m

end Sys2Proof.Machine
end

