-- ==== Sys2Proof/Proofs/SmallIntegers.lean ====
section
/-! SUPPORT. Whole numbers up to 2^24 as binary32: sums, differences and comparison are exact (R11). -/

namespace Sys2Proof.Machine

theorem signBit_i2f (n : Nat) : signBit (i2f n) = false := signBit_rnd _ _ _

theorem i2f_zero : i2f 0 = zeroOf false := rnd_zero false 1 (by decide)

/-- A sum that is exactly 0 is +0.0 unless both terms are negative (R11). -/
theorem fadd_exact_zero (a b : Word) (ha : isNaN a = false ∧ isInf a = false) (hb : isNaN b = false ∧ isInf b = false)
    (h : units a + units b = 0) : fadd a b = zeroOf (signBit a && signBit b) := by
  rw [fadd, ha.1, ha.2, hb.1, hb.2, if_neg (by simp), if_neg (by simp), if_neg (by simp), if_pos h]

/-- A sum of two whole numbers, one of them not negative, that is a natural number. -/
theorem fadd_whole_nonneg (a b : Word) (x y : Int) (n : Nat) (ha : isNaN a = false ∧ isInf a = false)
    (hb : isNaN b = false ∧ isInf b = false) (hx : units a = (unitsPerOne : Int) * x)
    (hy : units b = (unitsPerOne : Int) * y) (hn : x + y = n) (hs : signBit a = false) : fadd a b = i2f n := by
  by_cases h0 : x + y = 0
  · obtain rfl : n = 0 := by omega
    rw [fadd_exact_zero a b ha hb (by rw [hx, hy, ← Int.mul_add, h0, Int.mul_zero]), hs, i2f_zero, Bool.false_and]
  · rw [fadd_whole a b x y ha hb hx hy h0, if_neg (by omega), hn, Int.natAbs_natCast]

theorem fadd_i2f (a b : Nat) (ha : a ≤ 2 ^ 24) (hb : b ≤ 2 ^ 24) : fadd (i2f a) (i2f b) = i2f (a + b) :=
  fadd_whole_nonneg _ _ a b _ (i2f_finite a ha) (i2f_finite b hb) (units_i2f a ha) (units_i2f b hb) (by omega)
    (signBit_i2f a)

theorem fsub_i2f (a b : Nat) (ha : a ≤ 2 ^ 24) (h : b ≤ a) : fsub (i2f a) (i2f b) = i2f (a - b) := by
  have hb : b ≤ 2 ^ 24 := h.trans ha
  refine fadd_whole_nonneg _ _ a (-b) _ (i2f_finite a ha) ?_ (units_i2f a ha) ?_ (by omega) (signBit_i2f a)
  · rw [isNaN_fneg, isInf_fneg]
    exact i2f_finite b hb
  · rw [units_fneg, units_i2f b hb, Int.mul_neg]

theorem flt_i2f (a b : Nat) (ha : a ≤ 2 ^ 24) (hb : b ≤ 2 ^ 24) : flt (i2f a) (i2f b) = decide (a < b) := by
  have hp : (0 : Int) < (unitsPerOne : Int) := by decide
  have hiff : (unitsPerOne : Int) * a < (unitsPerOne : Int) * b ↔ a < b := by
    rw [mul_lt_mul_iff_right₀ hp, Int.ofNat_lt]
  rw [flt, (i2f_finite a ha).1, (i2f_finite b hb).1, units_i2f a ha, units_i2f b hb]
  simp only [hiff, Bool.not_false, Bool.true_and]

/-- Settles O37, operation by operation. -/
theorem smallIntegersAreExact : Obligations.SmallIntegersAreExact := by
  intro a b ha hb
  obtain ⟨hnan, hinf⟩ := i2f_finite a ha
  exact ⟨hnan, hinf, units_i2f a ha, fsub_i2f a b ha, fun _ => fadd_i2f a b ha hb, flt_i2f a b ha hb⟩

end Sys2Proof.Machine
end

