-- ==== Sys2Proof/Proofs/SineFold.lean ====
section
/-! SUPPORT. The fold of a phase into the first quarter cycle keeps the sine but for its sign (R7,
notes/assumptions/5.md). -/

namespace Sys2Proof.Machine

theorem foldQuarter_le (m : Nat) : foldQuarter m ≤ 2 ^ 147 := by
  unfold foldQuarter
  split <;> omega

/-- The fold keeps what divides the half cycle and the phase. -/
theorem dvd_foldQuarter (c m : Nat) (hc : c ∣ 2 ^ 148) (hm : c ∣ m) : c ∣ foldQuarter m := by
  have hmod : c ∣ m % 2 ^ 148 := (Nat.dvd_mod_iff hc).2 hm
  unfold foldQuarter
  split
  · exact hmod
  · exact Nat.dvd_sub hc hmod

/-- A phase of an eighth of a cycle or more is a multiple of `2^123` units, and so is what it folds to. -/
theorem foldQuarter_gap (m : Nat) :
    foldQuarter (magOfBits m) = 2 ^ 147 ∨ foldQuarter (magOfBits m) + 2 ^ 122 ≤ 2 ^ 147 := by
  obtain ⟨k, q, rfl, hq, hk⟩ := magBits_split m
  rw [magOfBits_build k q hq.le hk]
  by_cases hsmall : q * 2 ^ k < 2 ^ 146
  · right
    unfold foldQuarter
    split <;> omega
  · have hk : 123 ≤ k := by
      by_contra hc
      have h1 : 2 ^ k ≤ 2 ^ 122 := Nat.pow_le_pow_right (by omega) (by omega)
      have h2 : q * 2 ^ k ≤ q * 2 ^ 122 := Nat.mul_le_mul_left _ h1
      omega
    have hdvd : 2 ^ 123 ∣ q * 2 ^ k := Dvd.dvd.mul_left (pow_dvd_pow 2 hk) q
    obtain ⟨c, hc⟩ := dvd_foldQuarter (2 ^ 123) _ (pow_dvd_pow 2 (by omega)) hdvd
    have hle := foldQuarter_le (q * 2 ^ k)
    omega

/-- The angle of a phase in units. -/
noncomputable def phaseAngle (y : ℝ) : ℝ := 2 * Real.pi * y / 2 ^ 149

theorem phaseAngle_neg (y : ℝ) : phaseAngle (-y) = -phaseAngle y := by
  unfold phaseAngle
  ring

/-- Each half cycle flips the sign of the sine. -/
theorem sin_phaseAngle_add_halves (y : ℝ) (h : Nat) :
    Real.sin (phaseAngle (2 ^ 148 * h + y)) = (-1) ^ h * Real.sin (phaseAngle y) := by
  rw [← Real.sin_add_nat_mul_pi]
  congr 1
  unfold phaseAngle
  ring

/-- Within a half cycle the sine is symmetric. -/
theorem sin_phaseAngle_half_sub (y : ℝ) : Real.sin (phaseAngle (2 ^ 148 - y)) = Real.sin (phaseAngle y) := by
  rw [← Real.sin_pi_sub]
  congr 1
  unfold phaseAngle
  ring

/-- The factor that a sign is, negative or not. -/
def signFactor (neg : Bool) : ℝ := if neg then -1 else 1

/-- As many flips as half cycles have passed: the sign of the half of the cycle. -/
theorem neg_one_pow_eq_signFactor (m : Nat) : (-1 : ℝ) ^ (m / 2 ^ 148) = signFactor (secondHalf m) := by
  unfold secondHalf
  rcases Nat.mod_two_eq_zero_or_one (m / 2 ^ 148) with h | h
  · rw [(Nat.even_iff.2 h).neg_one_pow, h]
    rfl
  · rw [(Nat.odd_iff.2 h).neg_one_pow, h]
    rfl

theorem sin_phaseAngle_foldQuarter (m : Nat) :
    Real.sin (phaseAngle m) = signFactor (secondHalf m) * Real.sin (phaseAngle (foldQuarter m)) := by
  have hsplit : (m : ℝ) = 2 ^ 148 * (m / 2 ^ 148 : Nat) + (m % 2 ^ 148 : Nat) := by
    have h := congrArg (Nat.cast : Nat → ℝ) (Nat.div_add_mod m (2 ^ 148)).symm
    rwa [Nat.cast_add, Nat.cast_mul, Nat.cast_pow, Nat.cast_ofNat] at h
  have hfold : Real.sin (phaseAngle (m % 2 ^ 148 : Nat)) = Real.sin (phaseAngle (foldQuarter m)) := by
    unfold foldQuarter
    split
    · rfl
    · rw [Nat.cast_sub (Nat.mod_lt _ (Nat.two_pow_pos 148)).le, Nat.cast_pow, Nat.cast_ofNat, sin_phaseAngle_half_sub]
  rw [← neg_one_pow_eq_signFactor, ← hfold, ← sin_phaseAngle_add_halves, ← hsplit]

theorem signFactor_xor (a b : Bool) : signFactor (a != b) = signFactor a * signFactor b := by
  cases a <;> cases b <;> simp [signFactor]

theorem units_cast (p : Word) : (units p : ℝ) = signFactor (signBit p) * magUnits p := by
  unfold units signFactor
  cases signBit p <;> simp

/-- The sine is odd, so the sign of a phase is a factor. -/
theorem sin_phaseAngle_signFactor (neg : Bool) (y : ℝ) :
    Real.sin (phaseAngle (signFactor neg * y)) = signFactor neg * Real.sin (phaseAngle y) := by
  cases neg <;> simp [signFactor, phaseAngle_neg]

/-- The sine of a phase is that of the folded phase, with the sign that `sinCycles` gives it. -/
theorem sin_phaseAngle_units (p : Word) :
    Real.sin (phaseAngle (units p))
      = signFactor (signBit p != secondHalf (magUnits p)) * Real.sin (phaseAngle (foldQuarter (magUnits p))) := by
  rw [units_cast, sin_phaseAngle_signFactor, sin_phaseAngle_foldQuarter, signFactor_xor, mul_assoc]

/-- Settles O40: the gap below the quarter is one of multiples of `2^123`, and each fold is a symmetry of the sine. -/
theorem sineFoldsToAQuarterCycle : Obligations.SineFoldsToAQuarterCycle := by
  intro p _ _ t
  refine ⟨?_, sin_phaseAngle_units p⟩
  rw [show t = foldQuarter (magOfBits (p.toNat % 2 ^ 31)) from congrArg foldQuarter (magUnits_eq p)]
  exact foldQuarter_gap _

end Sys2Proof.Machine
end

