-- ==== Sys2Proof/Proofs/SineBounds.lean ====
section
/-! SUPPORT. The rational bounds of the default LFO_SINE enclose the sine (R7, notes/assumptions/5.md). -/

namespace Sys2Proof.Machine

/-- The series cut after `n` pairs, and after one more term, encloses the sine of the angle's lower bound. -/
theorem sinBelow_le_sin_angleBelow (n t : Nat) (hn : 0 < n) (ht : t ≤ 2 ^ 147) :
    (sinBelow n t : ℝ) ≤ Real.sin (angleBelow n t)
      ∧ Real.sin (angleBelow n t) ≤ ((sinBelow n t + sinTerm (angleBelow n t) (2 * n) : ℚ) : ℝ) := by
  obtain ⟨h0, h1, _, h3⟩ := angleBelow_bounds n t hn ht
  exact alternating_bounds _ _ (sinTerm_antitone _ h0 (by linarith [Real.pi_lt_d2])) (hasSum_sinTerm _) n

/-- The sine grows by no more than its argument. -/
theorem sin_le_sin_add_sub {x y : ℝ} (h : x ≤ y) : Real.sin y ≤ Real.sin x + (y - x) := by
  have hd := Real.abs_sin_sub_sin_le y x
  rw [abs_of_nonneg (sub_nonneg.2 h)] at hd
  linarith [le_abs_self (Real.sin y - Real.sin x)]

theorem phaseAngle_eq_pi_mul_halfTurns (t : Nat) : phaseAngle t = Real.pi * halfTurns t := by
  rw [halfTurns_cast, phaseAngle]
  ring

theorem sinBounds_enclose (n t : Nat) (hn : 0 < n) (ht : t ≤ 2 ^ 147) :
    (sinBelow n t : ℝ) ≤ Real.sin (phaseAngle t) ∧ Real.sin (phaseAngle t) ≤ sinAbove n t := by
  rw [phaseAngle_eq_pi_mul_halfTurns]
  obtain ⟨h0, hle, hup, hquarter⟩ := angleBelow_bounds n t hn ht
  obtain ⟨hlo, hhi⟩ := sinBelow_le_sin_angleBelow n t hn ht
  constructor
  · have hmono := Real.sin_le_sin_of_le_of_le_pi_div_two (by linarith [Real.pi_pos]) hquarter hle
    linarith
  · have hgrow := sin_le_sin_add_sub hle
    unfold sinAbove
    push_cast at hhi ⊢
    linarith

/-- Settles O39: the series encloses the sine of the angle's lower bound, which is below the angle by less than the
second bound adds. -/
theorem sineBoundsEncloseTheSine : Obligations.SineBoundsEncloseTheSine := by
  intro n t hn ht
  exact sinBounds_enclose n t hn ht

end Sys2Proof.Machine
end

