-- ==== Sys2Proof/Proofs/SineRounding.lean ====
section
/-! SUPPORT. The default LFO_SINE is the real sine rounded once (R7). -/

namespace Sys2Proof.Machine

/-! ### A real rounded to a word of either sign -/

/-- Over the magnitudes of both signs, too, none is nearer, and another one as near makes the last bit even. -/
theorem NearestEven.dist_signed {y : ℝ} {r : Nat} (h : NearestEven y r) (hy : 0 ≤ y) {u : ℝ} {m : Nat}
    (hu : u = magOfBits m ∨ u = -magOfBits m) :
    |y - magOfBits r| ≤ |y - u| ∧ (|y - magOfBits r| = |y - u| → u ≠ magOfBits r → r % 2 = 0) := by
  rcases hu with rfl | rfl
  · obtain ⟨hle, heven⟩ := h.dist m
    exact ⟨hle, fun he hne => heven he (fun hmr => hne (by rw [hmr]))⟩
  · obtain ⟨hle, heven⟩ := h.dist 0
    have hm : (0 : ℝ) ≤ magOfBits m := Nat.cast_nonneg _
    rw [magOfBits_zero, Nat.cast_zero, sub_zero, abs_of_nonneg hy] at hle heven
    rw [sub_neg_eq_add, abs_of_nonneg (add_nonneg hy hm)]
    refine ⟨by linarith, fun he hne => heven (by linarith) (fun hr => hne ?_)⟩
    rw [← hr, magOfBits_zero, Nat.cast_zero]
    linarith

/-- `x` units round to the finite word `w`: to nearest, ties to even, on the magnitude (R11 `rnd`). -/
def RoundsTo (x : ℝ) (w : Word) : Prop :=
  ∃ neg r y, w = packSign neg r ∧ r < 0x7F800000 ∧ 0 ≤ y ∧ x = signFactor neg * y ∧ NearestEven y r

theorem signFactor_mul_self (neg : Bool) : signFactor neg * signFactor neg = 1 := by cases neg <;> simp [signFactor]

/-- A sign can be moved across a distance. -/
theorem abs_signFactor_mul_sub (neg : Bool) (y u : ℝ) : |signFactor neg * y - u| = |y - signFactor neg * u| := by
  cases neg
  · simp [signFactor]
  · simp only [signFactor, if_true, neg_one_mul, sub_neg_eq_add]
    rw [← abs_neg]
    congr 1
    ring

theorem units_packSign_cast (neg : Bool) (r : Nat) (hr : r < 2 ^ 31) :
    (units (packSign neg r) : ℝ) = signFactor neg * magOfBits r := by
  rw [units_cast, signBit_packSign _ _ hr, magUnits_packSign _ _ hr]

theorem getLsbD_zero_packSign (neg : Bool) (r : Nat) (hr : r < 2 ^ 31) :
    (packSign neg r).getLsbD 0 = decide (r % 2 = 1) := by
  rw [BitVec.getLsbD, packSign_toNat _ _ hr, Nat.testBit_zero]
  have hmod : ((if neg then 2 ^ 31 else 0) + r) % 2 = r % 2 := by cases neg <;> simp; omega
  rw [hmod]

theorem packSign_injective {neg : Bool} {a b : Nat} (ha : a < 2 ^ 31) (hb : b < 2 ^ 31)
    (h : packSign neg a = packSign neg b) : a = b := by
  have := congrArg BitVec.toNat h
  rw [packSign_toNat _ _ ha, packSign_toNat _ _ hb] at this
  omega

theorem RoundsTo.finite {x : ℝ} {w : Word} (h : RoundsTo x w) : isNaN w = false ∧ isInf w = false := by
  obtain ⟨neg, r, y, rfl, hr, _⟩ := h
  rw [finite_iff, packSign_toNat _ _ (by omega)]
  cases neg <;> simp <;> omega

/-- No word is nearer than the rounded one, and one of another value as near makes its last bit even. -/
theorem RoundsTo.dist {x : ℝ} {w : Word} (h : RoundsTo x w) (v : Word) :
    |x - units w| ≤ |x - units v|
      ∧ (|x - units w| = |x - units v| → (units v : ℝ) ≠ units w → w.getLsbD 0 = false) := by
  obtain ⟨neg, r, y, rfl, hr, hy, rfl, hnear⟩ := h
  have hv : signFactor neg * units v = magOfBits (v.toNat % 2 ^ 31)
      ∨ signFactor neg * units v = -magOfBits (v.toNat % 2 ^ 31) := by
    rw [units_cast, magUnits_eq]
    cases neg <;> cases signBit v <;> simp [signFactor]
  obtain ⟨hle, heven⟩ := hnear.dist_signed hy hv
  rw [abs_signFactor_mul_sub, abs_signFactor_mul_sub, units_packSign_cast _ _ (by omega), ← mul_assoc,
    signFactor_mul_self, one_mul, getLsbD_zero_packSign _ _ (by omega)]
  refine ⟨hle, fun he hne => ?_⟩
  have hne' : signFactor neg * units v ≠ magOfBits r := by
    intro heq
    apply hne
    rw [← heq, ← mul_assoc, signFactor_mul_self, one_mul]
  have := heven he hne'
  simp [this]

/-- A finite word is its own rounding. -/
theorem roundsTo_self (w : Word) (h : isNaN w = false ∧ isInf w = false) : RoundsTo (units w) w := by
  refine ⟨signBit w, w.toNat % 2 ^ 31, magUnits w, (packSign_self w).symm, (finite_iff w).1 h, Nat.cast_nonneg _,
    units_cast w, ?_⟩
  rw [magUnits_eq]
  exact nearestEven_self _

/-! ### Rounded rationals -/

/-- A rational rounds to its nearest pattern, below that of infinity when it is at most 1. -/
theorem rndRat_spec (neg : Bool) (v : ℚ) (h : 0 ≤ (v : ℝ)) :
    ∃ r ≤ 0x7F800000, rndRat neg v = packSign neg r ∧ (r < 0x7F800000 → NearestEven (2 ^ 149 * (v : ℝ)) r)
      ∧ ((v : ℝ) ≤ 1 → r < 0x7F800000) := by
  obtain ⟨n, d, hd, heq, hn⟩ := rndRat_nonneg neg v h
  have hpos : (0 : ℝ) < d := Nat.cast_pos.2 hd
  have hval : (n : ℝ) / d = 2 ^ 149 * v := by rw [hn, mul_div_cancel_right₀ _ hpos.ne']
  refine ⟨rndBits n d, rndBits_le_inf n d, heq, fun hfin => hval ▸ nearestEven_rndBits n d hd hfin, fun h1 => ?_⟩
  have hone : magOfBits 0x3F800000 = 2 ^ 149 := by decide +kernel
  have hle : (n : ℝ) ≤ ((2 ^ 149 * d : Nat) : ℝ) := by
    rw [hn, Nat.cast_mul, Nat.cast_pow, Nat.cast_ofNat]
    nlinarith
  have := rndBits_le n d 0x3F800000 hd (by rw [hone]; exact Nat.cast_le.1 hle)
  omega

/-- Bounds that round alike, the lower one at most 1, enclose what rounds as they do. -/
theorem roundsTo_of_bounds (neg : Bool) (v w : ℚ) (y : ℝ) (hv0 : 0 ≤ (v : ℝ)) (hv1 : (v : ℝ) ≤ 1)
    (hlo : (v : ℝ) ≤ y) (hhi : y ≤ w) (h : rndRat neg v = rndRat neg w) :
    RoundsTo (signFactor neg * (2 ^ 149 * y)) (rndRat neg v) := by
  obtain ⟨r, hr, hrv, hnear, hfin⟩ := rndRat_spec neg v hv0
  obtain ⟨r', hr', hrw, hnear', _⟩ := rndRat_spec neg w (hv0.trans (hlo.trans hhi))
  obtain rfl : r = r' := packSign_injective (by omega) (by omega) (hrv.symm.trans (h.trans hrw))
  have hy : 0 ≤ y := hv0.trans hlo
  exact ⟨neg, r, 2 ^ 149 * y, hrv, hfin hv1, by positivity, rfl,
    (hnear (hfin hv1)).between (hnear' (hfin hv1)) (by gcongr) (by gcongr)⟩

/-- Inside the quarter cycle the refinement answers the rounded sine: it ends where both bounds round alike, which they
do at the last level. -/
theorem sinQuarter_roundsTo (neg : Bool) (t : Nat) (h0 : 0 < t) (h1 : t < 2 ^ 147) :
    RoundsTo (signFactor neg * (2 ^ 149 * Real.sin (phaseAngle t))) (sinQuarter neg t) := by
  obtain ⟨k, _, hval, hend⟩ := sinRefine_ends neg t 160 8
  have hlevel : 0 < 2 ^ k * 8 := Nat.mul_pos (Nat.two_pow_pos k) (by omega)
  have hbounds := sinBounds_enclose (2 ^ k * 8) t hlevel h1.le
  have halike : rndRat neg (sinBelow (2 ^ k * 8) t) = rndRat neg (sinAbove (2 ^ k * 8) t) := by
    rcases hend with h | rfl
    · exact h
    · rw [phaseAngle_eq_pi_mul_halfTurns] at hbounds
      exact sinBounds_round_alike neg _ t h0 h1 (by omega) hbounds
  rw [sinQuarter, hval]
  exact roundsTo_of_bounds neg _ _ _ (sinBelow_nonneg _ t hlevel h1.le) (hbounds.1.trans (Real.sin_le_one _)) hbounds.1
    hbounds.2 halike

/-! ### The cases of the default sine -/

theorem sinCycles_of_not_finite (p : Word) (h : isNaN p = true ∨ isInf p = true) : sinCycles p = QNAN := by
  rw [sinCycles, if_pos (by simpa using h)]

theorem sinCycles_of_zero (p : Word) (h : isNaN p = false ∧ isInf p = false) (hz : magUnits p = 0) :
    sinCycles p = p := by
  rw [sinCycles, h.1, h.2, if_neg (by simp), if_pos hz]

theorem sinCycles_of_half (p : Word) (h : isNaN p = false ∧ isInf p = false) (hz : magUnits p ≠ 0)
    (ht : foldQuarter (magUnits p) = 0) : sinCycles p = ZERO := by
  rw [sinCycles, h.1, h.2, if_neg (by simp), if_neg hz, if_pos ht]

theorem foldQuarter_zero : foldQuarter 0 = 0 := by decide

theorem sinCycles_of_quarter (p : Word) (h : isNaN p = false ∧ isInf p = false)
    (ht : foldQuarter (magUnits p) = 2 ^ 147) :
    sinCycles p = packSign (signBit p != secondHalf (magUnits p)) 0x3F800000 := by
  have hz : magUnits p ≠ 0 := fun hz => by simp [hz, foldQuarter_zero] at ht
  rw [sinCycles, h.1, h.2, if_neg (by simp), if_neg hz, if_neg (by omega), if_pos ht]

theorem sinCycles_of_inside (p : Word) (h : isNaN p = false ∧ isInf p = false) (h0 : foldQuarter (magUnits p) ≠ 0)
    (h1 : foldQuarter (magUnits p) ≠ 2 ^ 147) :
    sinCycles p = sinQuarter (signBit p != secondHalf (magUnits p)) (foldQuarter (magUnits p)) := by
  have hz : magUnits p ≠ 0 := fun hz => h0 (by rw [hz, foldQuarter_zero])
  rw [sinCycles, h.1, h.2, if_neg (by simp), if_neg hz, if_neg h0, if_neg h1]

/-- Settles O38: the zeros, the two quarters, the half cycle and what is no number. -/
theorem sineAtQuarterCycles : Obligations.SineAtQuarterCycles := by
  refine ⟨sinCycles_of_zero _ (by decide) (by decide), sinCycles_of_zero _ (by decide) (by decide), ?_, ?_, ?_,
    sinCycles_of_not_finite⟩
  · exact (sinCycles_of_quarter _ (by decide) (by decide +kernel)).trans (by decide +kernel)
  · exact sinCycles_of_half _ (by decide) (by decide +kernel) (by decide +kernel)
  · exact (sinCycles_of_quarter _ (by decide) (by decide +kernel)).trans (by decide +kernel)

/-! ### Correct rounding -/

theorem phaseAngle_zero : phaseAngle 0 = 0 := by simp [phaseAngle]

theorem phaseAngle_quarter : phaseAngle (2 ^ 147 : Nat) = Real.pi / 2 := by
  rw [phaseAngle, Nat.cast_pow, Nat.cast_ofNat]
  ring

/-- Up to a quarter cycle only the angle 0 has the sine 0. -/
theorem eq_zero_of_sin_phaseAngle (t : Nat) (ht : t ≤ 2 ^ 147) (h : Real.sin (phaseAngle t) = 0) : t = 0 := by
  by_contra h0
  have hpos : (0 : ℝ) < halfTurns t := by
    rw [halfTurns_cast]
    have : (0 : ℝ) < t := Nat.cast_pos.2 (by omega)
    positivity
  have hle := (halfTurns_le t ht).2
  rw [phaseAngle_eq_pi_mul_halfTurns] at h
  refine (Real.sin_pos_of_pos_of_lt_pi (mul_pos Real.pi_pos hpos) ?_).ne' h
  nlinarith [Real.pi_pos]

theorem signFactor_ne_zero (neg : Bool) : signFactor neg ≠ 0 := by cases neg <;> simp [signFactor]

theorem foldQuarter_eq_zero_of_sin (p : Word) (h : Real.sin (phaseAngle (units p)) = 0) :
    foldQuarter (magUnits p) = 0 := by
  rw [sin_phaseAngle_units] at h
  exact eq_zero_of_sin_phaseAngle _ (foldQuarter_le _) ((mul_eq_zero.1 h).resolve_left (signFactor_ne_zero _))

/-- The default sine of a finite phase is the real sine, in units, rounded once. -/
theorem sinCycles_roundsTo (p : Word) (h : isNaN p = false ∧ isInf p = false) :
    RoundsTo (2 ^ 149 * Real.sin (phaseAngle (units p))) (sinCycles p) := by
  by_cases hz : magUnits p = 0
  · have hu : (units p : ℝ) = 0 := by rw [units_cast, hz, Nat.cast_zero, mul_zero]
    have hself := roundsTo_self p h
    rw [sinCycles_of_zero p h hz, hu, phaseAngle_zero, Real.sin_zero, mul_zero]
    rwa [hu] at hself
  rw [sin_phaseAngle_units, mul_left_comm]
  by_cases ht : foldQuarter (magUnits p) = 0
  · rw [sinCycles_of_half p h hz ht, ht, Nat.cast_zero, phaseAngle_zero, Real.sin_zero, mul_zero, mul_zero]
    have hself := roundsTo_self ZERO (by decide)
    rwa [show units ZERO = 0 by decide, Int.cast_zero] at hself
  by_cases hq : foldQuarter (magUnits p) = 2 ^ 147
  · have hone : magOfBits 0x3F800000 = 2 ^ 149 := by decide +kernel
    rw [sinCycles_of_quarter p h hq, hq, phaseAngle_quarter, Real.sin_pi_div_two, mul_one]
    refine ⟨_, 0x3F800000, 2 ^ 149, rfl, by omega, by positivity, rfl, ?_⟩
    have hself := nearestEven_self (K := ℝ) 0x3F800000
    rwa [hone, Nat.cast_pow, Nat.cast_ofNat] at hself
  · rw [sinCycles_of_inside p h ht hq]
    exact sinQuarter_roundsTo _ _ (by omega) (by have := foldQuarter_le (magUnits p); omega)

/-- The distance to a word's value, in units. -/
theorem abs_sub_units_div (x : ℝ) (v : Word) : |x - (units v : ℝ) / 2 ^ 149| = |2 ^ 149 * x - units v| / 2 ^ 149 := by
  have hpos : (0 : ℝ) < 2 ^ 149 := by positivity
  rw [← abs_of_pos hpos, ← abs_div, abs_of_pos hpos, sub_div, mul_div_cancel_left₀ _ hpos.ne']

/-- Settles O52: the rounding of the sine, and the phases at which it is 0. -/
theorem sineIsCorrectlyRounded : Obligations.SineIsCorrectlyRounded := by
  intro p hnan hinf real x w
  have hx : x = Real.sin (phaseAngle (units p)) := congrArg Real.sin (mul_div_assoc _ _ _).symm
  have hround : RoundsTo (2 ^ 149 * x) w := hx ▸ sinCycles_roundsTo p ⟨hnan, hinf⟩
  have hpos : (0 : ℝ) < 2 ^ 149 := by positivity
  refine ⟨hround.finite.1, hround.finite.2, fun v _ _ => ?_, fun hu => ?_, fun hsin hu => ?_⟩
  · obtain ⟨hle, heven⟩ := hround.dist v
    simp only [real, abs_sub_units_div, div_le_div_iff_of_pos_right hpos, div_left_inj' hpos.ne', ne_eq]
    exact ⟨hle, heven⟩
  · exact sinCycles_of_zero p ⟨hnan, hinf⟩ (by rw [← natAbs_units, hu, Int.natAbs_zero])
  · have hz : magUnits p ≠ 0 := by rwa [← natAbs_units, Int.natAbs_ne_zero]
    exact sinCycles_of_half p ⟨hnan, hinf⟩ hz (foldQuarter_eq_zero_of_sin p (hx ▸ hsin))

end Sys2Proof.Machine
end

