-- ==== Sys2Proof/Proofs/StepEffect.lean ====
section
/-! SUPPORT. What a command and a step can do, said once (R94, R96, R246, R260): the invariant and the register facts of
the later files are read off these two case lists. -/

namespace Sys2Proof.Machine

/-! ### Commands -/

/-- `ExecEffect s i t`: one way in which `i` can lead from `s` to `t`. -/
inductive ExecEffect (s : State) : Instr → State → Prop
  /-- OK with nothing but a response: NOP, READ_REG, DL_READ (R200, R210, R126). -/
  | answered (i : Instr) (a b : Word) : ExecEffect s i (respondOk s a b)
  /-- The one form of taking an error (R230). -/
  | raised (i : Instr) (code : RespCode) (a b : Word) : ExecEffect s i (raiseWith s code a b)
  /-- CONFIGURE that could not set up the delay lines (R204). -/
  | configureFailed (sr : Word) : ExecEffect s (.configure sr) (configureFailed s)
  /-- CONFIGURE that set them up (R205). -/
  | configureDone (sr : Word) (hpos : 1 ≤ requestedLength s.cfg sr)
      (hcap : requestedLength s.cfg sr ≤ s.cfg.bufCapacity.toNat) :
      ExecEffect s (.configure sr) (configureDone s sr (requestedLength s.cfg sr))
  /-- WRITE_REG of a defined register (R213). -/
  | regWritten (index : Byte) (v : Word) (r : Reg) (hindex : Reg.ofIndex index = some r) :
      ExecEffect s (.writeReg index v) (respondOk (regWrite s r v) 0#32 0#32)
  /-- DL_WRITE of a ready block (R125). -/
  | lineWritten (ch : Channel) (v : Word) (hready : s.status.ready = true)
      (hhead : (s.wh ch).toNat < s.length.toNat) :
      ExecEffect s (.dlWrite ch v)
        (respondOk ((s.setRam ch (writeWord (s.ram ch) (s.wh ch).toNat v)).setWh ch (nextHead s.length (s.wh ch)))
          0#32 0#32)
  /-- PROCESS_FRAME of a ready block (R150). -/
  | framed (inL inR : Word) (hready : s.status.ready = true) (hL : s.whL.toNat < s.length.toNat)
      (hR : s.whR.toNat < s.length.toNat) : ExecEffect s (.processFrame inL inR) (frameResult s inL inR)

/-- Every next state of a command is one of the effects. -/
theorem exec_effect {i : Instr} {s t : State} (h : exec i s = .next t) : ExecEffect s i t := by
  cases i with
  | nop =>
    obtain rfl := (exec_nop_next s t).1 h
    exact .answered ..
  | configure sr =>
    obtain ⟨_, rfl⟩ | ⟨hpos, hcap, rfl⟩ := (exec_configure_next sr s t).1 h
    · exact .configureFailed sr
    · exact .configureDone sr hpos hcap
  | writeReg index v =>
    obtain ⟨r, hindex, _, rfl⟩ | ⟨_, rfl⟩ := (exec_writeReg_next index v s t).1 h
    · exact .regWritten index v r hindex
    · exact .raised ..
  | readReg index =>
    obtain ⟨r, _, rfl⟩ | ⟨_, rfl⟩ := (exec_readReg_next index s t).1 h
    · exact .answered ..
    · exact .raised ..
  | processFrame inL inR =>
    obtain ⟨hready, hL, hR, rfl⟩ | ⟨_, rfl⟩ := (exec_processFrame_next inL inR s t).1 h
    · exact .framed inL inR hready hL hR
    · exact .raised ..
  | dlWrite ch v =>
    obtain ⟨hready, hhead, rfl⟩ | ⟨_, rfl⟩ := (exec_dlWrite_next ch v s t).1 h
    · exact .lineWritten ch v hready hhead
    · exact .raised ..
  | dlRead ch d =>
    obtain ⟨_, _, rfl⟩ | ⟨_, rfl⟩ := (exec_dlRead_next ch d s t).1 h
    · exact .answered ..
    · exact .raised ..

/-- No command changes the parameters of the implementation (R44). -/
theorem exec_cfg {i : Instr} {s t : State} (h : exec i s = .next t) : t.cfg = s.cfg := by
  cases exec_effect h <;> simp

/-! ### The step -/

theorem step_idle {s : State} (hp : s.port = []) : step s = .next s := by simp [step, hp]

theorem step_reset {s : State} {rest : List HostEvent} (hp : s.port = .reset :: rest) :
    step s = .next (resetBlock { s with port := rest }) := by simp [step, hp]

theorem step_command {s : State} {r : Request} {rest : List HostEvent} {i : Instr} (hp : s.port = .request r :: rest)
    (hd : decode r = .command i) : step s = exec i { s with port := rest } := by simp [step, hp, hd]

theorem step_illegal {s : State} {r : Request} {rest : List HostEvent} {why : Illegal}
    (hp : s.port = .request r :: rest) (hd : decode r = .illegal why) :
    step s = .next (rejectRequest { s with port := rest }) := by simp [step, hp, hd]

/-- The four kinds of step, by the host's next event and the decoder's answer. -/
theorem step_cases (s : State) :
    (s.port = [] ∧ step s = .next s)
    ∨ (∃ rest, s.port = .reset :: rest ∧ step s = .next (resetBlock { s with port := rest }))
    ∨ (∃ r rest i, s.port = .request r :: rest ∧ decode r = .command i ∧ step s = exec i { s with port := rest })
    ∨ ∃ r rest why, s.port = .request r :: rest ∧ decode r = .illegal why
        ∧ step s = .next (rejectRequest { s with port := rest }) := by
  match hp : s.port with
  | [] => exact .inl ⟨rfl, step_idle hp⟩
  | .reset :: rest => exact .inr (.inl ⟨rest, rfl, step_reset hp⟩)
  | .request r :: rest =>
    cases hd : decode r with
    | command i => exact .inr (.inr (.inl ⟨r, rest, i, rfl, hd, step_command hp hd⟩))
    | illegal why => exact .inr (.inr (.inr ⟨r, rest, why, rfl, hd, step_illegal hp hd⟩))

end Sys2Proof.Machine
end

