-- ==== Sys2Proof/Proofs/Invariant.lean ====
section
/-! SUPPORT. The invariant of Safety.lean holds at reset, every step keeps it, and from a state with it every step
answers (R41, R45, R71, R202, R235). -/

namespace Sys2Proof.Machine

/-! ### The parts of the invariant -/

theorem State.Inv.legal {s : State} (hs : s.Inv) : s.cfg.legal = true := hs.1

theorem State.Inv.ramGood {s : State} (hs : s.Inv) : s.RamGood := hs.2.1

/-- Both heads of a ready block lie below LENGTH (R41). -/
theorem State.Inv.wh_lt {s : State} (hs : s.Inv) (hready : s.status.ready = true) (ch : Channel) :
    (s.wh ch).toNat < s.length.toNat := by
  obtain ⟨_, _, hprep, _⟩ := hs
  obtain ⟨_, _, _, hL, hR⟩ := hprep hready
  cases ch with
  | left => exact hL
  | right => exact hR

/-! ### What each update does to the invariant -/

/-- A response changes no field that the invariant reads. -/
theorem inv_respondOk_iff (s : State) (a b : Word) : (respondOk s a b).Inv ↔ s.Inv := .rfl

/-- Of STATUS the invariant reads READY only, which no error touches. -/
theorem inv_raiseWith_iff (s : State) (code : RespCode) (a b : Word) : (raiseWith s code a b).Inv ↔ s.Inv := by
  cases code <;> exact .rfl

/-- No writable register but STATUS occurs in the invariant, and a write of STATUS keeps READY (R35). -/
theorem inv_regWrite_iff (s : State) (r : Reg) (v : Word) : (regWrite s r v).Inv ↔ s.Inv := by
  cases r <;> exact .rfl

/-- A block that is not ready, with released registers and empty RAMs, has the invariant. -/
theorem State.Released.inv {s : State} (hs : s.Released) (hcfg : s.cfg.legal = true) (hready : s.status.ready = false)
    (hL : s.ramL = zeroFilled) (hR : s.ramR = zeroFilled) : s.Inv := by
  obtain ⟨hwf, hbelow⟩ := ramGood_zeroFilled s.length.toNat
  refine ⟨hcfg, ?_, fun h => ?_, fun _ => hs⟩
  · rw [State.RamGood, hL, hR]
    exact ⟨hwf, hwf, hbelow, hbelow⟩
  · rw [hready] at h
    cases h

theorem inv_resetBlock (s : State) (hcfg : s.cfg.legal = true) : (resetBlock s).Inv :=
  State.Released.inv (s := resetBlock s) (by simp [State.Released, ZERO]) hcfg rfl rfl rfl

theorem inv_configureFailed (s : State) (hcfg : s.cfg.legal = true) : (configureFailed s).Inv :=
  State.Released.inv (s := configureFailed s) (by simp [State.Released]) hcfg rfl rfl rfl

/-- A length that fits BUF_CAPACITY fits the 32 bits of LENGTH, so LENGTH is the length asked for (R202, R205). -/
theorem inv_configureDone (s : State) (sr : Word) (hcfg : s.cfg.legal = true) (hpos : 1 ≤ requestedLength s.cfg sr)
    (hcap : requestedLength s.cfg sr ≤ s.cfg.bufCapacity.toNat) :
    (configureDone s sr (requestedLength s.cfg sr)).Inv := by
  obtain ⟨hwf, hbelow⟩ := ramGood_zeroFilled (configureDone s sr (requestedLength s.cfg sr)).length.toNat
  have hlen : (configureDone s sr (requestedLength s.cfg sr)).length.toNat = requestedLength s.cfg sr :=
    (BitVec.toNat_ofNat ..).trans (Nat.mod_eq_of_lt (Nat.lt_of_le_of_lt hcap s.cfg.bufCapacity.isLt))
  refine ⟨hcfg, ⟨hwf, hwf, hbelow, hbelow⟩, fun _ => ?_, fun h => nomatch h⟩
  rw [State.Prepared, hlen]
  exact ⟨rfl, hpos, hcap, hpos, hpos⟩

/-- A write at the head below LENGTH keeps the canonical form and moves the head below LENGTH again (R41, R42). -/
theorem State.Inv.lineWritten {s : State} (hs : s.Inv) (ch : Channel) (v : Word) (hready : s.status.ready = true)
    (hhead : (s.wh ch).toNat < s.length.toNat) :
    ((s.setRam ch (writeWord (s.ram ch) (s.wh ch).toNat v)).setWh ch (nextHead s.length (s.wh ch))).Inv := by
  obtain ⟨hwfL, hwfR, hbelowL, hbelowR⟩ := hs.ramGood
  cases ch with
  | left =>
    exact hs.of_ready hready rfl hready rfl rfl
      ⟨ramWf_writeWord _ hwfL _ _, hwfR, ramBelow_writeWord _ _ hbelowL _ hhead _, hbelowR⟩ (nextHead_lt _ _ hhead)
      (hs.wh_lt hready .right)
  | right =>
    exact hs.of_ready hready rfl hready rfl rfl
      ⟨hwfL, ramWf_writeWord _ hwfR _ _, hbelowL, ramBelow_writeWord _ _ hbelowR _ hhead _⟩ (hs.wh_lt hready .left)
      (nextHead_lt _ _ hhead)

/-- A frame writes both delay lines at their heads; the engine registers it writes are free while the block is ready. -/
theorem State.Inv.framed {s : State} (hs : s.Inv) (inL inR : Word) (hready : s.status.ready = true)
    (hL : s.whL.toNat < s.length.toNat) (hR : s.whR.toNat < s.length.toNat) : (frameResult s inL inR).Inv := by
  obtain ⟨hwfL, hwfR, hbelowL, hbelowR⟩ := hs.ramGood
  exact hs.of_ready hready rfl hready rfl rfl
    ⟨ramWf_writeWord _ hwfL _ _, ramWf_writeWord _ hwfR _ _, ramBelow_writeWord _ _ hbelowL _ hL _,
      ramBelow_writeWord _ _ hbelowR _ hR _⟩ (nextHead_lt _ _ hL) (nextHead_lt _ _ hR)

/-! ### Every step keeps the invariant -/

theorem State.Inv.exec_next {i : Instr} {s t : State} (hs : s.Inv) (h : exec i s = .next t) : t.Inv := by
  cases exec_effect h with
  | answered => exact (inv_respondOk_iff ..).2 hs
  | raised => exact (inv_raiseWith_iff ..).2 hs
  | configureFailed => exact inv_configureFailed s hs.legal
  | configureDone sr hpos hcap => exact inv_configureDone s sr hs.legal hpos hcap
  | regWritten => exact (inv_respondOk_iff ..).2 ((inv_regWrite_iff ..).2 hs)
  | lineWritten ch v hready hhead => exact (inv_respondOk_iff ..).2 (hs.lineWritten ch v hready hhead)
  | framed inL inR hready hL hR => exact hs.framed inL inR hready hL hR

/-- Taking the host's next event changes no field that the invariant reads. -/
theorem inv_port_iff (s : State) (rest : List HostEvent) : ({ s with port := rest } : State).Inv ↔ s.Inv := .rfl

/-- Settles O48, by the four kinds of step. -/
theorem stepKeepsTheInvariant : Obligations.StepKeepsTheInvariant := by
  intro s t hs h
  have hport : ∀ rest, ({ s with port := rest } : State).Inv := fun rest => (inv_port_iff s rest).2 hs
  obtain ⟨_, hstep⟩ | ⟨rest, _, hstep⟩ | ⟨_, rest, _, _, _, hstep⟩ | ⟨_, rest, _, _, _, hstep⟩ := step_cases s <;>
    rw [hstep] at h
  · obtain rfl := Host.Outcome.next.inj h
    exact hs
  · obtain rfl := Host.Outcome.next.inj h
    exact inv_resetBlock _ hs.legal
  · exact (hport rest).exec_next h
  · obtain rfl := Host.Outcome.next.inj h
    exact (inv_raiseWith_iff ..).2 (hport rest)

/-! ### Every step answers -/

theorem State.Inv.exec_answers {s : State} (hs : s.Inv) (i : Instr) : ∃ t, exec i s = .next t := by
  cases i with
  | nop => exact ⟨_, (exec_nop_next ..).2 rfl⟩
  | configure sr =>
    by_cases hfit : requestedLength s.cfg sr < 1 ∨ s.cfg.bufCapacity.toNat < requestedLength s.cfg sr
    · exact ⟨_, (exec_configure_next ..).2 (.inl ⟨hfit, rfl⟩)⟩
    · exact ⟨_, (exec_configure_next ..).2 (.inr ⟨by omega, by omega, rfl⟩)⟩
  | writeReg index v =>
    by_cases hrw : ∃ r, Reg.ofIndex index = some r ∧ r.access = .rw
    · obtain ⟨r, hindex, hrw⟩ := hrw
      exact ⟨_, (exec_writeReg_next ..).2 (.inl ⟨r, hindex, hrw, rfl⟩)⟩
    · exact ⟨_, (exec_writeReg_next ..).2 (.inr ⟨fun r hindex hr => hrw ⟨r, hindex, hr⟩, rfl⟩)⟩
  | readReg index =>
    cases hindex : Reg.ofIndex index with
    | some r => exact ⟨_, (exec_readReg_next ..).2 (.inl ⟨r, hindex, rfl⟩)⟩
    | none => exact ⟨_, (exec_readReg_next ..).2 (.inr ⟨hindex, rfl⟩)⟩
  | processFrame inL inR =>
    cases hready : s.status.ready with
    | true =>
      exact ⟨_, (exec_processFrame_next ..).2 (.inl ⟨hready, hs.wh_lt hready .left, hs.wh_lt hready .right, rfl⟩)⟩
    | false => exact ⟨_, (exec_processFrame_next ..).2 (.inr ⟨hready, rfl⟩)⟩
  | dlWrite ch v =>
    cases hready : s.status.ready with
    | true => exact ⟨_, (exec_dlWrite_next ..).2 (.inl ⟨hready, hs.wh_lt hready ch, rfl⟩)⟩
    | false => exact ⟨_, (exec_dlWrite_next ..).2 (.inr ⟨hready, rfl⟩)⟩
  | dlRead ch d =>
    cases hready : s.status.ready with
    | true => exact ⟨_, (exec_dlRead_next ..).2 (.inl ⟨hready, Nat.zero_lt_of_lt (hs.wh_lt hready ch), rfl⟩)⟩
    | false => exact ⟨_, (exec_dlRead_next ..).2 (.inr ⟨hready, rfl⟩)⟩

theorem State.Inv.step_answers {s : State} (hs : s.Inv) : ∃ t, step s = .next t ∧ t.cfg = s.cfg := by
  obtain ⟨_, hstep⟩ | ⟨rest, _, hstep⟩ | ⟨_, rest, i, _, _, hstep⟩ | ⟨_, rest, _, _, _, hstep⟩ := step_cases s
  · exact ⟨_, hstep, rfl⟩
  · exact ⟨_, hstep, rfl⟩
  · obtain ⟨t, h⟩ := ((inv_port_iff s rest).2 hs).exec_answers i
    have hcfg := exec_cfg h
    exact ⟨t, hstep.trans h, hcfg⟩
  · exact ⟨_, hstep, rfl⟩

/-! ### Runs -/

theorem run_zero (M : Host.Core) (s : M.State) : M.run 0 s = .next s := rfl

theorem run_succ (M : Host.Core) {s t : M.State} (h : M.step s = .next t) (n : Nat) : M.run (n + 1) s = M.run n t := by
  rw [Host.Core.run, h]

/-- From a state with the invariant a run of any length answers a state with it and with the same parameters. -/
theorem State.Inv.run_answers {s : State} (hs : s.Inv) (n : Nat) :
    ∃ t : State, core.run n s = .next t ∧ t.Inv ∧ t.cfg = s.cfg := by
  induction n generalizing s with
  | zero => exact ⟨s, run_zero core s, hs, rfl⟩
  | succ n ih =>
    obtain ⟨u, hstep, hcfg⟩ := hs.step_answers
    obtain ⟨t, hrun, ht, htcfg⟩ := ih (stepKeepsTheInvariant s u hs hstep)
    exact ⟨t, (run_succ core hstep n).trans hrun, ht, htcfg.trans hcfg⟩

/-- The reset state with any legal parameters and any coming host events. -/
theorem inv_reset_with (cfg : Params) (events : List HostEvent) (hcfg : cfg.legal = true) :
    ({ State.reset with cfg := cfg, port := events } : State).Inv :=
  inv_resetBlock { State.reset with cfg := cfg, port := events } hcfg

/-- Settles O47: the default parameters are legal. -/
theorem invariantHoldsAtReset : Obligations.InvariantHoldsAtReset :=
  inv_reset_with Params.default [] (by decide +kernel)

/-- Settles O50, by the invariant along the run. -/
theorem everyRunFromResetIsSafe : Obligations.EveryRunFromResetIsSafe := by
  intro cfg events n hcfg
  obtain ⟨t, hrun, _, htcfg⟩ := (inv_reset_with cfg events hcfg).run_answers n
  exact ⟨t, hrun, htcfg⟩

end Sys2Proof.Machine
end

