-- ==== Sys2Proof/Proofs/RegisterWriters.lean ====
section
/-! SUPPORT. Which commands can change STATUS, the parameter registers and the engine state (R34, R35, R37 to R39). -/

namespace Sys2Proof.Machine

/-! ### STATUS -/

/-- No two indices name one register (R33). -/
theorem Reg.index_of_ofIndex {index : Byte} {r : Reg} (h : Reg.ofIndex index = some r) : index = r.index := by
  unfold Reg.ofIndex at h
  split at h <;> cases h <;> exact BitVec.eq_of_toNat_eq ‹_›

theorem regWrite_status_of_ne (s : State) {r : Reg} (v : Word) (h : r ≠ .status) :
    (regWrite s r v).status = s.status := by
  cases r with
  | status => exact absurd rfl h
  | _ => rfl

/-- What a command does to STATUS: CONFIGURE may change READY, an error records its bit, and a WRITE_REG of STATUS
clears the bits it names (R35). -/
theorem exec_status {i : Instr} {s t : State} (h : exec i s = .next t) :
    (∃ ready code, t.status = { s.status with ready := ready }.record code)
      ∨ ∃ v, i = .writeReg 0x0A#8 v ∧ t.status = s.status.clear v := by
  cases exec_effect h with
  | answered | lineWritten | framed => exact .inl ⟨s.status.ready, .ok, by simp⟩
  | raised _ code => exact .inl ⟨s.status.ready, code, rfl⟩
  | configureFailed => exact .inl ⟨false, .allocError, rfl⟩
  | configureDone => exact .inl ⟨true, .ok, rfl⟩
  | regWritten index v r hindex =>
    by_cases hr : r = .status
    · subst hr
      exact .inr ⟨v, by rw [Reg.index_of_ofIndex hindex]; rfl, rfl⟩
    · exact .inl ⟨s.status.ready, .ok, regWrite_status_of_ne s v hr⟩

/-- Recording an error sets its bit and clears none. -/
theorem sticky_record (st : Status) (ready : Bool) (code : RespCode) :
    (st.allocErr = true → ({ st with ready := ready }.record code).allocErr = true)
      ∧ (st.npErr = true → ({ st with ready := ready }.record code).npErr = true)
      ∧ (st.illErr = true → ({ st with ready := ready }.record code).illErr = true) := by
  cases code <;> simp

/-- Settles O45. -/
theorem stickyBitsStay : Obligations.StickyBitsStay := by
  intro i s t h
  obtain ⟨ready, code, hst⟩ | ⟨v, rfl, hst⟩ := exec_status h <;> rw [hst]
  · obtain ⟨halloc, hnp, hill⟩ := sticky_record s.status ready code
    exact ⟨fun _ => halloc, fun _ => hnp, fun _ => hill⟩
  · refine ⟨fun hv hset => ?_, fun hv hset => ?_, fun hv hset => ?_⟩ <;>
      simp only [Status.clear, hset, hv v rfl, Bool.not_false, Bool.and_self]

/-! ### The parameter registers and the engine state -/

/-- Settles O46, effect by effect. -/
theorem whoWritesWhichRegister : Obligations.WhoWritesWhichRegister := by
  intro i s t h
  cases exec_effect h with
  | answered | raised | lineWritten => simp
  | configureFailed sr | configureDone sr => exact ⟨by simp, fun _ hno => absurd rfl (hno sr)⟩
  | regWritten index v => exact ⟨fun hno => absurd rfl (hno index v), by simp⟩
  | framed inL inR => exact ⟨by simp, fun hno => absurd rfl (hno inL inR)⟩

end Sys2Proof.Machine
end

