-- ==== Sys2Proof/Proofs/ResetEvent.lean ====
section
/-! SUPPORT. What the reset event sets (R43, R45, R260). -/

namespace Sys2Proof.Machine

/-- Every register of a block after reset but the four constants reads 0 (R45). -/
theorem regValue_resetBlock (s : State) (r : Reg) (hid : r ≠ .id) (hversion : r ≠ .version) (hcapacity : r ≠ .capacity)
    (hmaxDelay : r ≠ .maxDelay) : regValue (resetBlock s) r = 0#32 := by
  cases r with
  | id => exact absurd rfl hid
  | version => exact absurd rfl hversion
  | capacity => exact absurd rfl hcapacity
  | maxDelay => exact absurd rfl hmaxDelay
  | status => exact (by decide : Status.word ⟨false, false, false, false⟩ = 0#32)
  | _ => rfl

/-- No delay-RAM word is reachable after reset, since LENGTH is 0 (R43). -/
theorem memRead_resetBlock (s : State) (ch : Channel) (i : Nat) : memRead (resetBlock s) ch i = none :=
  memRead_none _ ch i (Nat.zero_le i)

/-- Settles O10. -/
theorem resetEventResetsTheBlock : Obligations.ResetEventResetsTheBlock := by
  intro s rest hp
  exact ⟨_, step_reset hp, rfl, rfl, rfl, regValue_resetBlock _, rfl, rfl, rfl, rfl, memRead_resetBlock _⟩

end Sys2Proof.Machine
end

