-- ==== Sys2Proof/Proofs/DelayRamFrame.lean ====
section
/-! SUPPORT. Which delay-RAM words a command reaches and changes (R71, R77): every access of a state with the invariant
lies below LENGTH, and DL_WRITE and PROCESS_FRAME change the words at the old heads only. -/

namespace Sys2Proof.Machine

/-- Settles O49: with both heads below LENGTH no delay-RAM access faults. -/
theorem invariantStatesNeverStop : Obligations.InvariantStatesNeverStop := by
  intro s hs
  obtain ⟨t, hstep, _⟩ := hs.step_answers
  exact ⟨t, hstep⟩

/-! ### One channel of a state -/

@[simp] theorem respondOk_ram (s : State) (a b : Word) (ch : Channel) : (respondOk s a b).ram ch = s.ram ch := by
  cases ch <;> rfl

theorem State.Inv.ramWf_ram {s : State} (hs : s.Inv) (ch : Channel) : ramWf (s.ram ch) = true := by
  obtain ⟨hL, hR, _, _⟩ := hs.ramGood
  cases ch with
  | left => exact hL
  | right => exact hR

/-! ### A word stored at the head -/

/-- The state in which DL_WRITE leaves a ready block (R125). -/
def lineStored (s : State) (ch : Channel) (v : Word) : State :=
  respondOk ((s.setRam ch (writeWord (s.ram ch) (s.wh ch).toNat v)).setWh ch (nextHead s.length (s.wh ch))) 0#32 0#32

theorem exec_dlWrite_ready {s t : State} {ch : Channel} {v : Word} (hready : s.status.ready = true)
    (h : exec (.dlWrite ch v) s = .next t) : (s.wh ch).toNat < s.length.toNat ∧ t = lineStored s ch v := by
  obtain ⟨_, hhead, rfl⟩ | ⟨hnot, _⟩ := (exec_dlWrite_next ch v s t).1 h
  · exact ⟨hhead, rfl⟩
  · exact absurd (hready.symm.trans hnot) (by decide)

@[simp] theorem lineStored_length (s : State) (ch : Channel) (v : Word) : (lineStored s ch v).length = s.length := by
  simp [lineStored]

@[simp] theorem lineStored_ram (s : State) (ch : Channel) (v : Word) :
    (lineStored s ch v).ram ch = writeWord (s.ram ch) (s.wh ch).toNat v := by
  simp [lineStored]

theorem lineStored_other (s : State) {ch c : Channel} (v : Word) (h : c ≠ ch) :
    (lineStored s ch v).ram c = s.ram c ∧ (lineStored s ch v).wh c = s.wh c := by
  cases ch <;> cases c
  case left.left | right.right => exact absurd rfl h
  case left.right | right.left => exact ⟨rfl, rfl⟩

/-- No register but a head changes. -/
theorem lineStored_registers (s : State) (ch : Channel) (v : Word) :
    lineStored s ch v = { s with
      ramL := (lineStored s ch v).ramL, ramR := (lineStored s ch v).ramR
      whL := (lineStored s ch v).whL, whR := (lineStored s ch v).whR
      answers := (lineStored s ch v).answers } := by
  cases ch <;> rfl

/-- Settles O24. -/
theorem dlWriteChangesOneWord : Obligations.DlWriteChangesOneWord := by
  intro s t ch v hs hready h
  obtain ⟨hhead, rfl⟩ := exec_dlWrite_ready hready h
  have hwf := hs.ramWf_ram ch
  refine ⟨?_, fun i hi => ?_, fun a ha => ?_, fun c hc => lineStored_other s v hc, lineStored_registers s ch v⟩
  · simp [memRead, hhead, readWord_writeWord _ hwf]
  · simp [memRead, readWord_writeWord _ hwf, hi]
  · rw [lineStored_ram]
    exact readByte_writeWord_outside _ hwf _ _ _ ha

/-! ### Both lanes of a frame -/

theorem exec_processFrame_ready {s t : State} {inL inR : Word} (hready : s.status.ready = true)
    (h : exec (.processFrame inL inR) s = .next t) :
    s.whL.toNat < s.length.toNat ∧ s.whR.toNat < s.length.toNat ∧ t = frameResult s inL inR := by
  obtain ⟨_, hL, hR, rfl⟩ | ⟨hnot, _⟩ := (exec_processFrame_next inL inR s t).1 h
  · exact ⟨hL, hR, rfl⟩
  · exact absurd (hready.symm.trans hnot) (by decide)

/-- Step S1 stores one word per lane, at the head of the lane (R152). -/
theorem frameResult_ram (s : State) (inL inR : Word) (ch : Channel) :
    ∃ v, (frameResult s inL inR).ram ch = writeWord (s.ram ch) (s.wh ch).toNat v := by
  cases ch <;> exact ⟨_, rfl⟩

/-- Settles O31. -/
theorem processFrameFrame : Obligations.ProcessFrameFrame := by
  intro s t inL inR hs hready h
  obtain ⟨hL, hR, rfl⟩ := exec_processFrame_ready hready h
  have hwfL : ramWf s.ramL = true := hs.ramWf_ram .left
  have hwfR : ramWf s.ramR = true := hs.ramWf_ram .right
  refine ⟨?_, ?_, fun ch a ha => ?_, rfl⟩
  · simp [memRead, hL, readWord_writeWord _ hwfL]
  · simp [memRead, hR, readWord_writeWord _ hwfR]
  · obtain ⟨v, hram⟩ := frameResult_ram s inL inR ch
    rw [hram]
    exact readByte_writeWord_outside _ (hs.ramWf_ram ch) _ _ _ ha

end Sys2Proof.Machine
end

