-- ==== Sys2Proof/Proofs/SideEffects.lean ====
section
/-! SUPPORT. What a command changes when it answers an error, and what a reading command changes (R77, R78, R200,
R230). -/

namespace Sys2Proof.Machine

/-! ### Errors -/

/-- Every command but CONFIGURE answers OK or takes one of two errors, which changes the sticky bit of its code and the
record of responses (R230). -/
theorem exec_ok_or_raised {i : Instr} {s t : State} (hi : ∀ sr, i ≠ .configure sr) (h : exec i s = .next t) :
    (∃ a b, t.answers = ⟨.ok, a, b⟩ :: s.answers)
      ∨ ∃ code a b, (code = .illegalCommand ∨ code = .notPrepared) ∧ t = raiseWith s code a b := by
  cases i with
  | nop =>
    obtain rfl := (exec_nop_next s t).1 h
    exact .inl ⟨_, _, rfl⟩
  | configure sr => exact absurd rfl (hi sr)
  | writeReg index v =>
    obtain ⟨r, _, _, rfl⟩ | ⟨_, rfl⟩ := (exec_writeReg_next index v s t).1 h
    · exact .inl ⟨_, _, congrArg _ (regWrite_answers s r v)⟩
    · exact .inr ⟨_, _, _, .inl rfl, rfl⟩
  | readReg index =>
    obtain ⟨r, _, rfl⟩ | ⟨_, rfl⟩ := (exec_readReg_next index s t).1 h
    · exact .inl ⟨_, _, rfl⟩
    · exact .inr ⟨_, _, _, .inl rfl, rfl⟩
  | processFrame inL inR =>
    obtain ⟨_, _, _, rfl⟩ | ⟨_, rfl⟩ := (exec_processFrame_next inL inR s t).1 h
    · exact .inl ⟨_, _, rfl⟩
    · exact .inr ⟨_, _, _, .inr rfl, rfl⟩
  | dlWrite ch v =>
    obtain ⟨_, _, rfl⟩ | ⟨_, rfl⟩ := (exec_dlWrite_next ch v s t).1 h
    · exact .inl ⟨0#32, 0#32, by simp⟩
    · exact .inr ⟨_, _, _, .inr rfl, rfl⟩
  | dlRead ch d =>
    obtain ⟨_, _, rfl⟩ | ⟨_, rfl⟩ := (exec_dlRead_next ch d s t).1 h
    · exact .inl ⟨_, _, rfl⟩
    · exact .inr ⟨_, _, _, .inr rfl, rfl⟩

/-- The newest response of a record determines its code. -/
theorem code_of_cons_eq {c d : RespCode} {a b a' b' : Word} {rest : List Response}
    (h : (⟨c, a, b⟩ : Response) :: rest = ⟨d, a', b'⟩ :: rest) : c = d :=
  congrArg Response.code (List.cons.inj h).1

/-- Settles O43. -/
theorem errorsChangeOnlyTheirStickyBit : Obligations.ErrorsChangeOnlyTheirStickyBit := by
  intro i s t code a b hi h hans hne
  obtain ⟨a', b', hok⟩ | ⟨code', a', b', hcode, rfl⟩ := exec_ok_or_raised hi h
  · exact absurd (code_of_cons_eq (hans.symm.trans hok)) hne
  · obtain rfl := code_of_cons_eq ((raiseWith_answers ..).symm.trans hans)
    obtain rfl | rfl := hcode
    · exact .inl ⟨rfl, rfl⟩
    · exact .inr ⟨rfl, rfl⟩

/-! ### Reading commands -/

/-- NOP, READ_REG and DL_READ change the record of responses and the sticky bit of the code they answer. -/
theorem exec_read_effect {i : Instr} {s t : State}
    (hi : i = .nop ∨ (∃ r, i = .readReg r) ∨ ∃ ch d, i = .dlRead ch d) (h : exec i s = .next t) :
    ∃ code a b, t = { s with status := s.status.record code, answers := ⟨code, a, b⟩ :: s.answers } := by
  cases exec_effect h with
  | answered _ a b => exact ⟨.ok, a, b, rfl⟩
  | raised _ code a b => exact ⟨code, a, b, rfl⟩
  | configureFailed | configureDone | regWritten | lineWritten | framed => simp at hi

/-- Settles O44: OK has no sticky bit. -/
theorem readsHaveNoSideEffect : Obligations.ReadsHaveNoSideEffect := by
  intro i s t a b hi h hans
  obtain ⟨code, a', b', rfl⟩ := exec_read_effect hi h
  obtain rfl := code_of_cons_eq hans
  rfl

end Sys2Proof.Machine
end

