-- ==== Sys2Proof/Proofs/Transport.lean ====
section
/-! SUPPORT. The byte order of the host transport (R73). -/

namespace Sys2Proof

/-- The four bus bytes of a word carry the word. -/
theorem bytesWord_wordBytes (w : Word) :
    bytesWord (w.extractLsb' 0 8) (w.extractLsb' 8 8) (w.extractLsb' 16 8) (w.extractLsb' 24 8) = w :=
  Machine.bytes_of_word w

theorem Request.ofBytes_toBytes (r : Request) : Request.ofBytes r.toBytes = some r := by
  simp [Request.ofBytes, Request.toBytes, wordBytes, bytesWord_wordBytes]

/-- Settles O6. -/
theorem transportBytesRoundTrip : Obligations.TransportBytesRoundTrip :=
  fun r => ⟨rfl, r.ofBytes_toBytes, rfl, rfl⟩

end Sys2Proof
end

