-- ==== Sys2Proof/Proofs/Instances.lean ====
section
/-! SUPPORT. Several blocks share no state (R86, R244). -/

namespace Sys2Proof.Machine

/-- A step of the `n`-th block replaces its state by the next one; where the list has no `n`-th, nothing happens. -/
theorem stepInstance_next {n : Nat} {all all' : List State} (h : stepInstance n all = .next all') :
    all' = all ∨ ∃ s t, all[n]? = some s ∧ step s = .next t ∧ all' = all.set n t := by
  unfold stepInstance at h
  split at h
  · exact .inl (Host.Outcome.next.inj h).symm
  · next s hs =>
    split at h
    · next t ht => exact .inr ⟨s, t, hs, ht, (Host.Outcome.next.inj h).symm⟩
    · cases h
    · cases h

/-- Settles O51. -/
theorem instancesShareNothing : Obligations.InstancesShareNothing := by
  intro n m all all' h hne
  obtain rfl | ⟨s, t, _, _, rfl⟩ := stepInstance_next h
  · rfl
  · exact List.getElem?_set_ne hne.symm

end Sys2Proof.Machine
end

