-- ==== Sys2Proof/Proofs/Decoder.lean ====
section
/-! SUPPORT. A command word decodes to a command exactly when its three fields are the command's own (R91, R94, R95). -/

namespace Sys2Proof

/-! ### The fields of a command -/

/-- The opcode of a command (R94). -/
def Command.opc (c : Command) : Byte :=
  match c with
  | .nop => 0x00#8
  | .configure => 0x01#8
  | .writeReg _ => 0x02#8
  | .readReg _ => 0x03#8
  | .processFrame => 0x10#8
  | .dlWrite _ => 0x20#8
  | .dlRead _ => 0x21#8

/-- The `ARG` of a command (R92, R94). -/
def Command.arg (c : Command) : Byte :=
  match c with
  | .nop | .configure | .processFrame => 0#8
  | .writeReg index | .readReg index => index
  | .dlWrite ch | .dlRead ch => ch.arg

/-- The command word of a command. -/
def Command.word (c : Command) : Word := cmdWord c.opc c.arg

theorem encode_withOperands_cmd (c : Command) (op0 op1 : Word) : (encode (c.withOperands op0 op1)).cmd = c.word := by
  cases c <;> rfl

/-! ### The decoder -/

theorem withZeroArg_eq_command_iff (arg : Byte) (c d : Command) :
    withZeroArg arg c = .command d ↔ arg = 0#8 ∧ c = d := by
  unfold withZeroArg
  split <;> simp [*]

theorem withChannel_eq_command_iff (arg : Byte) (f : Channel → Command) (d : Command) :
    withChannel arg f = .command d ↔ ∃ ch : Channel, arg = ch.arg ∧ f ch = d := by
  unfold withChannel
  constructor
  · intro h
    split at h
    · next harg => exact ⟨.left, harg, Decoded.command.inj h⟩
    · split at h
      · next harg => exact ⟨.right, harg, Decoded.command.inj h⟩
      · cases h
  · rintro ⟨ch, rfl, rfl⟩
    cases ch <;> rfl

/-- A decoded command has its own three fields in the command word. -/
theorem fields_of_decodeCmd {cmd : Word} {c : Command} (h : decodeCmd cmd = .command c) :
    rsvField cmd = 0#16 ∧ opcField cmd = c.opc ∧ argField cmd = c.arg := by
  unfold decodeCmd at h
  split_ifs at h with hrsv hnop hconfigure hwriteReg hreadReg hprocessFrame hdlWrite hdlRead
  all_goals refine ⟨not_not.1 hrsv, ?_⟩
  · obtain ⟨harg, rfl⟩ := (withZeroArg_eq_command_iff ..).1 h
    exact ⟨hnop, harg⟩
  · obtain ⟨harg, rfl⟩ := (withZeroArg_eq_command_iff ..).1 h
    exact ⟨hconfigure, harg⟩
  · obtain rfl := Decoded.command.inj h
    exact ⟨hwriteReg, rfl⟩
  · obtain rfl := Decoded.command.inj h
    exact ⟨hreadReg, rfl⟩
  · obtain ⟨harg, rfl⟩ := (withZeroArg_eq_command_iff ..).1 h
    exact ⟨hprocessFrame, harg⟩
  · obtain ⟨ch, harg, rfl⟩ := (withChannel_eq_command_iff ..).1 h
    exact ⟨hdlWrite, harg⟩
  · obtain ⟨ch, harg, rfl⟩ := (withChannel_eq_command_iff ..).1 h
    exact ⟨hdlRead, harg⟩

theorem decodeCmd_word (c : Command) : decodeCmd c.word = .command c := by
  rw [decodeCmd, Command.word, rsvField_cmdWord, opcField_cmdWord, argField_cmdWord]
  cases c with
  | dlWrite ch | dlRead ch => cases ch <;> rfl
  | _ => rfl

theorem decodeCmd_eq_command_iff (cmd : Word) (c : Command) : decodeCmd cmd = .command c ↔ cmd = c.word := by
  constructor
  · intro h
    obtain ⟨hrsv, hopc, harg⟩ := fields_of_decodeCmd h
    rw [Command.word, ← hopc, ← harg, cmdWord_fields cmd hrsv]
  · rintro rfl
    exact decodeCmd_word c

/-- A request decodes to a command with its operand words (R92) exactly when it carries the command's word. -/
theorem decode_eq_command_iff (r : Request) (i : Instr) :
    decode r = .command i ↔ ∃ c : Command, r.cmd = c.word ∧ c.withOperands r.op0 r.op1 = i := by
  unfold decode
  constructor
  · intro h
    split at h
    · next c hc => exact ⟨c, (decodeCmd_eq_command_iff _ _).1 hc, Decoded.command.inj h⟩
    · cases h
  · rintro ⟨c, hc, rfl⟩
    rw [(decodeCmd_eq_command_iff _ _).2 hc]

theorem decode_word (c : Command) (op0 op1 : Word) : decode ⟨c.word, op0, op1⟩ = .command (c.withOperands op0 op1) :=
  (decode_eq_command_iff _ _).2 ⟨c, rfl, rfl⟩

/-! ### Round trips -/

/-- Settles O1: the words that `encode` writes are a command's word and the operand words the command reads. -/
theorem decodeOfEncodeIsIdentity : Obligations.DecodeOfEncodeIsIdentity := by
  intro i
  cases i with
  | nop => exact decode_word .nop _ _
  | configure sampleRate => exact decode_word .configure _ _
  | writeReg index value => exact decode_word (.writeReg index) _ _
  | readReg index => exact decode_word (.readReg index) _ _
  | processFrame inL inR => exact decode_word .processFrame _ _
  | dlWrite ch sample => exact decode_word (.dlWrite ch) _ _
  | dlRead ch delay => exact decode_word (.dlRead ch) _ _

/-- Settles O4. -/
theorem encodeRecoversTheCommandWord : Obligations.EncodeRecoversTheCommandWord := by
  intro r i h
  obtain ⟨c, hc, rfl⟩ := (decode_eq_command_iff r i).1 h
  rw [encode_withOperands_cmd, hc]

theorem decode_of_encode {r : Request} {i : Instr} (h : encode i = r) : decode r = .command i :=
  h ▸ decodeOfEncodeIsIdentity i

/-- Settles O5: each of the six requests is what `encode` writes for its instruction. -/
theorem sampleWordsDecode : Obligations.SampleWordsDecode :=
  ⟨decode_of_encode (by decide), decode_of_encode (by decide), decode_of_encode (by decide),
    decode_of_encode (by decide), decode_of_encode (by decide), decode_of_encode (by decide)⟩

/-! ### The decoder by fields -/

theorem decode_of_fields (c : Command) {cmd op0 op1 : Word} (hrsv : rsvField cmd = 0#16) (hopc : opcField cmd = c.opc)
    (harg : argField cmd = c.arg) : decode ⟨cmd, op0, op1⟩ = .command (c.withOperands op0 op1) := by
  rw [← cmdWord_fields cmd hrsv, hopc, harg]
  exact decode_word c op0 op1

/-- The fields of a word that R95 makes ILLEGAL: a nonzero `RSV`, a reserved opcode, a nonzero `ARG` where it must be 0,
or a channel above 1. -/
def IllegalFields (cmd : Word) : Prop :=
  rsvField cmd ≠ 0#16
    ∨ opcField cmd ∉ [0x00#8, 0x01#8, 0x02#8, 0x03#8, 0x10#8, 0x20#8, 0x21#8]
    ∨ (opcField cmd ∈ [0x00#8, 0x01#8, 0x10#8] ∧ argField cmd ≠ 0#8)
    ∨ (opcField cmd ∈ [0x20#8, 0x21#8] ∧ 2 ≤ (argField cmd).toNat)

theorem Command.not_illegalFields_word (c : Command) : ¬ IllegalFields c.word := by
  unfold IllegalFields
  rw [Command.word, rsvField_cmdWord, opcField_cmdWord, argField_cmdWord]
  cases c with
  | dlWrite ch | dlRead ch => cases ch <;> simp [opc, arg, Channel.arg]
  | _ => simp [opc, arg]

theorem decode_illegal_of_fields {r : Request} (h : IllegalFields r.cmd) : ∃ why, decode r = .illegal why := by
  cases hd : decode r with
  | illegal why => exact ⟨why, rfl⟩
  | command i =>
    obtain ⟨c, hc, _⟩ := (decode_eq_command_iff r i).1 hd
    exact absurd (hc ▸ h) c.not_illegalFields_word

/-- Settles O2: one clause per command, then the ILLEGAL words. -/
theorem decodeFollowsTheOpcodeMap : Obligations.DecodeFollowsTheOpcodeMap := fun cmd op0 op1 =>
  ⟨fun hrsv =>
    ⟨fun hopc harg => decode_of_fields .nop hrsv hopc harg,
      fun hopc harg => decode_of_fields .configure hrsv hopc harg,
      fun hopc => decode_of_fields (.writeReg _) hrsv hopc rfl,
      fun hopc => decode_of_fields (.readReg _) hrsv hopc rfl,
      fun hopc harg => decode_of_fields .processFrame hrsv hopc harg,
      fun hopc harg => decode_of_fields (.dlWrite .left) hrsv hopc harg,
      fun hopc harg => decode_of_fields (.dlWrite .right) hrsv hopc harg,
      fun hopc harg => decode_of_fields (.dlRead .left) hrsv hopc harg,
      fun hopc harg => decode_of_fields (.dlRead .right) hrsv hopc harg⟩,
    decode_illegal_of_fields (r := ⟨cmd, op0, op1⟩)⟩

/-! ### The rows of the opcode table -/

theorem Instr.encode_wellFormed (i : Instr) : (encode i).wellFormed = true := by
  cases i with
  | nop => exact Laws.EncodeWellFormed.nop
  | configure sampleRate => exact Laws.EncodeWellFormed.configure sampleRate
  | writeReg index value => exact Laws.EncodeWellFormed.writeReg index value
  | readReg index => exact Laws.EncodeWellFormed.readReg index
  | processFrame inL inR => exact Laws.EncodeWellFormed.processFrame inL inR
  | dlWrite ch sample => exact Laws.EncodeWellFormed.dlWrite ch sample
  | dlRead ch delay => exact Laws.EncodeWellFormed.dlRead ch delay

/-- A row that fixes all of `OPC` and all of `RSV` covers the words of its opcode with the bits of `ARG` that it fixes
at 0. -/
theorem fields_of_covers {mnemonic : String} {opc : Byte} {mask w : Word} (hmaskOpc : opcField mask = BitVec.allOnes 8)
    (hmaskRsv : rsvField mask = BitVec.allOnes 16)
    (h : OpcodeRow.covers ⟨mnemonic, cmdWord opc 0#8, mask⟩ w = true) :
    w = cmdWord opc (argField w) ∧ argField w &&& argField mask = 0#8 := by
  have hw : w &&& mask = cmdWord opc 0#8 := beq_iff_eq.1 h
  have hopc : opcField w = opc := by
    calc opcField w = opcField w &&& opcField mask := by rw [hmaskOpc, BitVec.and_allOnes]
      _ = opcField (w &&& mask) := BitVec.extractLsb'_and.symm
      _ = opc := by rw [hw, opcField_cmdWord]
  have hrsv : rsvField w = 0#16 := by
    calc rsvField w = rsvField w &&& rsvField mask := by rw [hmaskRsv, BitVec.and_allOnes]
      _ = rsvField (w &&& mask) := BitVec.extractLsb'_and.symm
      _ = 0#16 := by rw [hw, rsvField_cmdWord]
  have harg : argField w &&& argField mask = 0#8 := by
    calc argField w &&& argField mask = argField (w &&& mask) := BitVec.extractLsb'_and.symm
      _ = 0#8 := by rw [hw, argField_cmdWord]
  exact ⟨by rw [← hopc, cmdWord_fields w hrsv], harg⟩

theorem eq_of_covers_zeroArg {mnemonic : String} {w : Word} (opc : Byte)
    (h : OpcodeRow.covers ⟨mnemonic, cmdWord opc 0#8, 0xFFFFFFFF#32⟩ w = true) : w = cmdWord opc 0#8 :=
  BitVec.and_allOnes.symm.trans (beq_iff_eq.1 h)

theorem eq_of_covers_anyArg {mnemonic : String} {w : Word} (opc : Byte)
    (h : OpcodeRow.covers ⟨mnemonic, cmdWord opc 0#8, 0xFF00FFFF#32⟩ w = true) : w = cmdWord opc (argField w) :=
  (fields_of_covers (by decide) (by decide) h).1

theorem eq_of_covers_channel {mnemonic : String} {w : Word} (opc : Byte)
    (h : OpcodeRow.covers ⟨mnemonic, cmdWord opc 0#8, 0xFFFEFFFF#32⟩ w = true) :
    ∃ ch : Channel, w = cmdWord opc ch.arg := by
  have hbyte : ∀ arg : Byte, arg &&& 0xFE#8 = 0#8 → arg = 0#8 ∨ arg = 1#8 := by decide
  obtain ⟨hw, harg⟩ := fields_of_covers (by decide) (by decide) h
  obtain h0 | h1 := hbyte _ harg
  · exact ⟨.left, hw.trans (congrArg (cmdWord opc) h0)⟩
  · exact ⟨.right, hw.trans (congrArg (cmdWord opc) h1)⟩

theorem exists_word_of_wellFormed {r : Request} (h : r.wellFormed = true) : ∃ c : Command, r.cmd = c.word := by
  obtain ⟨row, hrow, hcov⟩ := List.any_eq_true.1 h
  simp only [opcodeRows, List.mem_cons, List.not_mem_nil, or_false] at hrow
  obtain rfl | rfl | rfl | rfl | rfl | rfl | rfl := hrow
  · exact ⟨.nop, eq_of_covers_zeroArg 0x00#8 hcov⟩
  · exact ⟨.configure, eq_of_covers_zeroArg 0x01#8 hcov⟩
  · exact ⟨.writeReg _, eq_of_covers_anyArg 0x02#8 hcov⟩
  · exact ⟨.readReg _, eq_of_covers_anyArg 0x03#8 hcov⟩
  · exact ⟨.processFrame, eq_of_covers_zeroArg 0x10#8 hcov⟩
  · obtain ⟨ch, hw⟩ := eq_of_covers_channel 0x20#8 hcov
    exact ⟨.dlWrite ch, hw⟩
  · obtain ⟨ch, hw⟩ := eq_of_covers_channel 0x21#8 hcov
    exact ⟨.dlRead ch, hw⟩

/-- Settles O3. -/
theorem decodesExactlyTheTableRows : Obligations.DecodesExactlyTheTableRows := by
  intro r
  constructor
  · rintro ⟨i, hi⟩
    have hword : (encode i).cmd = r.cmd := encodeRecoversTheCommandWord r i hi
    have hrows := i.encode_wellFormed
    rwa [Request.wellFormed, hword] at hrows
  · intro h
    obtain ⟨c, hc⟩ := exists_word_of_wellFormed h
    exact ⟨_, (decode_eq_command_iff r _).2 ⟨c, hc, rfl⟩⟩

end Sys2Proof
end

