-- ==== Sys2Proof/Proofs/Requests.lean ====
section
/-! SUPPORT. What a step makes of the host's next request: the command it decodes to, ILLEGAL_COMMAND, or a run of
WRITE_REG commands (R90, R96, R101, R230). -/

namespace Sys2Proof.Machine

/-- Settles O42, effect by effect. -/
theorem oneResponsePerCommand : Obligations.OneResponsePerCommand := by
  intro i s t h
  cases exec_effect h with
  | answered | raised | configureFailed | configureDone | framed => exact ⟨_, rfl, rfl, rfl⟩
  | regWritten | lineWritten => exact ⟨⟨.ok, 0#32, 0#32⟩, by simp⟩

/-- Settles O7. -/
theorem stepRunsTheDecodedCommand : Obligations.StepRunsTheDecodedCommand :=
  fun _ _ _ _ => step_command

/-- Settles O8: whatever the cause, the request is rejected with one answer. -/
theorem illegalCommandWordIsAnswered : Obligations.IllegalCommandWordIsAnswered := by
  intro s r rest hp opc arg h
  obtain ⟨why, hd⟩ := decode_illegal_of_fields h
  exact step_illegal hp hd

/-! ### A run of register writes -/

theorem Reg.ofIndex_index (r : Reg) : Reg.ofIndex r.index = some r := by cases r <;> rfl

/-- The host's request to write a register. -/
def writeRequest (e : Reg × Word) : HostEvent := .request (encode (.writeReg e.1.index e.2))

/-- What WRITE_REG of a writable register leaves (R213). -/
def afterWrite (s : State) (e : Reg × Word) : State := respondOk (regWrite s e.1 e.2) 0#32 0#32

/-- A write does not look at the host's further events. -/
theorem afterWrite_port (s : State) (e : Reg × Word) (events : List HostEvent) :
    afterWrite { s with port := events } e = { afterWrite s e with port := events } := by
  obtain ⟨r, v⟩ := e
  cases r <;> rfl

theorem step_writeRequest (s : State) (e : Reg × Word) (rest : List HostEvent) (he : e.1.access = .rw) :
    step { s with port := writeRequest e :: rest } = .next { afterWrite s e with port := rest } := by
  rw [step_command rfl (decodeOfEncodeIsIdentity _), ← afterWrite_port]
  exact (exec_writeReg_next ..).2 (.inl ⟨e.1, Reg.ofIndex_index e.1, he, rfl⟩)

/-- As many steps as the host has writes of writable registers to issue run them in their order. -/
theorem run_writeRequests (es : List (Reg × Word)) (hes : ∀ e ∈ es, e.1.access = .rw) (s : State) :
    core.run es.length { s with port := es.map writeRequest } = .next { es.foldl afterWrite s with port := [] } := by
  induction es generalizing s with
  | nil => rfl
  | cons e es ih =>
    obtain ⟨he, hes⟩ := List.forall_mem_cons.1 hes
    have hstep : core.step { s with port := (e :: es).map writeRequest }
        = .next { afterWrite s e with port := es.map writeRequest } := step_writeRequest s e _ he
    exact (run_succ core hstep es.length).trans (ih hes (afterWrite s e))

theorem typeOfWord_typeWord (ty : EffectType) : typeOfWord (typeWord ty) = ty := by cases ty <;> rfl

/-- Settles O17: SET_PARAMS is a run of six writes, and TYPE stores the type back from its word. -/
theorem restoreParametersChangesOnlyThem : Obligations.RestoreParametersChangesOnlyThem := by
  intro s dw dp rt po fb ty ok
  have htype : (if ty = .chorus then 0#32 else 1#32) = typeWord ty := by cases ty <;> rfl
  rw [htype]
  have hrun := run_writeRequests [(.dryWet, dw), (.depth, dp), (.rate, rt), (.phaseOffset, po), (.feedback, fb),
    (.effectType, typeWord ty)] (by simp [Reg.access]) s
  simp only [List.foldl, afterWrite, regWrite, typeOfWord_typeWord] at hrun
  exact hrun

end Sys2Proof.Machine
end

