-- ==== Sys2Proof/Proofs/ReadPosition.lean ====
section
/-! SUPPORT. Where ReadInterpolated reads (R121, R122, R124): the split of every read position, and the exact read
position of an integral delay. -/

namespace Sys2Proof.Machine

/-! ### The split of any read position -/

theorem magOfBits_one : magOfBits 0x3F800000 = unitsPerOne := by decide +kernel

/-- The distance of a position from its floor is less than 1, so it does not round above 1. -/
theorem rawFraction_eq_packSign (rp : Word) : ∃ r ≤ 0x3F800000, rawFraction rp = packSign false r := by
  refine ⟨_, rndBits_le _ _ _ Nat.one_pos ?_, rfl⟩
  have hpos : (0 : Int) < (unitsPerOne : Int) := by decide
  have hlt := Int.emod_lt_of_pos (units rp) hpos
  rw [floorReal, ← Int.emod_def, magOfBits_one, Nat.mul_one]
  omega

/-- A number in `[0, 1)` without a sign. -/
def UnitFraction (f : Word) : Prop := flt f ONE = true ∧ fge f ZERO = true ∧ signBit f = false

theorem unitFraction_packSign {r : Nat} (hr : r < 0x3F800000) : UnitFraction (packSign false r) := by
  have hr31 : r < 2 ^ 31 := by omega
  have hnan : isNaN (packSign false r) = false := by
    rw [← Bool.not_eq_true, isNaN_iff, packSign_toNat _ _ hr31]
    simp
    omega
  have hsign := signBit_packSign false r hr31
  have hunits : units (packSign false r) = magOfBits r := by simp [units_eq, hsign, magUnits_packSign _ _ hr31]
  have hlt : magOfBits r < unitsPerOne := magOfBits_one ▸ magOfBits_strictMono hr
  have hone : isNaN ONE = false ∧ units ONE = (unitsPerOne : Int) := by decide +kernel
  have hzero : isNaN ZERO = false ∧ units ZERO = 0 := by decide
  refine ⟨?_, ?_, hsign⟩
  · simp [flt, hnan, hone, hunits, hlt]
  · simp [fge, hnan, hzero, hunits]

theorem unitFraction_rawFraction {rp : Word} (h : rawFraction rp ≠ ONE) : UnitFraction (rawFraction rp) := by
  obtain ⟨r, hle, hr⟩ := rawFraction_eq_packSign rp
  rw [hr] at h ⊢
  exact unitFraction_packSign (lt_of_le_of_ne hle fun heq => h (heq ▸ by decide))

/-- Every fraction of a split lies in `[0, 1)` (R122, R124). -/
theorem unitFraction_splitPosition (len rp : Word) : UnitFraction (splitPosition len rp).2 := by
  have hzero : UnitFraction ZERO := unitFraction_packSign (r := 0) (by decide)
  unfold splitPosition
  split
  · exact hzero
  · split
    · exact hzero
    · next h => exact unitFraction_rawFraction h

/-- Settles O26. -/
theorem readIndexAndFractionInRange : Obligations.ReadIndexAndFractionInRange := fun len rp hlen =>
  ⟨splitPosition_lt len rp hlen, Nat.mod_lt _ hlen, unitFraction_splitPosition len rp⟩

/-! ### Whole numbers -/

/-- `a` is the whole number `x`. -/
def IsWhole (a : Word) (x : Int) : Prop := (isNaN a = false ∧ isInf a = false) ∧ units a = (unitsPerOne : Int) * x

theorem isWhole_i2f {n : Nat} (h : n ≤ 2 ^ 24) : IsWhole (i2f n) n := ⟨i2f_finite n h, units_i2f n h⟩

theorem IsWhole.fneg {a : Word} {x : Int} (h : IsWhole a x) : IsWhole (fneg a) (-x) := by
  obtain ⟨hfin, hunits⟩ := h
  exact ⟨by simpa using hfin, by rw [units_fneg, hunits, Int.mul_neg]⟩

theorem IsWhole.flt_zero {a : Word} {x : Int} (h : IsWhole a x) : flt a ZERO = decide (x < 0) := by
  obtain ⟨⟨hnan, _⟩, hunits⟩ := h
  have hpos : (0 : Int) < (unitsPerOne : Int) := by decide
  have hzero : isNaN ZERO = false ∧ units ZERO = 0 := by decide
  have hneg : (unitsPerOne : Int) * x < 0 ↔ x < 0 := by rw [mul_neg_iff]; omega
  simp only [flt, hnan, hzero, hunits, hneg, Bool.not_false, Bool.true_and]

/-- A whole sum not below 0 is the natural number, +0.0 included, unless both terms carry a sign. -/
theorem IsWhole.fadd_eq_i2f {a b : Word} {x y : Int} (ha : IsWhole a x) (hb : IsWhole b y) (h : 0 ≤ x + y)
    (hs : (signBit a && signBit b) = false) : fadd a b = i2f (x + y).toNat := by
  obtain ⟨hafin, hx⟩ := ha
  obtain ⟨hbfin, hy⟩ := hb
  by_cases h0 : x + y = 0
  · rw [fadd_exact_zero a b hafin hbfin (by rw [hx, hy, ← Int.mul_add, h0, Int.mul_zero]), hs, h0]
    exact i2f_zero.symm
  · have hnat : (x + y).natAbs = (x + y).toNat := by omega
    rw [fadd_whole a b x y hafin hbfin hx hy h0, if_neg h.not_gt, hnat]

/-- A whole sum below 0 of magnitude up to 2^24 is exact. -/
theorem IsWhole.fadd_neg {a b : Word} {x y : Int} (ha : IsWhole a x) (hb : IsWhole b y) (h : x + y < 0)
    (hle : -(2 ^ 24) ≤ x + y) : IsWhole (fadd a b) (x + y) := by
  rw [fadd_whole a b x y ha.1 hb.1 ha.2 hb.2 h.ne, if_pos h]
  have hwhole := (isWhole_i2f (n := (x + y).natAbs) (by omega)).fneg
  rwa [Int.ofNat_natAbs_of_nonpos h.le, Int.neg_neg] at hwhole

/-! ### The read position of an integral delay -/

/-- The position of R121 is exact for an integral delay, and wraps into `[0, L)`. At `w - z = -L` it is +0.0. -/
theorem readPosition_of_whole {len w d : Word} {z : Int} (hlen : len.toNat ≤ 2 ^ 24) (hd : IsWhole d z)
    (hlo : -(len.toNat : Int) ≤ w.toNat - z) (hhi : (w.toNat : Int) - z < len.toNat) (hw : w.toNat < len.toNat) :
    readPosition len w d = i2f (((w.toNat : Int) - z) % (len.toNat : Int)).toNat := by
  have hwhole : IsWhole (i2f w.toNat) w.toNat := isWhole_i2f (by omega)
  rcases lt_or_ge ((w.toNat : Int) - z) 0 with hneg | hnonneg
  · have hp : IsWhole (fsub (i2f w.toNat) d) (w.toNat - z) := hwhole.fadd_neg hd.fneg (by omega) (by omega)
    have hmod : ((w.toNat : Int) - z) % (len.toNat : Int) = w.toNat - z + len.toNat := by
      rw [← Int.add_emod_right, Int.emod_eq_of_lt (by omega) (by omega)]
    rw [readPosition, if_pos (by simpa [hp.flt_zero] using hneg), hmod]
    exact hp.fadd_eq_i2f (isWhole_i2f hlen) (by omega) (by rw [signBit_i2f, Bool.and_false])
  · have hp : fsub (i2f w.toNat) d = i2f ((w.toNat : Int) - z).toNat :=
      hwhole.fadd_eq_i2f hd.fneg hnonneg (by rw [signBit_i2f, Bool.false_and])
    have hflt : flt (i2f ((w.toNat : Int) - z).toNat) ZERO = false := by
      rw [(isWhole_i2f (by omega)).flt_zero]
      simp
    rw [readPosition, hp, hflt, Int.emod_eq_of_lt hnonneg hhi]
    rfl

theorem floorReal_i2f {n : Nat} (h : n ≤ 2 ^ 24) : floorReal (i2f n) = n := by
  rw [floorReal, units_i2f n h, Int.mul_ediv_cancel_left _ (by decide)]

theorem rawFraction_i2f {n : Nat} (h : n ≤ 2 ^ 24) : rawFraction (i2f n) = ZERO := by
  rw [rawFraction, floorReal_i2f h, units_i2f n h, Int.sub_self]
  exact i2f_zero

/-- A whole position below LENGTH splits into itself and the fraction +0.0 (R122). -/
theorem splitPosition_i2f {len : Word} {n : Nat} (hn : n < len.toNat) (hlen : len.toNat ≤ 2 ^ 24) :
    splitPosition len (i2f n) = (n, ZERO) := by
  have hle : n ≤ 2 ^ 24 := by omega
  obtain ⟨hnan, hinf⟩ := i2f_finite n hle
  have hmod : (n : Int) % (len.toNat : Int) = n := Int.emod_eq_of_lt (by omega) (by omega)
  have hne : ¬ ZERO = ONE := by decide
  simp [splitPosition, hnan, hinf, rawFraction_i2f hle, floorReal_i2f hle, hmod, hne]

/-- An integral delay from `w - L + 1` to `w + L` reads at `(w - z) mod L` with the fraction +0.0 (R122, R128). -/
theorem readPoint_of_whole {s : State} {ch : Channel} {d : Word} {z : Int} (hd : IsWhole d z)
    (hhead : (s.wh ch).toNat < s.length.toNat) (hlen : s.length.toNat ≤ 2 ^ 24)
    (hlo : -(s.length.toNat : Int) ≤ (s.wh ch).toNat - z) (hhi : ((s.wh ch).toNat : Int) - z < s.length.toNat) :
    readPoint s ch d = (((((s.wh ch).toNat : Int) - z) % (s.length.toNat : Int)).toNat, ZERO) := by
  have hlt := Int.emod_lt_of_pos ((s.wh ch).toNat - z) (b := s.length.toNat) (by omega)
  rw [readPoint, readPosition_of_whole hlen hd hlo hhi hhead]
  exact splitPosition_i2f (by omega) hlen

end Sys2Proof.Machine
end

