-- ==== Sys2Proof/Proofs/DelayLineCommands.lean ====
section
/-! SUPPORT. DL_WRITE and DL_READ of a ready block (R120 to R126), and what the read of an integral delay returns (R128,
R131). -/

namespace Sys2Proof.Machine

/-- Settles O23. -/
theorem dlWriteStoresAndAdvances : Obligations.DlWriteStoresAndAdvances := fun s v hready =>
  ⟨fun hhead => (exec_dlWrite_next .left v s _).2 (.inl ⟨hready, hhead, rfl⟩),
    fun hhead => (exec_dlWrite_next .right v s _).2 (.inl ⟨hready, hhead, rfl⟩)⟩

/-- The split of R122 with one case each for the index and the fraction. -/
theorem splitPosition_eq (len rp : Word) :
    splitPosition len rp =
      (if isNaN rp || isInf rp then 0
        else ((if rawFraction rp = ONE then floorReal rp + 1 else floorReal rp) % (len.toNat : Int)).toNat,
        if (isNaN rp || isInf rp) || rawFraction rp == ONE then ZERO else rawFraction rp) := by
  unfold splitPosition
  cases isNaN rp || isInf rp
  · by_cases h : rawFraction rp = ONE <;> simp [h]
  · rfl

/-- Settles O25: the answer is the sample at the read point, and the read point is the split of the read position. -/
theorem dlReadInterpolates : Obligations.DlReadInterpolates := by
  intro s ch d hready hlen len p rp k f0 x f
  have hpoint : readPoint s ch d = (x, f) := splitPosition_eq s.length rp
  have hlt := readPoint_lt s ch d hlen
  have hexec := (exec_dlRead_next ch d s _).2 (.inl ⟨hready, hlen, rfl⟩)
  rw [wetSample, hpoint] at hexec
  rw [hpoint] at hlt
  exact ⟨hlt, hexec⟩

/-! ### The fraction +0.0 -/

/-- What the two words give at the fraction +0.0 (R128): the first word, but for three exceptions. -/
def wordAtFractionZero (b0 b1 : Word) : Word :=
  if isNaN b0 || isNaN b1 || isInf b1 then 0x7FC00000#32
  else if b0 = 0x80000000#32 ∧ signBit b1 = false then 0x00000000#32
  else b0

/-- A sum with a zero is the other term but for -0.0 and +0.0. -/
theorem fadd_zeroOf_right_eq (b0 : Word) (neg : Bool) (h : isNaN b0 = false) :
    fadd b0 (zeroOf neg) = if b0 = 0x80000000#32 ∧ neg = false then 0x00000000#32 else b0 := by
  rw [fadd_zeroOf_right b0 neg h]
  by_cases h0 : magUnits b0 = 0
  · rw [if_pos h0, ← zeroOf_of_magUnits b0 h0, signBit_zeroOf]
    cases signBit b0 <;> cases neg <;> decide
  · have hne : b0 ≠ 0x80000000#32 := fun h => h0 (h ▸ by decide)
    rw [if_neg h0, if_neg fun h => hne h.1]

theorem fadd_fmul_one_zero (b0 b1 : Word) : fadd (fmul ONE b0) (fmul ZERO b1) = wordAtFractionZero b0 b1 := by
  unfold wordAtFractionZero
  cases h0 : isNaN b0 with
  | true => exact fadd_nan_left _ _ (by rw [fmul_nan_right _ _ h0]; decide)
  | false =>
    rw [fmul_one_left b0 h0, fmul_zero_left, Bool.false_or]
    cases isNaN b1 || isInf b1 with
    | true => exact fadd_nan_right b0 QNAN (by decide)
    | false => exact fadd_zeroOf_right_eq b0 _ h0

theorem fsub_one_zero : fsub ONE ZERO = ONE := by decide +kernel

/-- A read at the fraction +0.0. -/
theorem readInterpolated_of_readPoint {s : State} {ch : Channel} {d : Word} {x : Nat} (hlen : 0 < s.length.toNat)
    (h : readPoint s ch d = (x, ZERO)) :
    readInterpolated s ch d =
      some (wordAtFractionZero (readWord (s.ram ch) x) (readWord (s.ram ch) ((x + 1) % s.length.toNat))) := by
  rw [readInterpolated_eq s ch d hlen, wetSample, h, interpolate, fsub_one_zero, fadd_fmul_one_zero]

/-- Settles O28. -/
theorem integralDelayReadsTheWord : Obligations.IntegralDelayReadsTheWord := by
  intro s ch d z hhead hlen hnan hinf hunits hlo hhi x b0 b1 y
  have hpoint : readPoint s ch d = (x, ZERO) := readPoint_of_whole ⟨⟨hnan, hinf⟩, hunits⟩ hhead hlen hlo.le hhi
  have hy : y = wordAtFractionZero b0 b1 := fadd_fmul_one_zero b0 b1
  refine ⟨hpoint, ?_, ?_, hy⟩
  · rw [hpoint, fsub_one_zero]
  · rw [hy]
    exact readInterpolated_of_readPoint (by omega) hpoint

theorem isWhole_zero {d : Word} (h : d = 0x00000000#32 ∨ d = 0x80000000#32) : IsWhole d 0 := by
  unfold IsWhole
  obtain rfl | rfl := h <;> decide

/-- Settles O27: a zero is the integral delay 0, and the next write goes to the word at the head. -/
theorem zeroDelayReadsAtTheHead : Obligations.ZeroDelayReadsAtTheHead := by
  intro s ch d hhead hlen hd w b0 b1
  have hzero := isWhole_zero hd
  have hmod : (((w : Int) - 0) % (s.length.toNat : Int)).toNat = w := by
    rw [Int.sub_zero, Int.emod_eq_of_lt (by omega) (by omega), Int.toNat_natCast]
  have hpos := readPosition_of_whole (len := s.length) (w := s.wh ch) hlen hzero (by omega) (by omega) hhead
  have hpoint := readPoint_of_whole hzero hhead hlen (by omega) (by omega)
  rw [hmod] at hpos hpoint
  refine ⟨hpos, hpoint, readInterpolated_of_readPoint (by omega) hpoint, fun hwf v => ?_⟩
  exact ⟨_, (writeAndAdvance_eq_some_iff s _ ch v).2 ⟨hhead, rfl⟩,
    (memRead_eq_some_iff ..).2 ⟨by simpa using hhead, by simp [readWord_writeWord _ hwf, w]⟩⟩

end Sys2Proof.Machine
end

