-- ==== Sys2Proof/Proofs/DelayLineRuns.lean ====
section
/-! SUPPORT. A run of DL_WRITE commands to one channel (R120, R127): where the head stands after it, and which word each
position holds. -/

namespace Sys2Proof.Machine

/-! ### The head and the run -/

theorem nextHead_toNat {len w : Word} (h : w.toNat < len.toNat) :
    (nextHead len w).toNat = (w.toNat + 1) % len.toNat := by
  unfold nextHead
  split
  · next hwrap => simp [hwrap]
  · have hlt := len.isLt
    rw [BitVec.toNat_add, Nat.mod_eq_of_lt (a := w.toNat + 1) (by omega)]
    exact Nat.mod_eq_of_lt (by simp; omega)

@[simp] theorem lineStored_wh (s : State) (ch : Channel) (v : Word) :
    (lineStored s ch v).wh ch = nextHead s.length (s.wh ch) := by
  cases ch <;> rfl

@[simp] theorem lineStored_status (s : State) (ch : Channel) (v : Word) : (lineStored s ch v).status = s.status := by
  cases ch <;> rfl

/-- A write does not look at the host's further events. -/
theorem lineStored_port (s : State) (ch : Channel) (v : Word) (events : List HostEvent) :
    lineStored { s with port := events } ch v = { lineStored s ch v with port := events } := by
  cases ch <;> rfl

/-- The state after DL_WRITE of each sample in turn. -/
def lineRun (s : State) (ch : Channel) (vs : List Word) : State := vs.foldl (fun t v => lineStored t ch v) s

theorem lineRun_append (s : State) (ch : Channel) (vs : List Word) (v : Word) :
    lineRun s ch (vs ++ [v]) = lineStored (lineRun s ch vs) ch v := by
  simp [lineRun]

/-- The host's request to write a sample. -/
def sampleRequest (ch : Channel) (v : Word) : HostEvent := .request (encode (.dlWrite ch v))

theorem step_sampleRequest {s : State} {ch : Channel} (v : Word) (rest : List HostEvent)
    (hready : s.status.ready = true) (hhead : (s.wh ch).toNat < s.length.toNat) :
    step { s with port := sampleRequest ch v :: rest } = .next { lineStored s ch v with port := rest } := by
  rw [step_command rfl (decodeOfEncodeIsIdentity _), ← lineStored_port]
  exact (exec_dlWrite_next ..).2 (.inl ⟨hready, by cases ch <;> exact hhead, rfl⟩)

/-- As many steps as the host has samples to write run the writes in their order. -/
theorem run_sampleRequests (ch : Channel) (vs : List Word) {s : State} (hready : s.status.ready = true)
    (hhead : (s.wh ch).toNat < s.length.toNat) :
    core.run vs.length { s with port := vs.map (sampleRequest ch) } = .next (lineRun { s with port := [] } ch vs) := by
  induction vs generalizing s with
  | nil => rfl
  | cons v vs ih =>
    have hstep : core.step { s with port := (v :: vs).map (sampleRequest ch) }
        = .next { lineStored s ch v with port := vs.map (sampleRequest ch) } := step_sampleRequest v _ hready hhead
    have hrest : lineRun { s with port := [] } ch (v :: vs) = lineRun { lineStored s ch v with port := [] } ch vs :=
      congrArg (lineRun · ch vs) (lineStored_port s ch v [])
    rw [hrest]
    exact (run_succ core hstep vs.length).trans (ih (by simpa using hready) (by simpa using nextHead_lt _ _ hhead))

/-! ### A line from its first word -/

/-- What CONFIGURE leaves of one channel (R205): the head at 0 and a zero-filled delay RAM. -/
structure FreshLine (s : State) (ch : Channel) : Prop where
  head : s.wh ch = 0#32
  ram : s.ram ch = zeroFilled
  pos : 0 < s.length.toNat

theorem lineRun_length (s : State) (ch : Channel) (vs : List Word) : (lineRun s ch vs).length = s.length := by
  induction vs using List.reverseRecOn with
  | nil => rfl
  | append_singleton vs v ih => rw [lineRun_append, lineStored_length, ih]

section
variable {s : State} {ch : Channel}

/-- After `N` writes the head is `N mod L` (R127). -/
theorem FreshLine.head_lineRun (h : FreshLine s ch) (vs : List Word) :
    ((lineRun s ch vs).wh ch).toNat = vs.length % s.length.toNat := by
  induction vs using List.reverseRecOn with
  | nil => simp [lineRun, h.head]
  | append_singleton vs v ih =>
    have hlt := Nat.mod_lt vs.length h.pos
    rw [lineRun_append, lineStored_wh, nextHead_toNat (by rw [lineRun_length, ih]; exact hlt), lineRun_length, ih,
      Nat.mod_add_mod, List.length_append, List.length_singleton]

theorem FreshLine.ramWf_lineRun (h : FreshLine s ch) (vs : List Word) : ramWf ((lineRun s ch vs).ram ch) = true := by
  induction vs using List.reverseRecOn with
  | nil => simp [lineRun, h.ram, zeroFilled, ramWf]
  | append_singleton vs v ih => rw [lineRun_append, lineStored_ram]; exact ramWf_writeWord _ ih _ _

/-- One more write changes the word at `N mod L` only. -/
theorem FreshLine.readWord_lineRun_append (h : FreshLine s ch) (vs : List Word) (v : Word) (i : Nat) :
    readWord ((lineRun s ch (vs ++ [v])).ram ch) i =
      if i = vs.length % s.length.toNat then v else readWord ((lineRun s ch vs).ram ch) i := by
  rw [lineRun_append, lineStored_ram, readWord_writeWord _ (h.ramWf_lineRun vs), h.head_lineRun]

/-- Word number `N - d` of the samples, or +0.0 if there was none (R127). -/
def sampleBefore (vs : List Word) (d : Nat) : Word :=
  if vs.length < d then 0x00000000#32 else vs.getD (vs.length - d) 0x00000000#32

theorem sampleBefore_append_one (vs : List Word) (v : Word) : sampleBefore (vs ++ [v]) 1 = v := by
  simp [sampleBefore]

/-- Each write moves the earlier samples back by one. -/
theorem sampleBefore_append_succ (vs : List Word) (v : Word) {d : Nat} (hd : 1 ≤ d) :
    sampleBefore (vs ++ [v]) (d + 1) = sampleBefore vs d := by
  unfold sampleBefore
  by_cases h : vs.length < d
  · simp [h]
  · have hindex : (vs ++ [v]).length - (d + 1) = vs.length - d := by simp
    rw [if_neg (by simpa using h), if_neg h, hindex, List.getD_append _ _ _ _ (by omega)]

/-- The positions that the delays 1 to L name hold the last L samples (R127). -/
theorem FreshLine.readWord_lineRun (h : FreshLine s ch) (vs : List Word) {d : Nat} (h1 : 1 ≤ d)
    (hL : d ≤ s.length.toNat) :
    readWord ((lineRun s ch vs).ram ch) ((vs.length + s.length.toNat - d) % s.length.toNat) = sampleBefore vs d := by
  induction vs using List.reverseRecOn generalizing d with
  | nil => simp [lineRun, h.ram, readWord_zeroFilled, sampleBefore]
  | append_singleton vs v ih =>
    obtain ⟨e, rfl⟩ := Nat.exists_eq_add_of_le' h1
    have hlen : (vs ++ [v]).length + s.length.toNat - (e + 1) = vs.length + s.length.toNat - e := by simp; omega
    rw [h.readWord_lineRun_append, hlen]
    rcases Nat.eq_zero_or_pos e with rfl | he
    · rw [if_pos (by simp), sampleBefore_append_one]
    · have hne : ¬ (vs.length + s.length.toNat - e) % s.length.toNat = vs.length % s.length.toNat := by
        intro heq
        have hmod : vs.length ≡ vs.length + s.length.toNat - e [MOD s.length.toNat] := heq.symm
        have hle := Nat.le_of_dvd (by omega) ((Nat.modEq_iff_dvd' (by omega)).1 hmod)
        omega
      rw [if_neg hne, ih he (by omega), sampleBefore_append_succ vs v he]

/-- A property of +0.0 and of every sample holds of every word of the line. -/
theorem FreshLine.forall_readWord_lineRun (h : FreshLine s ch) {P : Word → Prop} (hzero : P 0#32) {vs : List Word}
    (hvs : ∀ v ∈ vs, P v) (i : Nat) : P (readWord ((lineRun s ch vs).ram ch) i) := by
  induction vs using List.reverseRecOn with
  | nil => simpa [lineRun, h.ram, readWord_zeroFilled] using hzero
  | append_singleton vs v ih =>
    rw [h.readWord_lineRun_append]
    split
    · exact hvs v (by simp)
    · exact ih fun u hu => hvs u (by simp [hu])

/-! ### Reads after the run -/

/-- A delay up to L points, with the fraction +0.0, `d` words behind the head (R127). -/
theorem FreshLine.readPoint_lineRun (h : FreshLine s ch) (hlen : s.length.toNat ≤ 2 ^ 24) (vs : List Word) {d : Nat}
    (hd : d ≤ s.length.toNat) :
    readPoint (lineRun s ch vs) ch (i2f d) = ((vs.length + s.length.toNat - d) % s.length.toNat, ZERO) := by
  have hlt := Nat.mod_lt vs.length h.pos
  have hlength : (lineRun s ch vs).length.toNat = s.length.toNat := by rw [lineRun_length]
  have hhead := h.head_lineRun vs
  have hmod : (((vs.length % s.length.toNat : Nat) : Int) - d) % (s.length.toNat : Int)
      = ((vs.length + s.length.toNat - d : Nat) : Int) % (s.length.toNat : Int) := by
    rw [Nat.cast_sub (by omega), Int.natCast_mod, Int.emod_sub_emod, Nat.cast_add, add_sub_right_comm,
      Int.add_emod_right]
  rw [readPoint_of_whole (isWhole_i2f (hd.trans hlen)) (by omega) (by omega) (by omega) (by omega), hlength, hhead,
    hmod, ← Int.natCast_mod, Int.toNat_natCast]

/-- A sample that no exception of R128 concerns. -/
def PlainSample (v : Word) : Prop := isNaN v = false ∧ isInf v = false ∧ v ≠ 0x80000000#32

theorem wordAtFractionZero_of_plain {b0 b1 : Word} (h0 : PlainSample b0) (h1 : PlainSample b1) :
    wordAtFractionZero b0 b1 = b0 := by
  obtain ⟨hnan0, _, hne⟩ := h0
  obtain ⟨hnan1, hinf1, _⟩ := h1
  simp [wordAtFractionZero, hnan0, hnan1, hinf1, hne]

/-- A delay from 1 to L reads the sample written `d` writes ago, when all samples are plain (R127, R128). -/
theorem FreshLine.readInterpolated_lineRun (h : FreshLine s ch) (hlen : s.length.toNat ≤ 2 ^ 24) {vs : List Word}
    (hvs : ∀ v ∈ vs, PlainSample v) {d : Nat} (h1 : 1 ≤ d) (hd : d ≤ s.length.toNat) :
    readInterpolated (lineRun s ch vs) ch (i2f d) = some (sampleBefore vs d) := by
  have hplain := h.forall_readWord_lineRun (P := PlainSample) (by unfold PlainSample; decide) hvs
  rw [readInterpolated_of_readPoint (by rw [lineRun_length]; exact h.pos) (h.readPoint_lineRun hlen vs hd),
    wordAtFractionZero_of_plain (hplain _) (hplain _), h.readWord_lineRun vs h1 hd]

end

/-- CONFIGURE that leaves the block ready leaves both lines fresh, with at most 2^24 words (R6, R205). -/
theorem freshLine_of_configure {s s0 : State} {sr : Word} (hcfg : s.cfg.legal = true)
    (h : exec (.configure sr) s = .next s0) (hready : s0.status.ready = true) (ch : Channel) :
    FreshLine s0 ch ∧ s0.length.toNat ≤ 2 ^ 24 := by
  obtain ⟨_, rfl⟩ | ⟨hpos, hcap, rfl⟩ := (exec_configure_next sr s s0).1 h
  · cases hready
  · obtain ⟨_, _, hprepared, _⟩ := inv_configureDone s sr hcfg hpos hcap
    obtain ⟨_, hone, hle, _, _⟩ := hprepared hready
    have hcapacity : s.cfg.bufCapacity.toNat ≤ 2 ^ 24 := by
      simp only [Params.legal, Bool.and_eq_true, decide_eq_true_eq] at hcfg
      obtain ⟨⟨⟨_, hle⟩, _⟩, _⟩ := hcfg
      exact hle
    exact ⟨⟨by cases ch <;> rfl, by cases ch <;> rfl, hone⟩, hle.trans hcapacity⟩

/-- Settles O29, from what a run of writes leaves of a fresh line. -/
theorem delayLineWrapsAround : Obligations.DelayLineWrapsAround := by
  intro s s0 sr ch vs hcfg hconf hready _
  obtain ⟨⟨hhead, hram, hpos⟩, hlen⟩ := freshLine_of_configure hcfg hconf hready ch
  have hfresh : FreshLine { s0 with port := [] } ch := ⟨hhead, hram, hpos⟩
  have hpoint {d : Nat} (hd : d ≤ s0.length.toNat) := hfresh.readPoint_lineRun hlen vs hd
  have hends : readPoint (lineRun { s0 with port := [] } ch vs) ch (i2f 0)
      = readPoint (lineRun { s0 with port := [] } ch vs) ch (i2f s0.length.toNat) := by
    rw [hpoint (Nat.zero_le _), hpoint le_rfl, Nat.sub_zero, Nat.add_mod_right, Nat.add_sub_cancel]
  refine ⟨_, run_sampleRequests ch vs hready (by rw [hhead]; exact hpos), hfresh.head_lineRun vs, fun d h1 hd => ?_,
    hends, ?_⟩
  · rw [hpoint hd]
    refine ⟨rfl, (memRead_eq_some_iff ..).2 ⟨?_, hfresh.readWord_lineRun vs h1 hd⟩,
      fun hvs => hfresh.readInterpolated_lineRun hlen hvs h1 hd⟩
    rw [lineRun_length]
    exact Nat.mod_lt _ hpos
  · rw [readInterpolated, readInterpolated, hends]

end Sys2Proof.Machine
end

