-- ==== Sys2Proof/Proofs/RoundedOrder.lean ====
section
/-! SUPPORT. How the operations of R11 keep the order of binary32: a result never passes a binary32 number that the exact
value does not pass, and near the top of a range a result stays when the exact value is not past the midpoint above. -/

namespace Sys2Proof.Machine

/-! ### Comparison -/

theorem fge_iff (a b : Word) : fge a b = true ↔ isNaN a = false ∧ isNaN b = false ∧ units b ≤ units a := by
  simp [fge, and_assoc]

theorem flt_iff (a b : Word) : flt a b = true ↔ isNaN a = false ∧ isNaN b = false ∧ units a < units b := by
  simp [flt, and_assoc]

/-- A number of magnitude below 2^277 units is no infinity. -/
theorem isInf_of_natAbs_lt {a : Word} (h : (units a).natAbs < 2 ^ 277) : isInf a = false := by
  by_contra hc
  have hbits := (isInf_iff a).1 (Bool.not_eq_false _ ▸ hc)
  have hinf : magOfBits 0x7F800000 = 2 ^ 277 := by decide +kernel
  rw [natAbs_units, magUnits_eq, hbits, hinf] at h
  exact lt_irrefl _ h

theorem magBits_le_inf {a : Word} (h : isNaN a = false) : a.toNat % 2 ^ 31 ≤ 0x7F800000 := by
  by_contra hc
  rw [(isNaN_iff a).2 (by omega)] at h
  cases h

/-! ### Signed magnitudes -/

/-- The integer of a sign and a magnitude. -/
def signed (neg : Bool) (n : Nat) : Int := if neg then -n else n

theorem units_eq_signed (a : Word) : units a = signed (signBit a) (magUnits a) := rfl

theorem signed_not (neg : Bool) (n : Nat) : signed (!neg) n = -signed neg n := by cases neg <;> simp [signed]

theorem signed_mul (x y : Bool) (m n : Nat) : signed x m * signed y n = signed (x != y) (m * n) := by
  cases x <;> cases y <;> simp [signed]

theorem signed_natAbs (z : Int) : signed (decide (z < 0)) z.natAbs = z := by
  rcases lt_or_ge z 0 with h | h
  · rw [decide_eq_true h, signed, if_pos rfl]; omega
  · rw [decide_eq_false h.not_gt, signed, if_neg (by decide)]; omega

theorem units_rnd (neg : Bool) (n d : Nat) : units (rnd neg n d) = signed neg (magOfBits (rndBits n d)) := by
  rw [units_eq_signed, signBit_rnd, magUnits_rnd]

/-! ### Rounding keeps the order -/

/-- A real not above a binary32 number does not round above it. -/
theorem units_rnd_le {neg : Bool} {n d : Nat} {v : Word} (hd : 0 < d) (hv : isNaN v = false)
    (h : signed neg n ≤ units v * d) : units (rnd neg n d) ≤ units v := by
  have hbits := magBits_le_inf hv
  have hmag : (units v).natAbs = magOfBits (v.toNat % 2 ^ 31) := by rw [natAbs_units, magUnits_eq]
  rw [units_rnd]
  generalize v.toNat % 2 ^ 31 = m at hbits hmag
  generalize units v = u at h hmag ⊢
  cases neg with
  | false =>
    have hpos : 0 ≤ u := nonneg_of_mul_nonneg_left ((Int.natCast_nonneg n).trans h) (by omega)
    obtain rfl : u = magOfBits m := by omega
    exact Int.ofNat_le.2 (magOfBits_strictMono.monotone (rndBits_le n d m hd (Int.ofNat_le.1 (by simpa [signed] using h))))
  | true =>
    have hneg : signed true (magOfBits (rndBits n d)) = -(magOfBits (rndBits n d) : Int) := rfl
    rcases lt_or_ge u 0 with hu | hu
    · obtain rfl : u = -(magOfBits m : Int) := by omega
      have hle : magOfBits m * d ≤ n := by
        rw [neg_mul] at h
        exact_mod_cast neg_le_neg_iff.1 h
      have := magOfBits_strictMono.monotone (rndBits_ge n d m hd hbits hle)
      omega
    · omega

/-- A real not below a binary32 number does not round below it. -/
theorem le_units_rnd {neg : Bool} {n d : Nat} {v : Word} (hd : 0 < d) (hv : isNaN v = false)
    (h : units v * d ≤ signed neg n) : units v ≤ units (rnd neg n d) := by
  have hflip : units (rnd (!neg) n d) ≤ units (fneg v) :=
    units_rnd_le hd (by rwa [isNaN_fneg]) (by rw [signed_not, units_fneg, neg_mul]; omega)
  rw [rnd_not, units_fneg, units_fneg] at hflip
  omega

/-- `w` is a number that passes no binary32 number which the exact value, `z / d` units, does not pass. -/
structure KeepsOrder (w : Word) (z : Int) (d : Nat) : Prop where
  notNaN : isNaN w = false
  le {v : Word} (hv : isNaN v = false) (h : z ≤ units v * d) : units w ≤ units v
  ge {v : Word} (hv : isNaN v = false) (h : units v * d ≤ z) : units v ≤ units w

theorem keepsOrder_rnd {neg : Bool} {n d : Nat} {z : Int} (hd : 0 < d) (hz : z = signed neg n) :
    KeepsOrder (rnd neg n d) z d where
  notNaN := isNaN_rnd neg n d
  le hv h := units_rnd_le hd hv (hz ▸ h)
  ge hv h := le_units_rnd hd hv (hz ▸ h)

theorem keepsOrder_zeroOf (neg : Bool) : KeepsOrder (zeroOf neg) 0 1 where
  notNaN := isNaN_zeroOf neg
  le _ h := by rw [units_zeroOf]; omega
  ge _ h := by rw [units_zeroOf]; omega

/-- A finite number: neither a NaN nor an infinity. -/
def IsFinite (a : Word) : Prop := isNaN a = false ∧ isInf a = false

theorem isFinite_fneg {a : Word} : IsFinite (fneg a) ↔ IsFinite a := by simp [IsFinite]

theorem fadd_of_finite {a b : Word} (ha : IsFinite a) (hb : IsFinite b) :
    fadd a b = if units a + units b = 0 then zeroOf (signBit a && signBit b)
      else rnd (decide (units a + units b < 0)) (units a + units b).natAbs 1 := by
  obtain ⟨ha, ha'⟩ := ha
  obtain ⟨hb, hb'⟩ := hb
  simp [fadd, ha, ha', hb, hb']

theorem keepsOrder_fadd {a b : Word} (ha : IsFinite a) (hb : IsFinite b) :
    KeepsOrder (fadd a b) (units a + units b) 1 := by
  rw [fadd_of_finite ha hb]
  split
  · next h => rw [h]; exact keepsOrder_zeroOf _
  · exact keepsOrder_rnd Nat.one_pos (signed_natAbs _).symm

theorem keepsOrder_fsub {a b : Word} (ha : IsFinite a) (hb : IsFinite b) :
    KeepsOrder (fsub a b) (units a - units b) 1 := by
  rw [sub_eq_add_neg, ← units_fneg]
  exact keepsOrder_fadd ha (isFinite_fneg.2 hb)

theorem keepsOrder_fmul {a b : Word} (ha : IsFinite a) (hb : IsFinite b) :
    KeepsOrder (fmul a b) (units a * units b) unitsPerOne := by
  obtain ⟨ha, ha'⟩ := ha
  obtain ⟨hb, hb'⟩ := hb
  have hrnd : fmul a b = rnd (signBit a != signBit b) (magUnits a * magUnits b) unitsPerOne := by
    simp [fmul, ha, ha', hb, hb']
  rw [hrnd]
  exact keepsOrder_rnd (by decide) (signed_mul ..)

/-- A number above 0 has no sign. -/
theorem magUnits_of_pos {a : Word} (h : 0 < units a) : signBit a = false ∧ (magUnits a : Int) = units a := by
  rw [units_eq] at h ⊢
  cases hs : signBit a with
  | false => exact ⟨rfl, rfl⟩
  | true => rw [hs, if_pos rfl] at h; omega

theorem keepsOrder_fdiv {a b : Word} (ha : IsFinite a) (hb : IsFinite b) (hpos : 0 < units b) :
    KeepsOrder (fdiv a b) ((unitsPerOne : Int) * units a) (magUnits b) := by
  obtain ⟨ha, ha'⟩ := ha
  obtain ⟨hb, hb'⟩ := hb
  obtain ⟨hsign, hmag⟩ := magUnits_of_pos hpos
  have hne : magUnits b ≠ 0 := by omega
  have hrnd : fdiv a b = rnd (signBit a) (unitsPerOne * magUnits a) (magUnits b) := by
    simp [fdiv, ha, ha', hb, hb', hne, hsign]
  rw [hrnd]
  refine keepsOrder_rnd (Nat.pos_of_ne_zero hne) ((signed_mul false (signBit a) unitsPerOne (magUnits a)).trans ?_)
  rw [Bool.false_bne]

/-! ### How far a rounding is from the exact value -/

/-- Neighbours below 2^130 · 2^24 units are at most 2^130 units apart. -/
theorem magOfBits_succ_le {m : Nat} (h : m < 2 ^ 23 * 132) : magOfBits (m + 1) ≤ magOfBits m + 2 ^ 130 := by
  obtain ⟨k, q, rfl, hq, hk⟩ := magBits_split m
  rw [magOfBits_build k q hq.le hk, Nat.add_assoc, magOfBits_build k (q + 1) hq (by omega), Nat.succ_mul]
  exact Nat.add_le_add_left (Nat.pow_le_pow_right (by omega) (by omega)) _

/-- A rounding below 2^154 units, that is 32, is at most half of 2^130 units above the exact value. -/
theorem magOfBits_rndBits_le {n d : Nat} (hd : 0 < d) (h : rndBits n d ≤ 2 ^ 23 * 132) :
    2 * magOfBits (rndBits n d) * d ≤ 2 * n + 2 ^ 130 * d := by
  rcases Nat.eq_zero_or_pos (rndBits n d) with h0 | hpos
  · rw [h0, magOfBits_zero]; omega
  · obtain ⟨p, hp⟩ : ∃ p, rndBits n d = p + 1 := ⟨rndBits n d - 1, by omega⟩
    have hmid := (rndBits_above_mid n d p hd (by omega)).1
    rw [hp] at h hmid ⊢
    have hgap := magOfBits_succ_le (m := p) (by omega)
    calc 2 * magOfBits (p + 1) * d ≤ (magOfBits p + magOfBits (p + 1) + 2 ^ 130) * d :=
          Nat.mul_le_mul_right _ (by omega)
      _ ≤ 2 * n + 2 ^ 130 * d := by rw [Nat.add_mul]; omega

/-- A value not above the midpoint over an even number does not round above that number. -/
theorem rndBits_le_of_le_mid {n d m : Nat} (hd : 0 < d) (hm : m < 0x7F800000) (heven : m % 2 = 0)
    (h : 2 * n ≤ (magOfBits m + magOfBits (m + 1)) * d) : rndBits n d ≤ m := by
  rcases Nat.lt_or_eq_of_le h with hlt | heq
  · exact rndBits_le_of_lt_mid n d m hd hlt
  · rw [rndBits_of_mid n d m hd hm heq.symm, heven]; omega

end Sys2Proof.Machine
end

