-- ==== Sys2Proof/Proofs/PhaseRange.lean ====
section
/-! SUPPORT. The range of SMOOTH_RATE and of LFO_PHASE (R153, R156): smoothing keeps a value between 0 and 20, and a phase
increment up to a half, wrapped once, keeps the phase in `[0, 1)`, with every rounding counted. -/

namespace Sys2Proof.Machine

/-! ### The ranges in units -/

theorem units_one : isNaN ONE = false ∧ units ONE = unitsPerOne := by decide +kernel

theorem units_zero : isNaN ZERO = false ∧ units ZERO = 0 := by decide

theorem units_half : isNaN 0x3F000000#32 = false ∧ units 0x3F000000#32 = 2 ^ 148 := by decide +kernel

theorem units_twenty : isNaN 0x41A00000#32 = false ∧ units 0x41A00000#32 = 20 * 2 ^ 149 := by decide +kernel

theorem units_forty : isNaN 0x42200000#32 = false ∧ units 0x42200000#32 = 40 * 2 ^ 149 := by decide +kernel

theorem unitsPerOne_eq : (unitsPerOne : Int) = 2 ^ 149 := by decide +kernel

/-- The range of RATE and of SMOOTH_RATE, `[0, 20]`. -/
def RateRange (a : Word) : Prop := fge a ZERO = true ∧ fge 0x41A00000#32 a = true

/-- The range of LFO_PHASE, `[0, 1)`. -/
def PhaseRange (a : Word) : Prop := fge a ZERO = true ∧ flt a ONE = true

theorem rateRange_iff (a : Word) : RateRange a ↔ isNaN a = false ∧ 0 ≤ units a ∧ units a ≤ 20 * 2 ^ 149 := by
  simp only [RateRange, fge_iff, units_zero, units_twenty, true_and]
  tauto

theorem phaseRange_iff (a : Word) : PhaseRange a ↔ isNaN a = false ∧ 0 ≤ units a ∧ units a < 2 ^ 149 := by
  simp only [PhaseRange, fge_iff, flt_iff, units_zero, units_one, unitsPerOne_eq, true_and]
  tauto

/-- A number of magnitude up to 20 is finite. -/
theorem isFinite_of_units {a : Word} (hnan : isNaN a = false) (hlo : -(20 * 2 ^ 149) ≤ units a)
    (hhi : units a ≤ 20 * 2 ^ 149) : IsFinite a :=
  ⟨hnan, isInf_of_natAbs_lt (by omega)⟩

theorem RateRange.isFinite {a : Word} (h : RateRange a) : IsFinite a := by
  obtain ⟨hnan, hlo, hhi⟩ := (rateRange_iff a).1 h
  exact isFinite_of_units hnan (by omega) hhi

theorem PhaseRange.isFinite {a : Word} (h : PhaseRange a) : IsFinite a := by
  obtain ⟨hnan, hlo, hhi⟩ := (phaseRange_iff a).1 h
  exact isFinite_of_units hnan (by omega) (by omega)

/-- SMOOTH_COEF of legal parameters lies in `(0, 1]` (R6). -/
theorem smoothCoef_range {p : Params} (h : p.legal = true) :
    IsFinite p.smoothCoef ∧ 0 < units p.smoothCoef ∧ units p.smoothCoef ≤ unitsPerOne := by
  simp only [Params.legal, Bool.and_eq_true, flt_iff, fge_iff, units_zero, units_one, unitsPerOne_eq] at h ⊢
  obtain ⟨_, ⟨_, hnan, hlo⟩, _, _, hhi⟩ := h
  exact ⟨isFinite_of_units hnan (by omega) (by omega), hlo, hhi⟩

/-! ### Smoothing -/

theorem units_fadd_of_nonneg {a b : Word} (ha : IsFinite a) (hb : IsFinite b) (h : 0 ≤ units a + units b) :
    units (fadd a b) = magOfBits (rndBits (units a + units b).toNat 1) := by
  rw [fadd_of_finite ha hb]
  split
  · next h0 =>
    have hbits : rndBits 0 1 = 0 := Nat.le_zero.1 (rndBits_le 0 1 0 Nat.one_pos (Nat.zero_le _))
    rw [h0, units_zeroOf, Int.toNat_zero, hbits, magOfBits_zero]
    rfl
  · rw [units_rnd, decide_eq_false h.not_gt, signed, if_neg (by decide), ← Int.toNat_of_nonneg h, Int.natAbs_natCast,
      Int.toNat_natCast]

theorem magOfBits_twenty : magOfBits 0x41A00000 = 20 * 2 ^ 149 ∧ magOfBits (0x41A00000 + 1) = 20 * 2 ^ 149 + 2 ^ 130 := by
  decide +kernel

/-- A difference up to 20 is at most half of 2^130 units too large. -/
theorem units_fsub_le {s t : Word} (hs : IsFinite s) (ht : IsFinite t) (hle : units s ≤ units t)
    (htop : units t - units s ≤ 20 * 2 ^ 149) : 2 * units (fsub t s) ≤ 2 * (units t - units s) + 2 ^ 130 := by
  have hunits := units_fadd_of_nonneg ht (isFinite_fneg.2 hs) (by rw [units_fneg]; omega)
  rw [units_fneg, ← sub_eq_add_neg] at hunits
  have hbits : rndBits (units t - units s).toNat 1 ≤ 0x41A00000 :=
    rndBits_le _ _ _ Nat.one_pos (by rw [magOfBits_twenty.1]; omega)
  have herr := magOfBits_rndBits_le Nat.one_pos (hbits.trans (by decide))
  rw [fsub, hunits]
  omega

/-- A sum at most half of 2^130 units above 20 rounds to at most 20: the midpoint above 20 is a tie, and 20 is even. -/
theorem units_fadd_le_twenty {a b : Word} (ha : IsFinite a) (hb : IsFinite b) (h0 : 0 ≤ units a + units b)
    (h : 2 * (units a + units b) ≤ 2 * (20 * 2 ^ 149) + 2 ^ 130) : units (fadd a b) ≤ 20 * 2 ^ 149 := by
  obtain ⟨htwenty, hnext⟩ := magOfBits_twenty
  have hbits : rndBits (units a + units b).toNat 1 ≤ 0x41A00000 :=
    rndBits_le_of_le_mid Nat.one_pos (by decide) (by decide) (by rw [htwenty, hnext]; omega)
  have hmono := magOfBits_strictMono.monotone hbits
  rw [units_fadd_of_nonneg ha hb h0]
  omega

/-- The product of a coefficient in `(0, 1]` and `d` lies between 0 and `d`. -/
theorem units_fmul_coef {c d : Word} (hc : IsFinite c) (hpos : 0 < units c) (hone : units c ≤ unitsPerOne)
    (hd : IsFinite d) :
    isNaN (fmul c d) = false ∧ (0 ≤ units d → 0 ≤ units (fmul c d) ∧ units (fmul c d) ≤ units d)
      ∧ (units d ≤ 0 → units d ≤ units (fmul c d) ∧ units (fmul c d) ≤ 0) := by
  have hm := keepsOrder_fmul hc hd
  obtain ⟨hzero, hzero'⟩ := units_zero
  refine ⟨hm.notNaN, fun h => ⟨?_, ?_⟩, fun h => ⟨?_, ?_⟩⟩
  · exact hzero' ▸ hm.ge hzero (by rw [hzero', zero_mul]; exact mul_nonneg hpos.le h)
  · exact hm.le hd.1 (by rw [mul_comm]; exact mul_le_mul_of_nonneg_left hone h)
  · exact hm.ge hd.1 (by rw [mul_comm (units d)]; exact mul_le_mul_of_nonpos_right hone h)
  · exact hzero' ▸ hm.le hzero (by rw [hzero', zero_mul]; exact mul_nonpos_of_nonneg_of_nonpos hpos.le h)

/-- Smoothing between two values of `[0, 20]` stays in `[0, 20]` (R153). Downwards the step is at most the value itself.
Upwards it can pass the target by a rounding error, which the last rounding takes back at 20. -/
theorem RateRange.smooth {c s t : Word} (hc : IsFinite c) (hpos : 0 < units c) (hone : units c ≤ unitsPerOne)
    (hs : RateRange s) (ht : RateRange t) : RateRange (smooth c s t) := by
  have hsfin := hs.isFinite
  have htfin := ht.isFinite
  obtain ⟨hsnan, hs0, hs20⟩ := (rateRange_iff s).1 hs
  obtain ⟨htnan, ht0, ht20⟩ := (rateRange_iff t).1 ht
  have hd := keepsOrder_fsub htfin hsfin
  obtain ⟨hzero, hzero'⟩ := units_zero
  rw [rateRange_iff, Machine.smooth]
  rcases le_total (units s) (units t) with hle | hle
  · have hdlo : units ZERO ≤ units (fsub t s) := hd.ge hzero (by omega)
    have hdhi : units (fsub t s) ≤ units t := hd.le htnan (by omega)
    have herr := units_fsub_le hsfin htfin hle (by omega)
    have hdfin : IsFinite (fsub t s) := isFinite_of_units hd.notNaN (by omega) (by omega)
    obtain ⟨hmnan, hup, _⟩ := units_fmul_coef hc hpos hone hdfin
    obtain ⟨hm0, hmd⟩ := hup (by omega)
    have hmfin := isFinite_of_units hmnan (by omega) (by omega)
    have hsum := keepsOrder_fadd hsfin hmfin
    exact ⟨hsum.notNaN, hzero' ▸ hsum.ge hzero (by omega), units_fadd_le_twenty hsfin hmfin (by omega) (by omega)⟩
  · have hdlo : units (fneg s) ≤ units (fsub t s) := hd.ge (by rwa [isNaN_fneg]) (by rw [units_fneg]; omega)
    rw [units_fneg] at hdlo
    have hdhi : units (fsub t s) ≤ units ZERO := hd.le hzero (by omega)
    have hdfin : IsFinite (fsub t s) := isFinite_of_units hd.notNaN (by omega) (by omega)
    obtain ⟨hmnan, _, hdown⟩ := units_fmul_coef hc hpos hone hdfin
    obtain ⟨hmd, hm0⟩ := hdown (by omega)
    have hmfin := isFinite_of_units hmnan (by omega) (by omega)
    have hsum := keepsOrder_fadd hsfin hmfin
    exact ⟨hsum.notNaN, hzero' ▸ hsum.ge hzero (by omega), (hsum.le hsnan (by omega)).trans hs20⟩

/-! ### The phase -/

/-- A rate up to 20 over a sample rate from 40 on is at most a half. -/
theorem units_fdiv_rate {r f : Word} (hr : RateRange r) (hf : fge f 0x42200000#32 = true) :
    isNaN (fdiv r f) = false ∧ 0 ≤ units (fdiv r f) ∧ units (fdiv r f) ≤ 2 ^ 148 := by
  have hrfin := hr.isFinite
  obtain ⟨hrnan, hr0, hr20⟩ := (rateRange_iff r).1 hr
  obtain ⟨hfnan, _, hf40⟩ := (fge_iff _ _).1 hf
  rw [units_forty.2] at hf40
  cases hinf : isInf f with
  | true =>
    have hzero : fdiv r f = zeroOf (signBit r != signBit f) := by simp [fdiv, hrnan, hrfin.2, hfnan, hinf]
    rw [hzero, units_zeroOf]
    exact ⟨isNaN_zeroOf _, by decide, by decide⟩
  | false =>
    have hq := keepsOrder_fdiv hrfin ⟨hfnan, hinf⟩ (by omega)
    have hmag := (magUnits_of_pos (a := f) (by omega)).2
    rw [unitsPerOne_eq] at hq
    refine ⟨hq.notNaN, ?_, ?_⟩
    · exact units_zero.2 ▸ hq.ge units_zero.1 (by rw [units_zero.2]; omega)
    · exact units_half.2 ▸ hq.le units_half.1 (by rw [units_half.2]; omega)

/-- A phase advanced by at most a half and wrapped once stays in `[0, 1)` (R156). -/
theorem PhaseRange.wrapPhase {p q : Word} (hp : PhaseRange p) (hnan : isNaN q = false) (h0 : 0 ≤ units q)
    (hhalf : units q ≤ 2 ^ 148) : PhaseRange (wrapPhase (fadd p q)) := by
  obtain ⟨hpnan, hp0, hp1⟩ := (phaseRange_iff p).1 hp
  have hsum := keepsOrder_fadd hp.isFinite (isFinite_of_units hnan (by omega) (by omega))
  obtain ⟨hone, hone'⟩ := units_one
  obtain ⟨hzero, hzero'⟩ := units_zero
  rw [unitsPerOne_eq] at hone'
  have hlo : units ZERO ≤ units (fadd p q) := hsum.ge hzero (by omega)
  have hthree : isNaN 0x3FC00000#32 = false ∧ units 0x3FC00000#32 = 3 * 2 ^ 148 := by decide +kernel
  have hhi : units (fadd p q) ≤ units 0x3FC00000#32 := hsum.le hthree.1 (by omega)
  rw [phaseRange_iff, Machine.wrapPhase]
  split
  · next hge =>
    have hge := ((fge_iff _ _).1 hge).2.2
    have hdiff := keepsOrder_fsub (isFinite_of_units hsum.notNaN (by omega) (by omega))
      (isFinite_of_units hone (by omega) (by omega))
    have hdlo : units ZERO ≤ _ := hdiff.ge hzero (by omega)
    have hdhi : _ ≤ units 0x3F000000#32 := hdiff.le units_half.1 (by rw [units_half.2]; omega)
    rw [units_half.2] at hdhi
    exact ⟨hdiff.notNaN, by omega, by omega⟩
  · next hge =>
    have hlt : units (fadd p q) < units ONE := by
      by_contra hc
      exact hge ((fge_iff _ _).2 ⟨hsum.notNaN, hone, not_lt.1 hc⟩)
    exact ⟨hsum.notNaN, by omega, by omega⟩

/-! ### Every command -/

/-- What a frame does to the two registers (R153, R156). -/
theorem modulate_range {s : State} (hlegal : s.cfg.legal = true) (hrate : RateRange s.rate)
    (hsample : fge s.sampleRate 0x42200000#32 = true) (hsmooth : RateRange s.smoothRate)
    (hphase : PhaseRange s.lfoPhase) : RateRange (modulate s).srate ∧ PhaseRange (modulate s).phase := by
  obtain ⟨hfin, hpos, hone⟩ := smoothCoef_range hlegal
  have hsrate : RateRange (modulate s).srate := hsmooth.smooth hfin hpos hone hrate
  obtain ⟨hnan, h0, hhalf⟩ := units_fdiv_rate hsrate hsample
  exact ⟨hsrate, hphase.wrapPhase hnan h0 hhalf⟩

theorem exec_range {i : Instr} {s t : State} (hlegal : s.cfg.legal = true) (hrate : RateRange s.rate)
    (hsample : fge s.sampleRate 0x42200000#32 = true) (hsmooth : RateRange s.smoothRate)
    (hphase : PhaseRange s.lfoPhase) (h : exec i s = .next t) : RateRange t.smoothRate ∧ PhaseRange t.lfoPhase := by
  have hzero : RateRange ZERO ∧ PhaseRange ZERO := by rw [rateRange_iff, phaseRange_iff]; decide
  cases exec_effect h with
  | answered => exact ⟨hsmooth, hphase⟩
  | raised => exact ⟨hsmooth, hphase⟩
  | configureFailed => exact hzero
  | configureDone => exact hzero
  | regWritten _ v r => simpa using And.intro hsmooth hphase
  | lineWritten => simpa using And.intro hsmooth hphase
  | framed => exact modulate_range hlegal hrate hsample hsmooth hphase

/-- Settles O34: only PROCESS_FRAME and CONFIGURE write the two registers, and CONFIGURE writes +0.0. -/
theorem phaseStaysInTheUnitInterval : Obligations.PhaseStaysInTheUnitInterval := by
  intro i s t inRange good hlegal hrange hgood h _
  obtain ⟨hrate0, hrate20, hsample⟩ := hrange
  obtain ⟨hsmooth0, hsmooth20, hphase⟩ := hgood
  obtain ⟨⟨h0, h20⟩, hphase'⟩ := exec_range hlegal ⟨hrate0, hrate20⟩ hsample ⟨hsmooth0, hsmooth20⟩ hphase h
  exact ⟨h0, h20, hphase'⟩

end Sys2Proof.Machine
end

