-- ==== Sys2Proof/Proofs/FrameEffect.lean ====
section
/-! SUPPORT. PROCESS_FRAME of a ready block (R150): the dry/wet mix at its two ends (R161, R168), the whole effect of a
frame, what each lane depends on (R165), and what a NaN parameter makes of the smoothed registers (R153, R167). -/

namespace Sys2Proof.Machine

/-! ### The dry/wet mix

With the operands turned round, each end of the mix is the sum that an interpolation at the fraction +0.0 computes. -/

theorem fmul_comm (a b : Word) : fmul a b = fmul b a := by
  rw [fmul, fmul, Bool.or_comm (isNaN b), Bool.or_comm (isInf b), Bool.or_comm (decide (magUnits b = 0)),
    bne_comm (a := signBit b), Nat.mul_comm (magUnits b)]

theorem fadd_comm (a b : Word) : fadd a b = fadd b a := by
  rw [fadd, fadd, Bool.or_comm (isNaN b), bne_comm (a := signBit b), Bool.and_comm (signBit b),
    Int.add_comm (units b)]
  cases ha : isInf a <;> cases hb : isInf b
  case true.true =>
    cases hs : signBit a != signBit b
    · have hab : a = b := by rw [← infinity_of_isInf a ha, ← infinity_of_isInf b hb, bne_eq_false_iff_eq.1 hs]
      rw [hab]
    · rfl
  all_goals rfl

/-- The mix with DRYWET +0.0 (R168). -/
theorem mix_zero (x y : Word) : mix ZERO x y = wordAtFractionZero x y := by
  rw [mix, fsub_one_zero, fmul_comm x, fmul_comm y, fadd_fmul_one_zero]

theorem fsub_one_one : fsub ONE ONE = ZERO := by decide +kernel

/-- The mix with DRYWET 1.0 is the mix with DRYWET +0.0 of the exchanged samples (R168). -/
theorem mix_one (x y : Word) : mix ONE x y = wordAtFractionZero y x := by
  rw [mix, fsub_one_one, fadd_comm, fmul_comm x, fmul_comm y, fadd_fmul_one_zero]

/-- A factor 1.0 disappears from a sum, which gives the canonical NaN for a NaN anyway. -/
theorem fadd_fmul_one_left (x z : Word) : fadd (fmul x ONE) z = fadd x z := by
  cases h : isNaN x with
  | false => rw [fmul_one_right x h]
  | true => rw [fmul_nan_left x ONE h, fadd_nan_left x z h, fadd_nan_left QNAN z (by decide)]

/-- Settles O33. -/
theorem dryWetBoundary : Obligations.DryWetBoundary := by
  refine ⟨fsub_one_zero, fsub_one_one, fun x y => ⟨?_, mix_zero x y⟩, fun x y => ⟨?_, (mix_one x y).trans ?_⟩⟩
  · show fadd (fmul x (fsub ONE ZERO)) (fmul y ZERO) = fadd x (fmul y ZERO)
    rw [fsub_one_zero, fadd_fmul_one_left]
  · show fadd (fmul x (fsub ONE ONE)) (fmul y ONE) = fadd (fmul x ZERO) y
    rw [fsub_one_one, fadd_comm, fadd_fmul_one_left, fadd_comm]
  · rw [wordAtFractionZero, Bool.or_assoc, Bool.or_comm (isNaN y)]

/-! ### The whole effect -/

/-- The delay in samples with the ranges of R158 and R164 written out. -/
theorem delaySamples_eq (ty : EffectType) (sr v : Word) :
    delaySamples ty sr v =
      let lo : Word := if ty = .chorus then 0x3BA3D70A#32 else 0x3A83126F#32
      let hi : Word := if ty = .chorus then 0x3CF5C28F#32 else 0x3BA3D70A#32
      fmul (fadd lo (fdiv (fmul (fsub hi lo) (fadd v ONE)) TWO)) sr := by
  cases ty <;> rfl

/-- Settles O30: the state of `frameResult` is the rule's, and both reads follow both writes. -/
theorem processFrameComputesTheFrame : Obligations.ProcessFrameComputesTheFrame := by
  intro s inL inR hready hL hR c lfoL spo rph lfoR srate p sdep lo hi dL dR t1
  have hdL : (modulate s).dL = dL := delaySamples_eq ..
  have hdR : (modulate s).dR = dR := delaySamples_eq ..
  have hlen : 0 < t1.length.toNat := Nat.zero_lt_of_lt hL
  have hexec := (exec_processFrame_next inL inR s _).2 (.inl ⟨hready, hL, hR, rfl⟩)
  refine ⟨_, _, readInterpolated_eq t1 .left dL hlen, readInterpolated_eq t1 .right dR hlen, ?_⟩
  rw [hexec, ← hdL, ← hdR]
  rfl

/-! ### The lanes -/

/-- What belongs to a channel of two things, the left one first. -/
def ofLane {α : Type} (ch : Channel) (l r : α) : α :=
  match ch with
  | .left => l
  | .right => r

/-- The states agree on what a frame reads outside the lanes: all of S2 to S6, LENGTH, FEEDBACK and DRYWET. -/
structure SharedAgree (s1 s2 : State) : Prop where
  modulate : modulate s1 = modulate s2
  length   : s1.length = s2.length
  feedback : s1.feedback = s2.feedback
  dryWet   : s1.dryWet = s2.dryWet

/-- The states agree on one lane: its carry, its head and its delay RAM. -/
structure LaneAgree (ch : Channel) (s1 s2 : State) : Prop where
  fb  : s1.fb ch = s2.fb ch
  wh  : s1.wh ch = s2.wh ch
  ram : s1.ram ch = s2.ram ch

/-- S1 on a lane reads that lane, its sample and LENGTH only (R152). -/
theorem frameWritten_lane (s : State) (inL inR : Word) (ch : Channel) :
    (frameWritten s inL inR).ram ch = writeWord (s.ram ch) (s.wh ch).toNat (fadd (ofLane ch inL inR) (s.fb ch))
      ∧ (frameWritten s inL inR).wh ch = nextHead s.length (s.wh ch) := by
  cases ch <;> exact ⟨rfl, rfl⟩

/-- The wet sample of a lane after S1 (S7). -/
def laneWet (s : State) (inL inR : Word) (ch : Channel) : Word :=
  wetSample (frameWritten s inL inR) ch (ofLane ch (modulate s).dL (modulate s).dR)

/-- What a frame leaves on a lane: the delay line of S1, the carry of S8 and the output of S9. -/
theorem frameResult_lane (s : State) (inL inR : Word) (ch : Channel) :
    (frameResult s inL inR).ram ch = (frameWritten s inL inR).ram ch
      ∧ (frameResult s inL inR).wh ch = (frameWritten s inL inR).wh ch
      ∧ (frameResult s inL inR).fb ch = fmul (laneWet s inL inR ch) s.feedback
      ∧ (frameResult s inL inR).answers.head?.map (ofLane ch Response.res0 Response.res1)
        = some (mix s.dryWet (ofLane ch inL inR) (laneWet s inL inR ch)) := by
  cases ch <;> exact ⟨rfl, rfl, rfl, rfl⟩

/-- States that agree on one lane and outside the lanes, given the same sample for that lane, agree so after a frame, with
the same output. -/
theorem frameResult_lane_congr {ch : Channel} {s1 s2 : State} {inL1 inR1 inL2 inR2 : Word} (hshared : SharedAgree s1 s2)
    (hlane : LaneAgree ch s1 s2) (hin : ofLane ch inL1 inR1 = ofLane ch inL2 inR2) :
    let t1 := frameResult s1 inL1 inR1
    let t2 := frameResult s2 inL2 inR2
    t1.ram ch = t2.ram ch ∧ t1.wh ch = t2.wh ch ∧ t1.fb ch = t2.fb ch ∧ t1.lfoPhase = t2.lfoPhase
      ∧ t1.smoothRate = t2.smoothRate ∧ t1.smoothDepth = t2.smoothDepth
      ∧ t1.smoothPhaseOffset = t2.smoothPhaseOffset
      ∧ t1.answers.head?.map (ofLane ch Response.res0 Response.res1)
        = t2.answers.head?.map (ofLane ch Response.res0 Response.res1) := by
  obtain ⟨hmod, hlen, hfeedback, hdryWet⟩ := hshared
  obtain ⟨hfb, hwh, hram⟩ := hlane
  obtain ⟨hram1, hwh1⟩ := frameWritten_lane s1 inL1 inR1 ch
  obtain ⟨hram2, hwh2⟩ := frameWritten_lane s2 inL2 inR2 ch
  have hram' : (frameWritten s1 inL1 inR1).ram ch = (frameWritten s2 inL2 inR2).ram ch := by
    rw [hram1, hram2, hram, hwh, hin, hfb]
  have hwh' : (frameWritten s1 inL1 inR1).wh ch = (frameWritten s2 inL2 inR2).wh ch := by rw [hwh1, hwh2, hlen, hwh]
  have hwet : laneWet s1 inL1 inR1 ch = laneWet s2 inL2 inR2 ch := by
    rw [laneWet, laneWet, hmod]
    exact wetSample_congr _ _ ch _ hlen hwh' hram'
  obtain ⟨hramT1, hwhT1, hfbT1, houtT1⟩ := frameResult_lane s1 inL1 inR1 ch
  obtain ⟨hramT2, hwhT2, hfbT2, houtT2⟩ := frameResult_lane s2 inL2 inR2 ch
  exact ⟨by rw [hramT1, hramT2, hram'], by rw [hwhT1, hwhT2, hwh'], by rw [hfbT1, hfbT2, hwet, hfeedback],
    congrArg Modulation.phase hmod, congrArg Modulation.srate hmod, congrArg Modulation.sdep hmod,
    congrArg Modulation.spo hmod, by rw [houtT1, houtT2, hdryWet, hin, hwet]⟩

/-- Settles O32: states that differ in one lane agree on the other and outside the lanes. -/
theorem lanesDoNotMix : Obligations.LanesDoNotMix := by
  constructor
  · intro s1 s2 t1 t2 inL a b hready h h1 h2
    generalize s2.fbR = fb, s2.whR = wh, s2.ramR = ram, s2.port = port, s2.answers = answers at h
    subst h
    obtain ⟨_, _, rfl⟩ := exec_processFrame_ready hready h1
    obtain ⟨_, _, rfl⟩ := exec_processFrame_ready (by exact hready) h2
    exact frameResult_lane_congr (ch := .left) ⟨rfl, rfl, rfl, rfl⟩ ⟨rfl, rfl, rfl⟩ rfl
  · intro s1 s2 t1 t2 inR a b hready h h1 h2
    generalize s2.fbL = fb, s2.whL = wh, s2.ramL = ram, s2.port = port, s2.answers = answers at h
    subst h
    obtain ⟨_, _, rfl⟩ := exec_processFrame_ready hready h1
    obtain ⟨_, _, rfl⟩ := exec_processFrame_ready (by exact hready) h2
    exact frameResult_lane_congr (ch := .right) ⟨rfl, rfl, rfl, rfl⟩ ⟨rfl, rfl, rfl⟩ rfl

/-! ### NaN parameters -/

/-- Smoothing gives the canonical NaN for a NaN value and for a NaN target (R153). -/
theorem smooth_of_nan (c : Word) {s t : Word} (h : isNaN t = true ∨ isNaN s = true) : smooth c s t = QNAN := by
  have hQ : isNaN QNAN = true := by decide
  obtain ht | hs := h
  · rw [smooth, fsub, fadd_nan_left t _ ht, fmul_nan_right c _ hQ, fadd_nan_right s _ hQ]
  · exact fadd_nan_left s _ hs

/-- A NaN rate makes the phase the canonical NaN, which does not wrap. -/
theorem wrapPhase_of_nan (p f : Word) : wrapPhase (fadd p (fdiv QNAN f)) = QNAN := by
  have hQ : isNaN QNAN = true := by decide
  have hdiv : fdiv QNAN f = QNAN := by simp [fdiv, hQ]
  rw [hdiv, fadd_nan_right p QNAN hQ]
  rfl

/-- Settles O35. -/
theorem nanParametersStayNan : Obligations.NanParametersStayNan := by
  intro s t inL inR hready h
  obtain ⟨_, _, rfl⟩ := exec_processFrame_ready hready h
  refine ⟨fun hrate => ?_, fun hdepth => smooth_of_nan _ hdepth, fun hoffset => smooth_of_nan _ hoffset⟩
  have hsrate : (modulate s).srate = QNAN := smooth_of_nan _ hrate
  have hphase : (modulate s).phase = wrapPhase (fadd s.lfoPhase (fdiv (modulate s).srate s.sampleRate)) := rfl
  exact ⟨hsrate, by rw [frameResult_lfoPhase, hphase, hsrate, wrapPhase_of_nan]⟩

end Sys2Proof.Machine
end

