-- ==== Sys2Proof/Proofs/NotPrepared.lean ====
section
/-! SUPPORT. The NOT_PREPARED policy (R151, R233). -/

namespace Sys2Proof.Machine

/-- The commands of the host interface (R200 to R215): those that need no prepared block. -/
theorem exec_hostInterface_answers {i : Instr} {s t : State} (hframe : ∀ a b, i ≠ .processFrame a b)
    (hwrite : ∀ ch a, i ≠ .dlWrite ch a) (hread : ∀ ch a, i ≠ .dlRead ch a) (h : exec i s = .next t) :
    ∃ code a b, code ≠ .notPrepared ∧ t.answers = ⟨code, a, b⟩ :: s.answers := by
  cases i with
  | nop =>
    obtain rfl := (exec_nop_next s t).1 h
    exact ⟨.ok, _, _, by decide, rfl⟩
  | configure sr =>
    obtain ⟨_, rfl⟩ | ⟨_, _, rfl⟩ := (exec_configure_next sr s t).1 h
    · exact ⟨.allocError, _, _, by decide, rfl⟩
    · exact ⟨.ok, _, _, by decide, rfl⟩
  | writeReg index v =>
    obtain ⟨r, _, _, rfl⟩ | ⟨_, rfl⟩ := (exec_writeReg_next index v s t).1 h
    · exact ⟨.ok, _, _, by decide, congrArg _ (regWrite_answers s r v)⟩
    · exact ⟨.illegalCommand, _, _, by decide, rfl⟩
  | readReg index =>
    obtain ⟨r, _, rfl⟩ | ⟨_, rfl⟩ := (exec_readReg_next index s t).1 h
    · exact ⟨.ok, _, _, by decide, rfl⟩
    · exact ⟨.illegalCommand, _, _, by decide, rfl⟩
  | processFrame a b => exact absurd rfl (hframe a b)
  | dlWrite ch a => exact absurd rfl (hwrite ch a)
  | dlRead ch a => exact absurd rfl (hread ch a)

/-- Settles O41. -/
theorem notPreparedPolicy : Obligations.NotPreparedPolicy := by
  constructor
  · intro s a b ch hready
    exact ⟨(exec_processFrame_next a b s _).2 (.inr ⟨hready, rfl⟩),
      (exec_dlWrite_next ch a s _).2 (.inr ⟨hready, rfl⟩), (exec_dlRead_next ch a s _).2 (.inr ⟨hready, rfl⟩)⟩
  · intro i s t h hframe hwrite hread a b hans
    obtain ⟨code, a', b', hcode, hans'⟩ := exec_hostInterface_answers hframe hwrite hread h
    exact hcode (code_of_cons_eq (hans'.symm.trans hans))

end Sys2Proof.Machine
end

/-! SUPPORT. CONFIGURE (R201 to R207): when it fails, the two states it can leave, and that no other command sets up the
delay lines. -/

namespace Sys2Proof.Machine

/-! ### When the delay lines cannot be set up -/

/-- The four conditions of R203 on the sample rate and the parameters. -/
def AllocFails (p : Params) (sr : Word) : Prop :=
  ¬ (isNaN sr = false ∧ isInf sr = false ∧ flt ZERO sr = true) ∨ isInf (fmul sr p.maxDelaySeconds) = true
    ∨ (floorReal (fmul sr p.maxDelaySeconds)).toNat = 0
    ∨ p.bufCapacity.toNat < (floorReal (fmul sr p.maxDelaySeconds)).toNat

theorem rateAccepted_iff (p : Params) (sr : Word) :
    rateAccepted p sr = true ↔
      (isNaN sr = false ∧ isInf sr = false ∧ flt ZERO sr = true) ∧ isInf (fmul sr p.maxDelaySeconds) = false := by
  simp [rateAccepted, and_assoc]

theorem requestedLength_of_accepted {p : Params} {sr : Word} (h : rateAccepted p sr = true) :
    requestedLength p sr = (floorReal (fmul sr p.maxDelaySeconds)).toNat := if_pos h

theorem requestedLength_of_not_accepted {p : Params} {sr : Word} (h : ¬ rateAccepted p sr = true) :
    requestedLength p sr = 0 := if_neg h

/-- A rate that is not accepted asks for length 0, so the test of R201 on the length alone covers R203. -/
theorem allocFails_iff (p : Params) (sr : Word) :
    AllocFails p sr ↔ requestedLength p sr < 1 ∨ p.bufCapacity.toNat < requestedLength p sr := by
  by_cases h : rateAccepted p sr = true
  · obtain ⟨hrate, hprod⟩ := (rateAccepted_iff p sr).1 h
    simp [AllocFails, requestedLength_of_accepted h, hrate, hprod]
  · rw [requestedLength_of_not_accepted h]
    refine iff_of_true ?_ (.inl Nat.zero_lt_one)
    rw [rateAccepted_iff, not_and_or, Bool.not_eq_false] at h
    exact h.imp_right .inl

/-! ### The two outcomes -/

theorem exec_configure_failed {s : State} {sr : Word} (h : AllocFails s.cfg sr) :
    exec (.configure sr) s = .next (configureFailed s) :=
  (exec_configure_next ..).2 (.inl ⟨(allocFails_iff ..).1 h, rfl⟩)

theorem exec_configure_done {s : State} {sr : Word} (h : ¬ AllocFails s.cfg sr) :
    exec (.configure sr) s = .next (configureDone s sr (requestedLength s.cfg sr)) := by
  rw [allocFails_iff] at h
  exact (exec_configure_next ..).2 (.inr ⟨by omega, by omega, rfl⟩)

theorem exec_configure_answers (s : State) (sr : Word) : ∃ t, exec (.configure sr) s = .next t := by
  by_cases h : AllocFails s.cfg sr
  · exact ⟨_, exec_configure_failed h⟩
  · exact ⟨_, exec_configure_done h⟩

/-- A length that fits BUF_CAPACITY fits the 32 bits of LENGTH. -/
theorem configureDone_length_toNat (s : State) (sr : Word) {n : Nat} (hcap : n ≤ s.cfg.bufCapacity.toNat) :
    (configureDone s sr n).length.toNat = n :=
  (BitVec.toNat_ofNat ..).trans (Nat.mod_eq_of_lt (Nat.lt_of_le_of_lt hcap s.cfg.bufCapacity.isLt))

/-- Every word of a delay line that was just set up is +0.0 (R43, R205). -/
theorem memRead_configureDone (s : State) (sr : Word) {n : Nat} (hcap : n ≤ s.cfg.bufCapacity.toNat) (ch : Channel)
    {i : Nat} (hi : i < n) : memRead (configureDone s sr n) ch i = some 0#32 := by
  have hram : (configureDone s sr n).ram ch = zeroFilled := by cases ch <;> rfl
  rw [memRead_eq_some_iff, configureDone_length_toNat s sr hcap, hram]
  exact ⟨hi, readWord_zeroFilled i⟩

/-- No delay-RAM word is reachable after a failure, since LENGTH is 0 (R204). -/
theorem memRead_configureFailed (s : State) (ch : Channel) (i : Nat) : memRead (configureFailed s) ch i = none :=
  memRead_none _ ch i (Nat.zero_le i)

/-- Settles O18. -/
theorem configureSucceeds : Obligations.ConfigureSucceeds := by
  intro s sr n hnan hinf hpos hprod hone hcap
  have hn : requestedLength s.cfg sr = n :=
    requestedLength_of_accepted ((rateAccepted_iff ..).2 ⟨⟨hnan, hinf, hpos⟩, hprod⟩)
  have hfits : ¬ AllocFails s.cfg sr := by
    rw [allocFails_iff, hn]
    omega
  exact ⟨configureDone s sr n, hn ▸ exec_configure_done hfits, ⟨_, _, rfl⟩, configureDone_length_toNat s sr hcap,
    fun ch _ hi => memRead_configureDone s sr hcap ch hi⟩

/-- Settles O19. -/
theorem configureFailsExactlyWhen : Obligations.ConfigureFailsExactlyWhen := by
  intro s sr prod
  show _ ↔ AllocFails s.cfg sr
  constructor
  · rintro ⟨t, h, hans⟩
    by_contra hfits
    obtain rfl := Host.Outcome.next.inj ((exec_configure_done hfits).symm.trans h)
    exact absurd (code_of_cons_eq hans) (by decide)
  · exact fun h => ⟨_, exec_configure_failed h, rfl⟩

/-- Settles O20. -/
theorem configureFailureLeaves : Obligations.ConfigureFailureLeaves := fun s _ h =>
  ⟨configureFailed s, exec_configure_failed h, ⟨_, _, rfl⟩, memRead_configureFailed s⟩

/-! ### Two CONFIGURE commands in a row -/

/-- Whatever its outcome, CONFIGURE releases the engine, sets only LENGTH, SAMPLE_RATE, STATUS and the record of
responses beside it, and clears no sticky bit. -/
theorem exec_configure_released {s t : State} {sr : Word} (h : exec (.configure sr) s = .next t) :
    ∃ length sampleRate status answers,
      t = { releaseEngine s with length := length, sampleRate := sampleRate, status := status, answers := answers }
        ∧ (s.status.allocErr = true → status.allocErr = true)
        ∧ status.npErr = s.status.npErr ∧ status.illErr = s.status.illErr := by
  obtain ⟨_, rfl⟩ | ⟨_, _, rfl⟩ := (exec_configure_next sr s t).1 h
  · exact ⟨_, _, _, _, rfl, fun _ => rfl, rfl, rfl⟩
  · exact ⟨_, _, _, _, rfl, id, rfl, rfl⟩

/-- Settles O21: the outcome of the second CONFIGURE depends on its rate and the parameters alone, and it sets again
every field that the first one set. -/
theorem configureIsIdempotent : Obligations.ConfigureIsIdempotent := by
  intro s sr1 sr2
  obtain ⟨t1, h1⟩ := exec_configure_answers s sr1
  obtain ⟨_, _, _, _, rfl, halloc, hnp, hill⟩ := exec_configure_released h1
  by_cases h : AllocFails s.cfg sr2
  · exact ⟨_, _, _, h1, exec_configure_failed h, exec_configure_failed h, rfl, rfl, fun _ => rfl, hnp, hill⟩
  · exact ⟨_, _, _, h1, exec_configure_done h, exec_configure_done h, rfl, rfl, halloc, hnp, hill⟩

/-! ### The other commands -/

/-- Settles O22, effect by effect: a write of STATUS keeps READY. -/
theorem onlyConfigureSetsUp : Obligations.OnlyConfigureSetsUp := by
  intro i s t hi h
  cases exec_effect h with
  | configureFailed sr | configureDone sr => exact absurd rfl (hi sr)
  | answered | framed => exact ⟨rfl, rfl, rfl⟩
  | raised | regWritten | lineWritten => simp

end Sys2Proof.Machine

/-! SUPPORT. NOP, READ_REG and WRITE_REG (R200, R210 to R215). -/

namespace Sys2Proof.Machine

/-- Settles O12. -/
theorem nopAnswersOk : Obligations.NopAnswersOk := fun s => (exec_nop_next s _).2 rfl

/-! ### The register map -/

/-- No register stands at an index that R33 reserves. -/
theorem Reg.index_not_reserved (r : Reg) :
    ¬ (r.index = 0x06#8 ∨ r.index = 0x07#8 ∨ r.index = 0x0F#8 ∨ 0x18 ≤ r.index.toNat) := by
  cases r <;> decide

theorem Reg.ofIndex_reserved {index : Byte}
    (h : index = 0x06#8 ∨ index = 0x07#8 ∨ index = 0x0F#8 ∨ 0x18 ≤ index.toNat) : Reg.ofIndex index = none := by
  cases hr : Reg.ofIndex index with
  | none => rfl
  | some r => exact absurd (Reg.index_of_ofIndex hr ▸ h) r.index_not_reserved

/-- The registers that the host may write are the six parameters and STATUS (R33). -/
theorem Reg.index_of_rw {r : Reg} (h : r.access = .rw) : r.index.toNat < 0x06 ∨ r.index = 0x0A#8 := by
  revert h
  cases r <;> decide

/-! ### READ_REG -/

theorem exec_readReg_index (s : State) (r : Reg) :
    exec (.readReg r.index) s = .next (respondOk s (regValue s r) 0#32) :=
  (exec_readReg_next ..).2 (.inl ⟨r, r.ofIndex_index, rfl⟩)

theorem typeWord_eq_ite (ty : EffectType) : typeWord ty = if ty = .chorus then 0#32 else 1#32 := by cases ty <;> rfl

/-- Settles O13. -/
theorem readRegReturnsRegValue : Obligations.ReadRegReturnsRegValue := by
  intro s reads
  have read := exec_readReg_index s
  have htype : reads 0x05#8 (if s.effectType = .chorus then 0#32 else 1#32) :=
    typeWord_eq_ite s.effectType ▸ read .effectType
  exact ⟨read .dryWet, read .depth, read .rate, read .phaseOffset, read .feedback, htype, read .sampleRate, read .length,
    read .status, read .id, read .version, read .capacity, read .maxDelay, read .lfoPhase, read .smoothRate,
    read .smoothDepth, read .smoothPhaseOffset, read .fbL, read .fbR, read .whL, read .whR⟩

/-- Settles O14. -/
theorem readRegOfReservedIndexIsIllegal : Obligations.ReadRegOfReservedIndexIsIllegal := fun _ _ h =>
  (exec_readReg_next ..).2 (.inr ⟨Reg.ofIndex_reserved h, rfl⟩)

/-! ### WRITE_REG -/

theorem exec_writeReg_index (s : State) {r : Reg} (h : r.access = .rw) (v : Word) :
    exec (.writeReg r.index v) s = .next (afterWrite s (r, v)) :=
  (exec_writeReg_next ..).2 (.inl ⟨r, r.ofIndex_index, h, rfl⟩)

/-- TYPE stores whether the value is nonzero (R34). -/
theorem typeOfWord_eq_ite (v : Word) : typeOfWord v = if v ≠ 0#32 then .flanger else .chorus := (ite_not ..).symm

/-- A sticky bit stays where the value has a 0 and is cleared where it has a 1 (R35). -/
theorem Status.clear_eq_ite (st : Status) (v : Word) :
    st.clear v =
      { ready := st.ready
        allocErr := if v.getLsbD 1 then false else st.allocErr
        npErr := if v.getLsbD 2 then false else st.npErr
        illErr := if v.getLsbD 3 then false else st.illErr } := by
  have hbit (old bit : Bool) : (old && !bit) = if bit then false else old := by cases bit <;> simp
  simp only [Status.clear, hbit]

/-- Settles O15. -/
theorem writeRegWritesTheRegister : Obligations.WriteRegWritesTheRegister := by
  intro s v writes
  have write (r : Reg) (h : r.access = .rw) := exec_writeReg_index s h v
  refine ⟨write .dryWet rfl, write .depth rfl, write .rate rfl, write .phaseOffset rfl, write .feedback rfl, ?_, ?_⟩
  · rw [← typeOfWord_eq_ite]
    exact write .effectType rfl
  · rw [← Status.clear_eq_ite]
    exact write .status rfl

/-- Settles O16: every writable register has another index. -/
theorem writeRegElsewhereIsIllegal : Obligations.WriteRegElsewhereIsIllegal := by
  intro s index v hle hne
  refine (exec_writeReg_next ..).2 (.inr ⟨fun r hr hrw => ?_, rfl⟩)
  rw [Reg.index_of_ofIndex hr] at hle hne
  obtain hlt | heq := Reg.index_of_rw hrw
  · omega
  · exact hne heq

end Sys2Proof.Machine

namespace Sys2Proof.Machine

/-! ### No request -/

/-- Settles O9: the first of the four kinds of step (R246, R261). -/
theorem idleStepHoldsTheState : Obligations.IdleStepHoldsTheState := fun _ hport => step_idle hport

end Sys2Proof.Machine
